-- ==== Sys2Proof/Word.lean ====
section
/-! DEFINITION. The machine's words: bytes, 16-bit words and the narrower fields of an opcode word (spec R9, R92). -/

namespace Sys2Proof

/-- A byte, 8 bits (R9). -/
abbrev Byte := BitVec 8

/-- A 16-bit word: an opcode word, `I`, `PC`, a return address (R9, R23, R24, R27). -/
abbrev Word := BitVec 16

/-- A 4-bit field: a register number `x`, `y`, or the immediate `n` (R92). -/
abbrev Nibble := BitVec 4

/-- The 12-bit immediate address `nnn` (R92). -/
abbrev Imm12 := BitVec 12

end Sys2Proof
end

