-- ==== Sys2Proof/Syntax.lean ====
section
/-! DEFINITION. The instructions: one constructor per row of the opcode map (spec R96), in the table's order. -/

namespace Sys2Proof

/-- The generation class of a row (R107): base, SuperChip-specific, XoChip-specific. -/
inductive Gen where
  | base | superChip | xoChip
  deriving DecidableEq, Repr

/-- An instruction, one constructor per row of R96. Fields are the fields of R92: `x`, `y` register numbers, `n`, `nn`,
`nnn`, `nnnn` immediates. -/
inductive Instr where
  /-- `00E0` CLS (R223). -/
  | cls
  /-- `00EE` RET (R151). -/
  | ret
  /-- `00FB` SCR (R227). -/
  | scr
  /-- `00FC` SCL (R228). -/
  | scl
  /-- `00FE` LOW (R229). -/
  | low
  /-- `00FF` HIGH (R230). -/
  | high
  /-- `00Cn` SCD n (R225). -/
  | scd (n : Nibble)
  /-- `00Dn` SCU n (R226). -/
  | scu (n : Nibble)
  /-- `1nnn` JP nnn (R152). -/
  | jp (nnn : Imm12)
  /-- `2nnn` CALL nnn (R153). -/
  | call (nnn : Imm12)
  /-- `3xnn` SE Vx, nn (R155). -/
  | seImm (x : Nibble) (nn : Byte)
  /-- `4xnn` SNE Vx, nn (R156). -/
  | sneImm (x : Nibble) (nn : Byte)
  /-- `5xy0` SE Vx, Vy (R157). -/
  | seReg (x y : Nibble)
  /-- `6xnn` LD Vx, nn (R170). -/
  | ldImm (x : Nibble) (nn : Byte)
  /-- `7xnn` ADD Vx, nn (R171). -/
  | addImm (x : Nibble) (nn : Byte)
  /-- `8xy0` LD Vx, Vy (R172). -/
  | ldReg (x y : Nibble)
  /-- `8xy1` OR Vx, Vy (R173). -/
  | orReg (x y : Nibble)
  /-- `8xy2` AND Vx, Vy (R174). -/
  | andReg (x y : Nibble)
  /-- `8xy3` XOR Vx, Vy (R175). -/
  | xorReg (x y : Nibble)
  /-- `8xy4` ADD Vx, Vy (R176). -/
  | addReg (x y : Nibble)
  /-- `8xy5` SUB Vx, Vy (R177). -/
  | subReg (x y : Nibble)
  /-- `8xy6` SHR Vx, Vy (R178). -/
  | shr (x y : Nibble)
  /-- `8xy7` SUBN Vx, Vy (R179). -/
  | subn (x y : Nibble)
  /-- `8xyE` SHL Vx, Vy (R180). -/
  | shl (x y : Nibble)
  /-- `9xy0` SNE Vx, Vy (R158). -/
  | sneReg (x y : Nibble)
  /-- `Annn` LD I, nnn (R200). -/
  | ldI (nnn : Imm12)
  /-- `Bnnn` JP V0, nnn (R154). -/
  | jpV0 (nnn : Imm12)
  /-- `Cxnn` RND Vx, nn (R181). -/
  | rnd (x : Nibble) (nn : Byte)
  /-- `Dxy0` DRW Vx, Vy, 0: the 16 by 16 sprite (R232). -/
  | drwBig (x y : Nibble)
  /-- `Dxyn` DRW Vx, Vy, n with n not 0 (R232). -/
  | drw (x y n : Nibble)
  /-- `Ex9E` SKP Vx (R159). -/
  | skp (x : Nibble)
  /-- `ExA1` SKNP Vx (R160). -/
  | sknp (x : Nibble)
  /-- `F000 nnnn` LD I, long nnnn (R201). -/
  | ldILong (nnnn : Word)
  /-- `Fn01` PLANE n, n at most 3 (R235). -/
  | plane (n : Nibble)
  /-- `F002` AUDIO (R265). -/
  | audio
  /-- `Fx07` LD Vx, DT (R250). -/
  | ldVxDt (x : Nibble)
  /-- `Fx0A` LD Vx, K (R253). -/
  | ldVxKey (x : Nibble)
  /-- `Fx15` LD DT, Vx (R251). -/
  | ldDtVx (x : Nibble)
  /-- `Fx18` LD ST, Vx (R252). -/
  | ldStVx (x : Nibble)
  /-- `Fx1E` ADD I, Vx (R202). -/
  | addI (x : Nibble)
  /-- `Fx29` LD F, Vx (R203). -/
  | ldFont (x : Nibble)
  /-- `Fx30` LD HF, Vx (R204). -/
  | ldBigFont (x : Nibble)
  /-- `Fx33` LD B, Vx (R205). -/
  | bcd (x : Nibble)
  /-- `Fx3A` PITCH Vx (R266). -/
  | pitch (x : Nibble)
  /-- `Fx55` LD [I], Vx (R206). -/
  | storeRegs (x : Nibble)
  /-- `Fx65` LD Vx, [I] (R207). -/
  | loadRegs (x : Nibble)
  /-- `Fx75` LD R, Vx (R208). -/
  | saveFlags (x : Nibble)
  /-- `Fx85` LD Vx, R (R209). -/
  | loadFlags (x : Nibble)
  deriving DecidableEq, Repr

end Sys2Proof
end

