-- ==== Sys2Proof/WellFormed.lean ====
section
/-! DEFINITION. Which terms of `Instr` are instructions: the two field restrictions of the encoding (spec R94, R101). -/

namespace Sys2Proof

/-- `Dxyn` of row 30 has n not 0, since n = 0 is row 29 (R94, R106). A PLANE mask is one of 0, 1, 2, 3 (R101). Every other
field takes every value. -/
def Instr.wf : Instr → Bool
  | .drw _ _ n => n != 0
  | .plane n => n.toNat ≤ 3
  | .cls | .ret | .scr | .scl | .low | .high | .scd _ | .scu _ | .jp _ | .call _ => true
  | .seImm _ _ | .sneImm _ _ | .seReg _ _ | .ldImm _ _ | .addImm _ _ | .ldReg _ _ => true
  | .orReg _ _ | .andReg _ _ | .xorReg _ _ | .addReg _ _ | .subReg _ _ | .shr _ _ => true
  | .subn _ _ | .shl _ _ | .sneReg _ _ | .ldI _ | .jpV0 _ | .rnd _ _ | .drwBig _ _ => true
  | .skp _ | .sknp _ | .ldILong _ | .audio | .ldVxDt _ | .ldVxKey _ | .ldDtVx _ => true
  | .ldStVx _ | .addI _ | .ldFont _ | .ldBigFont _ | .bcd _ | .pitch _ => true
  | .storeRegs _ | .loadRegs _ | .saveFlags _ | .loadFlags _ => true

end Sys2Proof
end

