-- ==== Sys2Proof/Decode.lean ====
section
/-! DEFINITION. The decoder and the encoder, from the opcode map (spec R90 to R107): what the first word says, the long
form's second word, the bytes in memory order, the generation class of a row, and the map itself as data. -/

namespace Sys2Proof

/-- The group nibble `g = op[15:12]` (R92). -/
def groupOf (op : Word) : Nibble := op.extractLsb' 12 4
/-- The field `x = op[11:8]` (R92). -/
def xOf (op : Word) : Nibble := op.extractLsb' 8 4
/-- The field `y = op[7:4]` (R92). -/
def yOf (op : Word) : Nibble := op.extractLsb' 4 4
/-- The field `n = op[3:0]` (R92). -/
def nOf (op : Word) : Nibble := op.extractLsb' 0 4
/-- The field `nn = op[7:0]` (R92). -/
def nnOf (op : Word) : Byte := op.extractLsb' 0 8
/-- The field `nnn = op[11:0]` (R92). -/
def nnnOf (op : Word) : Imm12 := op.extractLsb' 0 12

/-- What the first word of an instruction says: a whole 2-byte instruction, or the first half of the 4-byte form
`F000 nnnn` (R90). -/
inductive Decoded where
  | short (i : Instr)
  | long
  deriving DecidableEq, Repr

/-- Group 0: fixed words, and the sixteen words each of `00Cn` and `00Dn` (R95). -/
def decodeGroup0 (op : Word) : Option Instr :=
  if op = 0x00E0 then some .cls
  else if op = 0x00EE then some .ret
  else if op = 0x00FB then some .scr
  else if op = 0x00FC then some .scl
  else if op = 0x00FE then some .low
  else if op = 0x00FF then some .high
  else if xOf op = 0x0 ∧ yOf op = 0xC then some (.scd (nOf op))
  else if xOf op = 0x0 ∧ yOf op = 0xD then some (.scu (nOf op))
  else none

/-- Group 8: the low nibble selects the operation (R98). -/
def decodeGroup8 (op : Word) : Option Instr :=
  match (nOf op).toNat with
  | 0x0 => some (.ldReg (xOf op) (yOf op))
  | 0x1 => some (.orReg (xOf op) (yOf op))
  | 0x2 => some (.andReg (xOf op) (yOf op))
  | 0x3 => some (.xorReg (xOf op) (yOf op))
  | 0x4 => some (.addReg (xOf op) (yOf op))
  | 0x5 => some (.subReg (xOf op) (yOf op))
  | 0x6 => some (.shr (xOf op) (yOf op))
  | 0x7 => some (.subn (xOf op) (yOf op))
  | 0xE => some (.shl (xOf op) (yOf op))
  | _ => none

/-- Group E: the low byte is 9E or A1 (R99). -/
def decodeGroupE (op : Word) : Option Instr :=
  match (nnOf op).toNat with
  | 0x9E => some (.skp (xOf op))
  | 0xA1 => some (.sknp (xOf op))
  | _ => none

/-- Group F: the low byte selects the row; `Fx00` and `Fx02` need x = 0, `Fn01` needs n at most 3 (R100, R101). -/
def decodeGroupF (op : Word) : Option Decoded :=
  match (nnOf op).toNat with
  | 0x00 => if xOf op = 0x0 then some .long else none
  | 0x01 => if (xOf op).toNat ≤ 3 then some (.short (.plane (xOf op))) else none
  | 0x02 => if xOf op = 0x0 then some (.short .audio) else none
  | 0x07 => some (.short (.ldVxDt (xOf op)))
  | 0x0A => some (.short (.ldVxKey (xOf op)))
  | 0x15 => some (.short (.ldDtVx (xOf op)))
  | 0x18 => some (.short (.ldStVx (xOf op)))
  | 0x1E => some (.short (.addI (xOf op)))
  | 0x29 => some (.short (.ldFont (xOf op)))
  | 0x30 => some (.short (.ldBigFont (xOf op)))
  | 0x33 => some (.short (.bcd (xOf op)))
  | 0x3A => some (.short (.pitch (xOf op)))
  | 0x55 => some (.short (.storeRegs (xOf op)))
  | 0x65 => some (.short (.loadRegs (xOf op)))
  | 0x75 => some (.short (.saveFlags (xOf op)))
  | 0x85 => some (.short (.loadFlags (xOf op)))
  | _ => none

/-- The decoder of a first word: the group nibble selects the group (R91, R94). `none` is an illegal word (R104). No state
is consulted (R90, R122). -/
def decodeFirst (op : Word) : Option Decoded :=
  match (groupOf op).toNat with
  | 0x0 => (decodeGroup0 op).map .short
  | 0x1 => some (.short (.jp (nnnOf op)))
  | 0x2 => some (.short (.call (nnnOf op)))
  | 0x3 => some (.short (.seImm (xOf op) (nnOf op)))
  | 0x4 => some (.short (.sneImm (xOf op) (nnOf op)))
  | 0x5 => if nOf op = 0x0 then some (.short (.seReg (xOf op) (yOf op))) else none
  | 0x6 => some (.short (.ldImm (xOf op) (nnOf op)))
  | 0x7 => some (.short (.addImm (xOf op) (nnOf op)))
  | 0x8 => (decodeGroup8 op).map .short
  | 0x9 => if nOf op = 0x0 then some (.short (.sneReg (xOf op) (yOf op))) else none
  | 0xA => some (.short (.ldI (nnnOf op)))
  | 0xB => some (.short (.jpV0 (nnnOf op)))
  | 0xC => some (.short (.rnd (xOf op) (nnOf op)))
  | 0xD =>
    if nOf op = 0x0 then some (.short (.drwBig (xOf op) (yOf op)))
    else some (.short (.drw (xOf op) (yOf op) (nOf op)))
  | 0xE => (decodeGroupE op).map .short
  | _ => decodeGroupF op

/-- Why bytes are no instruction. -/
inductive DecodeError where
  /-- The word matches no row (R104). -/
  | unknownOpcode (op : Word)
  /-- The bytes end inside an instruction. -/
  | truncated
  deriving DecidableEq, Repr

/-- The decoder over bytes in memory order, total: the instruction and the bytes after it, or why there is none. Words are
big-endian (R66). -/
def decode : List Byte → Except DecodeError (Instr × List Byte)
  | hi :: lo :: rest =>
    match decodeFirst (hi ++ lo) with
    | none => .error (.unknownOpcode (hi ++ lo))
    | some (.short i) => .ok (i, rest)
    | some .long =>
      match rest with
      | hi2 :: lo2 :: rest2 => .ok (.ldILong (hi2 ++ lo2), rest2)
      | _ => .error .truncated
  | _ => .error .truncated

/-- The bytes, in memory order, of an instruction whose bits are `w` in the numbering of spec/opcode_table.json: bits 15..0 are
the first word, bits 31..16 the second, each word high byte first (R66, R90). -/
def tableWordBytes (nbits w : Nat) : List Byte :=
  let u := w % 2 ^ nbits
  [BitVec.ofNat 8 (u / 2 ^ 8), BitVec.ofNat 8 u, BitVec.ofNat 8 (u / 2 ^ 24), BitVec.ofNat 8 (u / 2 ^ 16)]

/-- The instruction the decoder reads from `tableWordBytes`. -/
def decodeTableWord (nbits w : Nat) : Option Instr :=
  match decode (tableWordBytes nbits w) with
  | .ok (i, _) => some i
  | .error _ => none

/-- The first word of an instruction, its fields placed as the formats of R91 place them. -/
def Instr.firstWord : Instr → Word
  | .cls => 0x00E0
  | .ret => 0x00EE
  | .scr => 0x00FB
  | .scl => 0x00FC
  | .low => 0x00FE
  | .high => 0x00FF
  | .scd n => (0x00C#12 ++ n : BitVec 16)
  | .scu n => (0x00D#12 ++ n : BitVec 16)
  | .jp nnn => (0x1#4 ++ nnn : BitVec 16)
  | .call nnn => (0x2#4 ++ nnn : BitVec 16)
  | .seImm x nn => (0x3#4 ++ x ++ nn : BitVec 16)
  | .sneImm x nn => (0x4#4 ++ x ++ nn : BitVec 16)
  | .seReg x y => (0x5#4 ++ x ++ y ++ 0x0#4 : BitVec 16)
  | .ldImm x nn => (0x6#4 ++ x ++ nn : BitVec 16)
  | .addImm x nn => (0x7#4 ++ x ++ nn : BitVec 16)
  | .ldReg x y => (0x8#4 ++ x ++ y ++ 0x0#4 : BitVec 16)
  | .orReg x y => (0x8#4 ++ x ++ y ++ 0x1#4 : BitVec 16)
  | .andReg x y => (0x8#4 ++ x ++ y ++ 0x2#4 : BitVec 16)
  | .xorReg x y => (0x8#4 ++ x ++ y ++ 0x3#4 : BitVec 16)
  | .addReg x y => (0x8#4 ++ x ++ y ++ 0x4#4 : BitVec 16)
  | .subReg x y => (0x8#4 ++ x ++ y ++ 0x5#4 : BitVec 16)
  | .shr x y => (0x8#4 ++ x ++ y ++ 0x6#4 : BitVec 16)
  | .subn x y => (0x8#4 ++ x ++ y ++ 0x7#4 : BitVec 16)
  | .shl x y => (0x8#4 ++ x ++ y ++ 0xE#4 : BitVec 16)
  | .sneReg x y => (0x9#4 ++ x ++ y ++ 0x0#4 : BitVec 16)
  | .ldI nnn => (0xA#4 ++ nnn : BitVec 16)
  | .jpV0 nnn => (0xB#4 ++ nnn : BitVec 16)
  | .rnd x nn => (0xC#4 ++ x ++ nn : BitVec 16)
  | .drwBig x y => (0xD#4 ++ x ++ y ++ 0x0#4 : BitVec 16)
  | .drw x y n => (0xD#4 ++ x ++ y ++ n : BitVec 16)
  | .skp x => (0xE#4 ++ x ++ 0x9E#8 : BitVec 16)
  | .sknp x => (0xE#4 ++ x ++ 0xA1#8 : BitVec 16)
  | .ldILong _ => 0xF000
  | .plane n => (0xF#4 ++ n ++ 0x01#8 : BitVec 16)
  | .audio => 0xF002
  | .ldVxDt x => (0xF#4 ++ x ++ 0x07#8 : BitVec 16)
  | .ldVxKey x => (0xF#4 ++ x ++ 0x0A#8 : BitVec 16)
  | .ldDtVx x => (0xF#4 ++ x ++ 0x15#8 : BitVec 16)
  | .ldStVx x => (0xF#4 ++ x ++ 0x18#8 : BitVec 16)
  | .addI x => (0xF#4 ++ x ++ 0x1E#8 : BitVec 16)
  | .ldFont x => (0xF#4 ++ x ++ 0x29#8 : BitVec 16)
  | .ldBigFont x => (0xF#4 ++ x ++ 0x30#8 : BitVec 16)
  | .bcd x => (0xF#4 ++ x ++ 0x33#8 : BitVec 16)
  | .pitch x => (0xF#4 ++ x ++ 0x3A#8 : BitVec 16)
  | .storeRegs x => (0xF#4 ++ x ++ 0x55#8 : BitVec 16)
  | .loadRegs x => (0xF#4 ++ x ++ 0x65#8 : BitVec 16)
  | .saveFlags x => (0xF#4 ++ x ++ 0x75#8 : BitVec 16)
  | .loadFlags x => (0xF#4 ++ x ++ 0x85#8 : BitVec 16)

/-- The second word, which only the long form has (R90). -/
def Instr.secondWord : Instr → Option Word
  | .ldILong nnnn => some nnnn
  | .cls | .ret | .scr | .scl | .low | .high | .scd _ | .scu _ | .jp _ | .call _ => none
  | .seImm _ _ | .sneImm _ _ | .seReg _ _ | .ldImm _ _ | .addImm _ _ | .ldReg _ _ => none
  | .orReg _ _ | .andReg _ _ | .xorReg _ _ | .addReg _ _ | .subReg _ _ | .shr _ _ => none
  | .subn _ _ | .shl _ _ | .sneReg _ _ | .ldI _ | .jpV0 _ | .rnd _ _ | .drwBig _ _ => none
  | .drw _ _ _ | .skp _ | .sknp _ | .plane _ | .audio | .ldVxDt _ | .ldVxKey _ => none
  | .ldDtVx _ | .ldStVx _ | .addI _ | .ldFont _ | .ldBigFont _ | .bcd _ | .pitch _ => none
  | .storeRegs _ | .loadRegs _ | .saveFlags _ | .loadFlags _ => none

/-- The two bytes of a word in memory order, the high byte at the lower address (R66). -/
def wordBytes (w : Word) : List Byte := [w.extractLsb' 8 8, w.extractLsb' 0 8]

/-- The length in bytes (R90). -/
def Instr.length (i : Instr) : Nat :=
  match i.secondWord with
  | none => 2
  | some _ => 4

/-- The encoder: an instruction's bytes in memory order. -/
def encode (i : Instr) : List Byte :=
  match i.secondWord with
  | none => wordBytes i.firstWord
  | some w => wordBytes i.firstWord ++ wordBytes w

/-- The generation class of each row (R107). -/
def Instr.gen : Instr → Gen
  | .scd _ | .scr | .scl | .low | .high | .drwBig _ _ | .ldBigFont _ | .saveFlags _ | .loadFlags _ => .superChip
  | .scu _ | .ldILong _ | .plane _ | .audio | .pitch _ => .xoChip
  | .cls | .ret | .jp _ | .call _ | .seImm _ _ | .sneImm _ _ | .seReg _ _ | .ldImm _ _ | .addImm _ _ => .base
  | .ldReg _ _ | .orReg _ _ | .andReg _ _ | .xorReg _ _ | .addReg _ _ | .subReg _ _ | .shr _ _ => .base
  | .subn _ _ | .shl _ _ | .sneReg _ _ | .ldI _ | .jpV0 _ | .rnd _ _ | .drw _ _ _ | .skp _ | .sknp _ => .base
  | .ldVxDt _ | .ldVxKey _ | .ldDtVx _ | .ldStVx _ | .addI _ | .ldFont _ | .bcd _ => .base
  | .storeRegs _ | .loadRegs _ => .base

/-- The mask and match columns of the opcode map, row by row from the top (R96); the decoder above is not written from it, so
that the two can be compared. -/
def opcodeMap : List (Word × Word) :=
  [(0xFFFF, 0x00E0), (0xFFFF, 0x00EE), (0xFFFF, 0x00FB), (0xFFFF, 0x00FC), (0xFFFF, 0x00FE), (0xFFFF, 0x00FF),
   (0xFFF0, 0x00C0), (0xFFF0, 0x00D0), (0xF000, 0x1000), (0xF000, 0x2000), (0xF000, 0x3000), (0xF000, 0x4000)] ++
  [(0xF00F, 0x5000), (0xF000, 0x6000), (0xF000, 0x7000), (0xF00F, 0x8000), (0xF00F, 0x8001), (0xF00F, 0x8002),
   (0xF00F, 0x8003), (0xF00F, 0x8004), (0xF00F, 0x8005), (0xF00F, 0x8006), (0xF00F, 0x8007), (0xF00F, 0x800E)] ++
  [(0xF00F, 0x9000), (0xF000, 0xA000), (0xF000, 0xB000), (0xF000, 0xC000), (0xF00F, 0xD000), (0xF000, 0xD000),
   (0xF0FF, 0xE09E), (0xF0FF, 0xE0A1), (0xFFFF, 0xF000), (0xF0FF, 0xF001), (0xFFFF, 0xF002), (0xF0FF, 0xF007)] ++
  [(0xF0FF, 0xF00A), (0xF0FF, 0xF015), (0xF0FF, 0xF018), (0xF0FF, 0xF01E), (0xF0FF, 0xF029), (0xF0FF, 0xF030),
   (0xF0FF, 0xF033), (0xF0FF, 0xF03A), (0xF0FF, 0xF055), (0xF0FF, 0xF065), (0xF0FF, 0xF075), (0xF0FF, 0xF085)]

/-- The row an instruction belongs to, counted from 0 (R96). -/
def Instr.row : Instr → Nat
  | .cls => 0 | .ret => 1 | .scr => 2 | .scl => 3 | .low => 4 | .high => 5 | .scd _ => 6 | .scu _ => 7
  | .jp _ => 8 | .call _ => 9 | .seImm _ _ => 10 | .sneImm _ _ => 11 | .seReg _ _ => 12 | .ldImm _ _ => 13
  | .addImm _ _ => 14 | .ldReg _ _ => 15 | .orReg _ _ => 16 | .andReg _ _ => 17 | .xorReg _ _ => 18
  | .addReg _ _ => 19 | .subReg _ _ => 20 | .shr _ _ => 21 | .subn _ _ => 22 | .shl _ _ => 23
  | .sneReg _ _ => 24 | .ldI _ => 25 | .jpV0 _ => 26 | .rnd _ _ => 27 | .drwBig _ _ => 28 | .drw _ _ _ => 29
  | .skp _ => 30 | .sknp _ => 31 | .ldILong _ => 32 | .plane _ => 33 | .audio => 34 | .ldVxDt _ => 35
  | .ldVxKey _ => 36 | .ldDtVx _ => 37 | .ldStVx _ => 38 | .addI _ => 39 | .ldFont _ => 40 | .ldBigFont _ => 41
  | .bcd _ => 42 | .pitch _ => 43 | .storeRegs _ => 44 | .loadRegs _ => 45 | .saveFlags _ => 46 | .loadFlags _ => 47

/-- The row that the walk of R94 stops at: the first whose `(op AND mask) = match` holds, the row `Fn01` (33) with its extra
condition; `none` is an illegal word. -/
def walkRows (op : Word) : Option Nat :=
  match opcodeMap.findIdx? (fun r => op &&& r.1 == r.2) with
  | some 33 => if (xOf op).toNat ≤ 3 then some 33 else none
  | r => r

end Sys2Proof
end

