-- ==== Sys2Proof/Config.lean ====
section
/-! DEFINITION. What is fixed for one machine (the configuration record of R8 and the quirk table of R130, as types), what
the host drives (R290 to R296, as a type), and the free values: constants with no body, of which nothing can be proved. -/

namespace Sys2Proof

/-- The compatibility mode (R35). -/
inductive Mode where
  | unset | chip8 | superChip | xoChip
  deriving DecidableEq, Repr, Inhabited

/-- `CFG.forced_mode` (R8). -/
inductive ForcedMode where
  | auto | chip8 | superChip | xoChip
  deriving DecidableEq, Repr, Inhabited

/-- `CFG.limit_action` (R8, R285). -/
inductive LimitAction where
  | pause | exit
  deriving DecidableEq, Repr, Inhabited

/-- The quirk `shift_src`: the register that `8xy6` and `8xyE` shift (R130). -/
inductive ShiftSource where
  | vx | vy
  deriving DecidableEq, Repr, Inhabited

/-- The quirk `jump_reg`: the register that `Bnnn` adds, `V0` or `V[nnn[11:8]]` (R130). -/
inductive JumpReg where
  | v0 | vHigh
  deriving DecidableEq, Repr, Inhabited

/-- A target `CpuTick` rate: so many per second, or `Unbounded` (R8, R283). -/
inductive CpuRate where
  | hz (perSecond : Rat)
  | unbounded
  deriving DecidableEq, Repr

/-- One column of the quirk table: the six quirk values of one mode (R130). -/
structure QuirkRow where
  vfReset      : Bool
  shiftSrc     : ShiftSource
  jumpReg      : JumpReg
  memIncrement : Bool
  /-- `true` is clip, `false` is wrap. -/
  drawClip     : Bool
  cpuRate      : CpuRate
  deriving DecidableEq, Repr

/-- The whole quirk table, held as configuration (R130, treatment U10). -/
structure QuirkTable where
  unset     : QuirkRow
  chip8     : QuirkRow
  superChip : QuirkRow
  xoChip    : QuirkRow
  deriving DecidableEq, Repr

/-- The configuration record (R8). It is plain data and stands in `State`, written by reset only, so that every statement
about a state is a statement about every configuration. -/
structure Cfg where
  forcedMode      : ForcedMode
  speedMultiplier : Rat
  tickLimit       : Option Nat
  limitAction     : LimitAction
  diagByte        : Option Byte
  rom             : List Byte
  flagsInitial    : Option (Vector Byte 16)
  quirks          : QuirkTable
  fontBase        : Nat
  bigFontBase     : Nat
  fontData        : Vector Byte 80
  bigFontData     : Vector Byte 160
  patternReset    : Vector Byte 16
  sampleRate      : Rat
  ampHigh         : Byte
  ampLow          : Byte
  deriving DecidableEq, Repr

/-- What the host drives on its ports for one scheduler iteration (R290 to R296), the clock apart: the cancellation request, the
sixteen key levels, the audio headroom and the number of samples it cares to take. -/
structure HostInput where
  cancel   : Bool
  keys     : Vector Bool 16
  headroom : Nat
  accepted : Nat
  deriving DecidableEq, Repr, Inhabited

/-- What the host will drive in one iteration when that is given: its ports, and how far the clock has advanced since the last
reading, the fraction `elapsedNum / (elapsedDenPred + 1)` of a second (log entry 6). -/
structure GivenInput where
  input          : HostInput
  elapsedNum     : Nat
  elapsedDenPred : Nat
  deriving DecidableEq, Repr, Inhabited

/-- The clock port (R292): nondecreasing real readings, `advance 0` the first, taken at reset, and `advance (k + 1)` how far the
clock has moved from reading k to reading k + 1. A machine can only ask of them whether a time has been reached:
`reached ks q` says whether `q` is at most the sum of the advances numbered in `ks`. Every nondecreasing sequence of real
readings is one of these; the clock that stands at 0 is `still`. -/
inductive Clock where
  | still
  | real (reached : List Nat → Rat → Bool)
      (sound : ∃ advance : Nat → ℝ, (∀ k, 0 ≤ advance (k + 1)) ∧
        ∀ ks q, reached ks q = true ↔ (q : ℝ) ≤ (ks.map advance).sum)
  deriving Inhabited

/-- What the clock answers. -/
def Clock.reached : Clock → List Nat → Rat → Bool
  | .still, _, q => decide (q ≤ 0)
  | .real reached _, ks, q => reached ks q

/-- FREE VALUE. The byte that the n-th `Cxnn` of a run draws (R181, treatment U4; log entry 5). -/
opaque Config.randomByte : Nat → Byte

/-- FREE VALUE. What the host drives in the n-th iteration of a run whose inputs were not given in `State.feed` (R291, treatments
U11, U12; log entry 6). -/
opaque Config.hostInput : Nat → HostInput

/-- FREE VALUE. The clock of a run: any nondecreasing sequence of real readings (R284, R292, treatment U5; log entry 10). -/
opaque Config.clock : Clock

/-- PARAMETER with no default in the spec: `PATTERN_RESET` (R8, D3; log entry 8). -/
opaque Config.patternReset : Vector Byte 16

/-- PARAMETER with no default in the spec: `BIGFONT_DATA` (R8, D4; log entry 8). -/
opaque Config.bigFontData : Vector Byte 160

/-- PARAMETER with no default in the spec: `SAMPLE_RATE`, a positive rational whose numerator and denominator are
one more than the two numbers given here (R275; log entry 8). -/
opaque Config.sampleRateFraction : Nat × Nat

/-- PARAMETER with no default in the spec: `AMP_HIGH` (R275; log entry 8). -/
opaque Config.ampHigh : Byte

/-- PARAMETER with no default in the spec: how far `AMP_LOW` stands from `AMP_HIGH`, less one, modulo 255 (R275; log entry 8). -/
opaque Config.ampGap : Nat

end Sys2Proof
end

