-- ==== Sys2Proof/Machine/Defaults.lean ====
section
/-! DEFINITION. The configuration's lookups and its standard values: the quirk table (spec R130), the defaults of R8, the small
font of U9, the constraints of R8 on a configuration, and the reset contents of memory (R49, R331). -/

namespace Sys2Proof.Machine

/-- The quirk lookup `Q(mode)`: it reads the mode and nothing else (R130, R131). -/
def quirkRow (c : Cfg) : Mode → QuirkRow
  | .unset => c.quirks.unset
  | .chip8 => c.quirks.chip8
  | .superChip => c.quirks.superChip
  | .xoChip => c.quirks.xoChip

/-- The classic column of R130, with `RATE_CHIP8`. -/
def classicQuirks : QuirkRow :=
  { vfReset := true, shiftSrc := .vy, jumpReg := .v0, memIncrement := true, drawClip := true, cpuRate := .hz 500 }

/-- The SuperChip column of R130, with `RATE_SCHIP`. -/
def superChipQuirks : QuirkRow :=
  { vfReset := false, shiftSrc := .vx, jumpReg := .vHigh, memIncrement := false, drawClip := true, cpuRate := .hz 700 }

/-- The XoChip column of R130, with `RATE_XO`. -/
def xoChipQuirks : QuirkRow :=
  { vfReset := false, shiftSrc := .vy, jumpReg := .v0, memIncrement := true, drawClip := false, cpuRate := .unbounded }

/-- The quirk table with the spec's values; the column `Unset` equals the column `Chip8` (R130). -/
def standardQuirks : QuirkTable :=
  { unset := classicQuirks, chip8 := classicQuirks, superChip := superChipQuirks, xoChip := xoChipQuirks }

/-- `FONT_DATA`, the sixteen glyphs of five bytes (93_implementation_defined.md U9). -/
def standardFont : Vector Byte 80 :=
  (#v[0xF0, 0x90, 0x90, 0x90, 0xF0,  0x20, 0x60, 0x20, 0x20, 0x70,  0xF0, 0x10, 0xF0, 0x80, 0xF0,  0xF0, 0x10, 0xF0, 0x10, 0xF0] : Vector Byte 20) ++
  (#v[0x90, 0x90, 0xF0, 0x10, 0x10,  0xF0, 0x80, 0xF0, 0x10, 0xF0,  0xF0, 0x80, 0xF0, 0x90, 0xF0,  0xF0, 0x10, 0x20, 0x40, 0x40] : Vector Byte 20) ++
  (#v[0xF0, 0x90, 0xF0, 0x90, 0xF0,  0xF0, 0x90, 0xF0, 0x10, 0xF0,  0xF0, 0x90, 0xF0, 0x90, 0x90,  0xE0, 0x90, 0xE0, 0x90, 0xE0] : Vector Byte 20) ++
  (#v[0xF0, 0x80, 0x80, 0x80, 0xF0,  0xE0, 0x90, 0x90, 0x90, 0xE0,  0xF0, 0x80, 0xF0, 0x80, 0xF0,  0xF0, 0x80, 0xF0, 0x80, 0x80] : Vector Byte 20)

/-- The configuration with every default of R8; a parameter for which R8 gives none is a constant of `Config` with no body. -/
def defaultCfg : Cfg :=
  { forcedMode := .auto
    speedMultiplier := 1
    tickLimit := none
    limitAction := .pause
    diagByte := none
    rom := []
    flagsInitial := none
    quirks := standardQuirks
    fontBase := 0x050
    bigFontBase := 0x0A0
    fontData := standardFont
    bigFontData := Config.bigFontData
    patternReset := Config.patternReset
    sampleRate := mkRat (Config.sampleRateFraction.1 + 1) (Config.sampleRateFraction.2 + 1)
    ampHigh := Config.ampHigh
    ampLow := Config.ampHigh + 1 + BitVec.ofNat 8 (Config.ampGap % 255) }

/-- `ROM_MAX` (R7, R65). -/
def romMax : Nat := 0xDFF

/-- A target rate is positive (R8). -/
def ratePositive : CpuRate → Bool
  | .hz r => 0 < r
  | .unbounded => true

/-- The constraints R8 and R275 put on a configuration. The ROM's length is not among them: a longer one is the fault
`RomTooLarge` (R334). -/
def cfgValid (c : Cfg) : Bool :=
  decide (0 < c.speedMultiplier) && decide (0 < c.sampleRate) && decide (c.ampHigh ≠ c.ampLow) &&
  decide (c.tickLimit ≠ some 0) &&
  decide (c.fontBase + 80 ≤ 0x200) && decide (c.bigFontBase + 160 ≤ 0x200) &&
  (decide (c.fontBase + 80 ≤ c.bigFontBase) || decide (c.bigFontBase + 160 ≤ c.fontBase)) &&
  ratePositive c.quirks.unset.cpuRate && ratePositive c.quirks.chip8.cpuRate &&
  ratePositive c.quirks.superChip.cpuRate && ratePositive c.quirks.xoChip.cpuRate

/-- The reset contents of the reserved region: the fonts, then the diagnostic byte at 0x1FF, 0 elsewhere (R49, R331, R335,
R336). -/
def reservedByte (c : Cfg) (a : Nat) : Byte :=
  match c.diagByte with
  | some b => if a = 0x1FF then b else fontByte
  | none => fontByte
where
  /-- The byte the fonts put at `a`; `BIGFONT_DATA` is placed after `FONT_DATA` (R331). -/
  fontByte : Byte :=
    if c.bigFontBase ≤ a ∧ a < c.bigFontBase + 160 then c.bigFontData[a - c.bigFontBase]?.getD 0
    else if c.fontBase ≤ a ∧ a < c.fontBase + 80 then c.fontData[a - c.fontBase]?.getD 0
    else 0

/-- The reset contents of an address: what it reads as while nothing has been stored there (R49, R331). A ROM longer than
`ROM_MAX` is not copied (R334). -/
def resetByte (c : Cfg) (a : Nat) : Byte :=
  if a < 0x200 then reservedByte c a
  else if c.rom.length ≤ romMax then c.rom.getD (a - 0x200) 0
  else 0

/-- The mode reset gives (R35, R331). -/
def resetMode : ForcedMode → Mode
  | .auto => .unset
  | .chip8 => .chip8
  | .superChip => .superChip
  | .xoChip => .xoChip

end Sys2Proof.Machine
end

