-- ==== Sys2Proof/Machine/Reals.lean ====
section
/-! DEFINITION. The real numbers of the machine, exactly and as plain data: the seconds of the scheduler's registers (spec R45,
R292) and the phase and rate of the synthesizer (R42, R270). `Sys2Proof/Safety.lean` says which real number each one is. -/

namespace Sys2Proof.Machine

/-! ### Seconds: a rational and readings of the clock (R45, R292) -/

/-- A real number of seconds: the rational `given`, and for each number k in `clock` what the free clock advanced to its reading
k (`Config.clock`; log entries 9 and 10). -/
structure Seconds where
  given : Rat
  clock : List Nat
  deriving DecidableEq, Repr

/-- A rational number of seconds. -/
def Seconds.ofRat (q : Rat) : Seconds := { given := q, clock := [] }

/-- No time. -/
def Seconds.zero : Seconds := Seconds.ofRat 0

/-- What the free clock advanced to its reading `k`; for `k` = 0, the first reading itself (R292). -/
def Seconds.toReading (k : Nat) : Seconds := { given := 0, clock := [k] }

/-- The sum of two times. -/
def Seconds.add (d e : Seconds) : Seconds := { given := d.given + e.given, clock := d.clock ++ e.clock }

/-- Has a time of `q` seconds passed, `q ≤ d`? Where the clock is free, its oracle answers. -/
def Seconds.reaches (d : Seconds) (q : Rat) : Bool :=
  match d.clock with
  | [] => decide (q ≤ d.given)
  | ks => Config.clock.reached ks (q - d.given)

/-! ### Surds: exact arithmetic with the powers of `2^(1/4)` (R42, R270, R271) -/

/-- The real number `c0 + c1 * 2^(1/4) + c2 * 2^(1/2) + c3 * 2^(3/4)`. Every rate of R270 is one, and so is every phase: the
sampling rate is rational (R8), and these numbers are closed under what R271 does. -/
structure Surd where
  c0 : Rat
  c1 : Rat
  c2 : Rat
  c3 : Rat
  deriving DecidableEq, Repr

/-- A rational number. -/
def Surd.ofRat (q : Rat) : Surd := { c0 := q, c1 := 0, c2 := 0, c3 := 0 }

/-- Zero. -/
def Surd.zero : Surd := Surd.ofRat 0

/-- `q * 2^(j/4)`, for `j` = 0, 1, 2, 3. -/
def Surd.monomial (q : Rat) (j : Nat) : Surd :=
  { c0 := if j = 0 then q else 0, c1 := if j = 1 then q else 0, c2 := if j = 2 then q else 0, c3 := if j = 3 then q else 0 }

/-- The sum. -/
def Surd.add (x y : Surd) : Surd := { c0 := x.c0 + y.c0, c1 := x.c1 + y.c1, c2 := x.c2 + y.c2, c3 := x.c3 + y.c3 }

/-- The product with a rational. -/
def Surd.scale (q : Rat) (x : Surd) : Surd := { c0 := q * x.c0, c1 := q * x.c1, c2 := q * x.c2, c3 := q * x.c3 }

/-- `x - q` for a rational `q`. -/
def Surd.subRat (x : Surd) (q : Rat) : Surd := { x with c0 := x.c0 - q }

/-- Is `a + b * 2^(1/2)` at least 0? The squares decide. -/
def rootTwoNonneg (a b : Rat) : Bool :=
  if 0 ≤ b then decide (0 ≤ a) || decide (a * a ≤ 2 * (b * b))
  else decide (0 ≤ a) && decide (2 * (b * b) ≤ a * a)

/-- Is `x` at least 0? With `x = A + B * 2^(1/4)`, `A` and `B` rational in `2^(1/2)`, the squares `A^2` and `B^2 * 2^(1/2)` decide. -/
def Surd.nonneg (x : Surd) : Bool :=
  let p := 4 * (x.c1 * x.c3) - x.c0 * x.c0 - 2 * (x.c2 * x.c2)
  let q := x.c1 * x.c1 + 2 * (x.c3 * x.c3) - 2 * (x.c0 * x.c2)
  if rootTwoNonneg x.c1 x.c3 then rootTwoNonneg x.c0 x.c2 || rootTwoNonneg p q
  else rootTwoNonneg x.c0 x.c2 && rootTwoNonneg (-p) (-q)

/-- The greatest integer below `lo + 2^n` that is at most `x`, if `lo` is: one bit at a time. -/
def Surd.floorBelow (x : Surd) : Nat → Int → Int
  | 0, lo => lo
  | n + 1, lo => x.floorBelow n (if (x.subRat ((lo + 2 ^ n : Int) : Rat)).nonneg then lo + 2 ^ n else lo)

/-- A rational's distance from 0. -/
def absRat (q : Rat) : Rat := if q < 0 then -q else q

/-- A natural number above `x` and above `-x`: each power of `2^(1/4)` in it is below 2. -/
def Surd.size (x : Surd) : Nat := (absRat x.c0 + 2 * (absRat x.c1 + absRat x.c2 + absRat x.c3)).floor.toNat + 1

/-- How many bits that number has. -/
def Surd.sizeBits (x : Surd) : Nat := x.size.log2 + 1

/-- `floor(x)` (R271). -/
def Surd.floor (x : Surd) : Int := x.floorBelow (x.sizeBits + 1) (-(2 ^ x.sizeBits))

/-- `x mod 128` (R271). -/
def Surd.mod128 (x : Surd) : Surd := x.subRat ((128 * (Surd.scale (1 / 128) x).floor : Int) : Rat)

end Sys2Proof.Machine
end

