-- ==== Sys2Proof/Machine/State.lean ====
section
/-! DEFINITION. The machine's state as plain data (spec R20 and R49, one field per item), the fault records of R300, the
reasons a step can stop, and the state after reset (R331). -/

namespace Sys2Proof.Machine

/-- Main memory: the listed bytes, addresses rising; an address not listed holds its reset contents, `resetByte` (R26, R49). -/
abbrev Memory := List Host.Cell

/-- A display plane: 64 rows of 128 one-bit cells, the cell of row `py` and column `px` being bit `px` of row `py` (R37, R220). -/
abbrev Plane := Vector (BitVec 128) 64

/-- A frame: 64 rows of 128 palette indices (R236, R293). -/
abbrev Frame := Vector (Vector (BitVec 2) 128) 64

/-- The kind of access a `MemoryAccessFault` records (R300, R301). -/
inductive AccessKind where
  | fetch | read | write
  deriving DecidableEq, Repr

/-- A fault record: the name and the information of R300. -/
inductive FaultRecord where
  /-- Code 1 (R301): `addr` is the address of the byte that failed. -/
  | memoryAccess (addr : Nat) (kind : AccessKind)
  /-- Code 2 (R302): no encoding raises it. -/
  | registerIndex (index : Nat)
  /-- Code 3 (R303). -/
  | stackOverflow (a : Word)
  /-- Code 4 (R304). -/
  | stackUnderflow (a : Word)
  /-- Code 5 (R305). -/
  | unknownOpcode (op : Word)
  /-- Code 6 (R308): only reset raises it. -/
  | romTooLarge (len : Nat)
  /-- Code 7 (R309). -/
  | operandRange (a : Word) (value : Byte)
  deriving DecidableEq, Repr

/-- The engine's state (R43). -/
inductive CpuState where
  | running
  | awaitingKey (waitReg : Nibble) (waitKey : Option Nibble)
  deriving DecidableEq, Repr

/-- The run state (R46, R281). -/
inductive RunState where
  | active | paused | exited | faulted
  deriving DecidableEq, Repr

/-- Which agent takes the next step (R12, R282): the scheduler at the top of an iteration, where the host's inputs are sampled,
the Instruction Engine, the Timer Unit, or the presenter. The model's own field (log entry 2). -/
inductive Turn where
  | top | cpu | timer | present
  deriving DecidableEq, Repr

/-- A sample format of the audio port: the one the machine opens it with (R294). -/
inductive SampleFormat where
  | unsigned8Mono
  deriving DecidableEq, Repr

/-- The output `open(sampleRate, format)` on the audio port (R294). -/
structure AudioOpening where
  sampleRate : Rat
  format     : SampleFormat
  deriving DecidableEq, Repr

/-- What the output ports last carried, and how often (R293 to R295). The model's own record of the outputs (log entry 12). -/
structure OutPorts where
  /-- What the host was told on the audio port at reset (R294). -/
  audioOpen : Option AudioOpening
  /-- The frame last put on the frame port (R293). -/
  frame     : Option Frame
  frames    : Nat
  /-- The sample bytes last delivered on the audio port (R294). -/
  samples   : List Byte
  blocks    : Nat
  /-- The 16 bytes last handed to the flag port by `FlagSave` (R295). -/
  flagSave  : Option (Vector Byte 16)
  flagSaves : Nat
  deriving DecidableEq, Repr

/-- The whole state. The fields down to `fault` are the items of R20; the fields after it are the model's own. -/
structure State where
  /-- `V[0..15]` (R21). -/
  v          : Vector Byte 16
  /-- `I` (R23). -/
  regI       : Word
  /-- `PC` (R24). -/
  pc         : Word
  /-- `stack[0..15]` (R27). -/
  stack      : Vector Word 16
  /-- `SP`, the number of entries in use, 0 to 16 (R28). -/
  sp         : Fin 17
  /-- `mem[0..4095]` (R26). -/
  mem        : Memory
  /-- `keys[0..15]` (R33). -/
  keys       : Vector Bool 16
  /-- `delay` (R34). -/
  delay      : Byte
  /-- `sound` (R34). -/
  sound      : Byte
  /-- `mode` (R35). -/
  mode       : Mode
  /-- `mode_forced` (R36). -/
  modeForced : Bool
  /-- `plane[0]` (R37). -/
  plane0     : Plane
  /-- `plane[1]` (R37). -/
  plane1     : Plane
  /-- `planes_sel` (R38). -/
  planesSel  : BitVec 2
  /-- `hires` (R39). -/
  hires      : Bool
  /-- `pattern[0..15]` (R40). -/
  pattern    : Vector Byte 16
  /-- `pitch` (R41). -/
  pitch      : Byte
  /-- `phase` (R42), a real number, held exactly (log entry 7). -/
  phase      : Surd
  /-- `cpu_state` (R43). -/
  cpuState   : CpuState
  /-- `flags[0..15]` (R44). -/
  flags      : Vector Byte 16
  /-- `acc_cpu` (R45), a real number of seconds, held exactly (log entry 9). -/
  accCpu     : Seconds
  /-- `acc_timer` (R45), likewise. -/
  accTimer   : Seconds
  /-- `acc_present` (R45), likewise. -/
  accPresent : Seconds
  /-- `last_now` (R45), likewise: the clock's previous reading. -/
  lastNow    : Seconds
  /-- `cpu_ticks` (R45). -/
  cpuTicks   : Nat
  /-- `run_state` (R46). -/
  runState   : RunState
  /-- `fault` (R47). -/
  fault      : Option FaultRecord
  /-- The configuration record `CFG` of R8, which no step changes (log entry 3). -/
  cfg        : Cfg
  /-- The agent that steps next (log entry 2). -/
  turn       : Turn
  /-- How many random bytes have been drawn (R181; log entry 5). -/
  draws      : Nat
  /-- How many iterations have taken the host's inputs (log entry 6). -/
  inputsRead : Nat
  /-- What the host will drive in the coming iterations; when it is empty the inputs are free values (log entry 6). -/
  feed       : List GivenInput
  /-- What the host drives in this iteration (R290). -/
  port       : HostInput
  /-- What the output ports carried (R290; log entry 12). -/
  out        : OutPorts
  deriving DecidableEq, Repr

/-- Why a step stops. No step raises one on its way: taking a fault of R300 is a next state (R306, log entry 1), and these
are the two run states in which nothing steps any more (R281, R307). -/
inductive Fault where
  /-- Raised by `step` when `run_state` is `Faulted`: a fault of R300 was taken and no unit steps again (R306). Safe: the
  hardware does not go on either. -/
  | faulted (record : Option FaultRecord)
  /-- Raised by `step` when `run_state` is `Exited`: the run has ended cleanly (R281, R314). Safe: the hardware does not go on
  either. -/
  | exited
  deriving DecidableEq, Repr

/-- Why the model gives no answer. -/
inductive Refusal where
  /-- Raised by `exec`'s arm of an instruction that has no meaning yet; no arm of this model does. Safe: nothing can be proved
  of the instruction. -/
  | notModelled (mnemonic : String)
  deriving DecidableEq, Repr

/-- What a step or an instruction answers. -/
abbrev Result := Host.Outcome State Fault Refusal

/-- A host that drives nothing: no request, no key, no room for samples. -/
def quietInput : HostInput :=
  { cancel := false, keys := Vector.replicate 16 false, headroom := 0, accepted := 0 }

/-- The state after `Init` with configuration `c` (R49, R331). The clock is read once, for `last_now` (R45, R292), and the host is
told the sampling rate and the sample format (R294). A ROM that is too long leaves the machine faulted (R334). -/
def State.init (c : Cfg) : State :=
  { v := Vector.replicate 16 0
    regI := 0
    pc := 0x200
    stack := Vector.replicate 16 0
    sp := 0
    mem := []
    keys := Vector.replicate 16 false
    delay := 0
    sound := 0
    mode := resetMode c.forcedMode
    modeForced := c.forcedMode != .auto
    plane0 := Vector.replicate 64 0
    plane1 := Vector.replicate 64 0
    planesSel := 1
    hires := false
    pattern := c.patternReset
    pitch := 64
    phase := .zero
    cpuState := .running
    flags := c.flagsInitial.getD (Vector.replicate 16 0)
    accCpu := .zero
    accTimer := .zero
    accPresent := .zero
    lastNow := .toReading 0
    cpuTicks := 0
    runState := if c.rom.length ≤ romMax then .active else .faulted
    fault := if c.rom.length ≤ romMax then none else some (.romTooLarge c.rom.length)
    cfg := c
    turn := .top
    draws := 0
    inputsRead := 0
    feed := []
    port := quietInput
    out := { audioOpen := some { sampleRate := c.sampleRate, format := .unsigned8Mono }, frame := none, frames := 0, samples := [], blocks := 0, flagSave := none, flagSaves := 0 } }

/-- The machine right after reset with every default of R8: no program is loaded (log entry 4). -/
def State.reset : State := State.init defaultCfg

end Sys2Proof.Machine
end

