-- ==== Sys2Proof/Machine/Ops.lean ====
section
/-! DEFINITION. The named operations over memory and registers (spec R21 to R41, R60 to R78), taking a fault (R306), promotion
(R123), the program counter's advance (R124) and the skip helper (R150). -/

namespace Sys2Proof.Machine

/-! ### Memory, unchecked (R64) -/

/-- The byte a memory holds at an address; an address not listed holds its reset contents (R26, R49). -/
def Memory.get (c : Cfg) : Memory → Nat → Byte
  | [], a => resetByte c a
  | (k, b) :: m, a => if a = k then b else Memory.get c m a

/-- Put a byte at an address, keeping the canonical form: addresses rising, no entry equal to the reset contents. -/
def Memory.put (c : Cfg) : Memory → Nat → Byte → Memory
  | [], a, b => if b = resetByte c a then [] else [(a, b)]
  | (k, v) :: m, a, b =>
    if a < k then (if b = resetByte c a then (k, v) :: m else (a, b) :: (k, v) :: m)
    else if a = k then (if b = resetByte c a then m else (a, b) :: m)
    else (k, v) :: Memory.put c m a b

/-- The canonical form: addresses strictly rising, and no entry equal to what an unlisted address reads as. -/
abbrev Memory.wf (c : Cfg) (m : Memory) : Prop :=
  m.Pairwise (fun p q => p.1 < q.1) ∧ ∀ p ∈ m, p.2 ≠ resetByte c p.1

/-- The byte at an address, without the bus's check. -/
def State.byteAt (s : State) (a : Nat) : Byte := Memory.get s.cfg s.mem a

/-- Put a byte without the bus's check. No instruction does (R64). -/
def State.poke (s : State) (a : Nat) (b : Byte) : State := { s with mem := Memory.put s.cfg s.mem a b }

/-! ### The Memory Bus (R61 to R63) -/

/-- The bus answers at program space only: not at `addr ≤ 0x1FF`, not at `addr ≥ 4096` (R61, R62). -/
def busAllows (a : Nat) : Bool := decide (0x200 ≤ a) && decide (a < 0x1000)

/-- `MemRead(addr, 1)`; `none` is the fault (R62). -/
def State.busRead (s : State) (a : Nat) : Option Byte := if busAllows a then some (s.byteAt a) else none

/-- `MemWrite(addr, 1, v)`; `none` is the fault, and then memory is unchanged (R63). -/
def State.busWrite (s : State) (a : Nat) (b : Byte) : Option State := if busAllows a then some (s.poke a b) else none

/-- Read `n` bytes from `a` upward; an error is the address of the first byte refused (R71, R72). -/
def State.readBytes (s : State) : Nat → Nat → Except Nat (List Byte)
  | _, 0 => .ok []
  | a, n + 1 =>
    match s.busRead a with
    | none => .error a
    | some b =>
      match s.readBytes (a + 1) n with
      | .error e => .error e
      | .ok bs => .ok (b :: bs)

/-- `MemRead(addr, 2)`: the byte at the lower address first, holding bits 15 to 8 (R66). -/
def State.readWord (s : State) (a : Nat) : Except Nat Word :=
  match s.busRead a with
  | none => .error a
  | some hi =>
    match s.busRead (a + 1) with
    | none => .error (a + 1)
    | some lo => .ok (hi ++ lo)

/-- Store bytes from `a` upward, one at a time; at the first address refused, the state with the earlier bytes stored and that
address (R72). -/
def State.storeBytes (s : State) : Nat → List Byte → State × Option Nat
  | _, [] => (s, none)
  | a, b :: bs =>
    match s.busWrite a b with
    | none => (s, some a)
    | some t => t.storeBytes (a + 1) bs

/-! ### Registers (R21 to R41) -/

/-- `V[x]` (R21). -/
def State.getV (s : State) (x : Nibble) : Byte := s.v[x.toNat]'x.isLt

/-- `V[x] <- b` (R21). -/
def State.setV (s : State) (x : Nibble) (b : Byte) : State := { s with v := s.v.set x.toNat b x.isLt }

/-- All sixteen registers at once. -/
def State.setAllV (s : State) (v : Vector Byte 16) : State := { s with v := v }

/-- `I <- w` (R23). -/
def State.setI (s : State) (w : Word) : State := { s with regI := w }

/-- `PC <- w` (R24). -/
def State.setPc (s : State) (w : Word) : State := { s with pc := w }

/-- The generic advance: `PC <- PC + 2`, modulo 65536 (R25, R124). -/
def State.advance (s : State) : State := s.setPc (s.pc + 2)

/-- `delay <- b` (R34). -/
def State.setDelay (s : State) (b : Byte) : State := { s with delay := b }

/-- `sound <- b` (R34). -/
def State.setSound (s : State) (b : Byte) : State := { s with sound := b }

/-- Both planes at once (R37). -/
def State.setPlanes (s : State) (p0 p1 : Plane) : State := { s with plane0 := p0, plane1 := p1 }

/-- `planes_sel <- m` (R38). -/
def State.setPlanesSel (s : State) (m : BitVec 2) : State := { s with planesSel := m }

/-- `hires <- b` (R39). -/
def State.setHires (s : State) (b : Bool) : State := { s with hires := b }

/-- `pattern` as a whole, `setPattern` (R268). -/
def State.setPattern (s : State) (p : Vector Byte 16) : State := { s with pattern := p }

/-- `pitch <- b`, `setPlaybackRate` (R269). -/
def State.setPitch (s : State) (b : Byte) : State := { s with pitch := b }

/-- `cpu_state <- c` (R43). -/
def State.setCpuState (s : State) (c : CpuState) : State := { s with cpuState := c }

/-- `flags` as a whole (R44). -/
def State.setFlags (s : State) (f : Vector Byte 16) : State := { s with flags := f }

/-- `FlagSave(flags[0..15])`: all 16 bytes go to the flag port, once (R208, R295). -/
def State.flagSave (s : State) : State :=
  { s with out := { s.out with flagSave := some s.flags, flagSaves := s.out.flagSaves + 1 } }

/-- The random byte that the next `draw()` returns: a free value (R181). -/
def State.randomByte (s : State) : Byte := Config.randomByte s.draws

/-- Count a `draw()`, so that the next one is another free value (R181). -/
def State.countDraw (s : State) : State := { s with draws := s.draws + 1 }

/-! ### The return stack (R27 to R32) -/

/-- `Push(w)`; `none` is `StackOverflow`, and then nothing changes (R31). -/
def State.push (s : State) (w : Word) : Option State :=
  if h : s.sp.val < 16 then
    some { s with stack := s.stack.set s.sp.val w h, sp := ⟨s.sp.val + 1, by omega⟩ }
  else none

/-- `Pop()`: the top entry and the state without it; the entry keeps its value (R30). `none` is `StackUnderflow` (R32). -/
def State.pop (s : State) : Option (Word × State) :=
  if h : s.sp.val = 0 then none
  else
    have hlt : s.sp.val - 1 < 16 := by omega
    some (s.stack[s.sp.val - 1], { s with sp := ⟨s.sp.val - 1, by omega⟩ })

/-! ### Taking a fault (R306), and the run state it ends in -/

/-- The code of a fault (R300). -/
def faultCode : FaultRecord → Nat
  | .memoryAccess _ _ => 1
  | .registerIndex _ => 2
  | .stackOverflow _ => 3
  | .stackUnderflow _ => 4
  | .unknownOpcode _ => 5
  | .romTooLarge _ => 6
  | .operandRange _ _ => 7

/-- Fault entry: the record is written, `PC` is the address `a` of the faulting instruction, and the run is `Faulted`; what the
instruction wrote before stays (R306). There is no return from it (R307). -/
def State.takeFault (s : State) (a : Word) (f : FaultRecord) : State :=
  { s with fault := some f, pc := a, runState := .faulted }

/-- The faulting instruction's answer: a next state, in which the fault of the instruction at `PC` has been taken. -/
def State.trap (s : State) (f : FaultRecord) : Result := .next (s.takeFault s.pc f)

/-! ### The compatibility mode (R35, R123) -/

/-- The order `Unset < Chip8 < SuperChip < XoChip` (R35). -/
def modeRank : Mode → Nat
  | .unset => 0
  | .chip8 => 1
  | .superChip => 2
  | .xoChip => 3

/-- The mode a class of row asks for at least; a base row asks for none (R107, R123). -/
def genMode : Gen → Mode
  | .base => .unset
  | .superChip => .superChip
  | .xoChip => .xoChip

/-- `Promote(gen)` on the mode (R123). -/
def promoteMode (forced : Bool) (g : Gen) (m : Mode) : Mode :=
  if forced then m else if modeRank m < modeRank (genMode g) then genMode g else m

/-- `Promote(gen)` (R123). -/
def State.promote (s : State) (g : Gen) : State := { s with mode := promoteMode s.modeForced g s.mode }

/-- The quirks of the mode as it stands (R131). -/
def State.quirk (s : State) : QuirkRow := quirkRow s.cfg s.mode

/-! ### Skips (R150) -/

/-- A conditional skip: `Skip()` when the condition holds, else the generic advance. `Skip()` probes the word after the
instruction through the bus and passes over 4 bytes when that word is 0xF000, over 2 otherwise (R150). -/
def State.skipIf (s : State) (c : Bool) : Result :=
  if c then
    match s.readWord (s.pc.toNat + 2) with
    | .error a => s.trap (.memoryAccess a .read)
    | .ok w => .next (s.setPc (s.pc + (if w = 0xF000 then 6 else 4)))
  else .next s.advance

end Sys2Proof.Machine
end

