-- ==== Sys2Proof/Machine/Flags.lean ====
section
/-! DEFINITION. The one flag, `VF` (spec R22): every flag computation, and the order of the writes of a flag-writing
instruction (R183). -/

namespace Sys2Proof.Machine

/-- A flag as the byte `VF` receives, 0x00 or 0x01 (R22). -/
def flagByte (b : Bool) : Byte := if b then 1 else 0

/-- The register that holds the flag, `VF` (R22). -/
def flagReg : Nibble := 0xF

/-- The carry of `8xy4`: the sum exceeds 0xFF (R176). -/
def carryFlag (a b : Byte) : Bool := decide (a.toNat + b.toNat > 0xFF)

/-- The flag of `8xy5` and `8xy7`, minuend first: no borrow occurred (R184). -/
def noBorrowFlag (m s : Byte) : Bool := decide (s.toNat ≤ m.toNat)

/-- The flag of `8xy6`: the bit shifted out to the right (R178). -/
def shrFlag (a : Byte) : Bool := a.getLsbD 0

/-- The flag of `8xyE`: the bit shifted out to the left (R180). -/
def shlFlag (a : Byte) : Bool := a.getLsbD 7

/-- `VF <- flag` (R22). -/
def State.setFlag (s : State) (b : Bool) : State := s.setV flagReg (flagByte b)

/-- The writes of a flag-writing instruction: the result to `V[x]` first, the flag to `VF` last (R183). -/
def State.setWithFlag (s : State) (x : Nibble) (result : Byte) (b : Bool) : State := (s.setV x result).setFlag b

/-- The writes of `8xy1`, `8xy2`, `8xy3`: the result, then `VF <- 0` where the quirk `vf_reset` holds (R173). -/
def State.setBitwise (s : State) (x : Nibble) (result : Byte) : State :=
  if s.quirk.vfReset then s.setWithFlag x result false else s.setV x result

end Sys2Proof.Machine
end

