-- ==== Sys2Proof/Machine/Operands.lean ====
section
/-! DEFINITION. The operand forms: registers chosen by a quirk, key numbers and digits taken from a register, font addresses,
and the effective address `I + k` (spec R71, R92, R93, R130, R210). -/

namespace Sys2Proof.Machine

/-- The value that `8xy6` and `8xyE` shift: `V[y]` or `V[x]` by the quirk `shift_src` (R178, R180). -/
def State.shiftOperand (s : State) (x y : Nibble) : Byte :=
  match s.quirk.shiftSrc with
  | .vy => s.getV y
  | .vx => s.getV x

/-- The register that `Bnnn` adds, by the quirk `jump_reg`: `V0`, or the register named by the high nibble of `nnn` (R154). -/
def State.jumpRegister (s : State) (nnn : Imm12) : Nibble :=
  match s.quirk.jumpReg with
  | .v0 => 0
  | .vHigh => nnn.extractLsb' 8 4

/-- The byte of `V[x]` as a key number or a digit; above 15 it names none (R159, R203, R309). -/
def State.digit (s : State) (x : Nibble) : Option Nibble :=
  if (s.getV x).toNat ≤ 15 then some ((s.getV x).setWidth 4) else none

/-- Is the key held (R33)? -/
def State.keyHeld (s : State) (k : Nibble) : Bool := s.keys[k.toNat]'k.isLt

/-- The address of a small glyph, `FONT_BASE + 5 * d` (R203). -/
def fontAddress (c : Cfg) (d : Nibble) : Word := BitVec.ofNat 16 (c.fontBase + 5 * d.toNat)

/-- The address of a big glyph, `BIGFONT_BASE + 10 * d` (R204). -/
def bigFontAddress (c : Cfg) (d : Nibble) : Word := BitVec.ofNat 16 (c.bigFontBase + 10 * d.toNat)

/-- The base of a block in memory, `I` as a natural number: `I + k` does not wrap (R71, R210). -/
def State.base (s : State) : Nat := s.regI.toNat

/-- `I` after `Fx55` and `Fx65`: `I + x + 1` modulo 65536 where the quirk `mem_increment` holds (R206, R207). -/
def State.incrementI (s : State) (x : Nibble) : State :=
  if s.quirk.memIncrement then s.setI (s.regI + x.setWidth 16 + 1) else s

end Sys2Proof.Machine
end

