-- ==== Sys2Proof/Machine/Alu.lean ====
section
/-! DEFINITION. The register load, ALU and random instructions (spec 42_load_alu.md). -/

namespace Sys2Proof.Machine

/-- `6xnn` LD Vx, nn (R170). -/
def execLdImm (x : Nibble) (nn : Byte) (s : State) : Result := .next (s.setV x nn).advance

/-- `7xnn` ADD Vx, nn: no flag (R171). -/
def execAddImm (x : Nibble) (nn : Byte) (s : State) : Result := .next (s.setV x (s.getV x + nn)).advance

/-- `8xy0` LD Vx, Vy (R172). -/
def execLdReg (x y : Nibble) (s : State) : Result := .next (s.setV x (s.getV y)).advance

/-- `8xy1` OR Vx, Vy (R173). -/
def execOrReg (x y : Nibble) (s : State) : Result := .next (s.setBitwise x (s.getV x ||| s.getV y)).advance

/-- `8xy2` AND Vx, Vy (R174). -/
def execAndReg (x y : Nibble) (s : State) : Result := .next (s.setBitwise x (s.getV x &&& s.getV y)).advance

/-- `8xy3` XOR Vx, Vy (R175). -/
def execXorReg (x y : Nibble) (s : State) : Result := .next (s.setBitwise x (s.getV x ^^^ s.getV y)).advance

/-- `8xy4` ADD Vx, Vy (R176). -/
def execAddReg (x y : Nibble) (s : State) : Result :=
  .next (s.setWithFlag x (s.getV x + s.getV y) (carryFlag (s.getV x) (s.getV y))).advance

/-- `8xy5` SUB Vx, Vy (R177). -/
def execSubReg (x y : Nibble) (s : State) : Result :=
  .next (s.setWithFlag x (s.getV x - s.getV y) (noBorrowFlag (s.getV x) (s.getV y))).advance

/-- `8xy6` SHR Vx, Vy (R178). -/
def execShr (x y : Nibble) (s : State) : Result :=
  .next (s.setWithFlag x (s.shiftOperand x y >>> 1) (shrFlag (s.shiftOperand x y))).advance

/-- `8xy7` SUBN Vx, Vy (R179). -/
def execSubn (x y : Nibble) (s : State) : Result :=
  .next (s.setWithFlag x (s.getV y - s.getV x) (noBorrowFlag (s.getV y) (s.getV x))).advance

/-- `8xyE` SHL Vx, Vy (R180). -/
def execShl (x y : Nibble) (s : State) : Result :=
  .next (s.setWithFlag x (s.shiftOperand x y <<< 1) (shlFlag (s.shiftOperand x y))).advance

/-- `Cxnn` RND Vx, nn (R181). -/
def execRnd (x : Nibble) (nn : Byte) (s : State) : Result :=
  .next (s.countDraw.setV x (s.randomByte &&& nn)).advance

end Sys2Proof.Machine
end

