-- ==== Sys2Proof/Machine/Audio.lean ====
section
/-! DEFINITION. The audio pattern synthesizer and the audio instructions (spec 46_audio.md). -/

namespace Sys2Proof.Machine

/-- Sixteen bytes from a list. -/
def sixteen (bytes : List Byte) : Vector Byte 16 := Vector.ofFn fun k => bytes.getD k.val 0

/-- `F002` AUDIO: all 16 bytes are read before the pattern is written; class X (R265). -/
def execAudio (s : State) : Result :=
  match s.readBytes s.base 16 with
  | .error a => (s.promote .xoChip).trap (.memoryAccess a .read)
  | .ok bytes => .next ((s.promote .xoChip).setPattern (sixteen bytes)).advance

/-- `Fx3A` PITCH Vx: class X (R266). -/
def execPitch (x : Nibble) (s : State) : Result := .next ((s.promote .xoChip).setPitch (s.getV x)).advance

/-- `rate(pitch)`, in pattern bits per second: `4000 * 2^((pitch - 64) / 4)`, the exponent a real number (R270). -/
def playbackRate (p : Byte) : Surd := Surd.monomial (4000 * 2 ^ (p.toNat / 4) / 2 ^ 16) (p.toNat % 4)

/-- `PatternBit(b)`: byte 0 first, bit 7 first (R272). -/
def patternBit (p : Vector Byte 16) (b : Nat) : Bool := (p[b / 8]?.getD 0).getLsbD (7 - b % 8)

/-- How far the phase moves with one sample, `rate(pitch) / SAMPLE_RATE` (R271). -/
def State.phaseStep (s : State) : Surd := Surd.scale (1 / s.cfg.sampleRate) (playbackRate s.pitch)

/-- The pattern bit that a phase stands at, `floor(phase) mod 128` (R271). -/
def bitAt (phase : Surd) : Nat := (phase.floor % 128).toNat

/-- `generate(n)`: the samples and the phase after them (R271). -/
def State.generate (s : State) : Nat → Surd → List Byte × Surd
  | 0, phase => ([], phase)
  | n + 1, phase =>
    let sample := if patternBit s.pattern (bitAt phase) then s.cfg.ampHigh else s.cfg.ampLow
    let r := s.generate n (phase.add s.phaseStep).mod128
    (sample :: r.1, r.2)

/-- `SAMPLES_PER_FRAME`, `floor(SAMPLE_RATE / 60)` (R273). -/
def samplesPerFrame (c : Cfg) : Nat := (c.sampleRate / 60).floor.toNat

/-- The audio step: while `sound > 0` a block is generated, the phase moves by the whole block, and the port receives as many
samples as the host takes of those it has room for (R273, R274). -/
def State.audioStep (s : State) : State :=
  if s.sound = 0 then s
  else
    let n := samplesPerFrame s.cfg
    let r := s.generate n s.phase
    let m := min s.port.accepted (min n s.port.headroom)
    { s with phase := r.2, out := { s.out with samples := r.1.take m, blocks := s.out.blocks + 1 } }

end Sys2Proof.Machine
end

