-- ==== Sys2Proof/Machine/Control.lean ====
section
/-! DEFINITION. The control transfer instructions (spec 41_control_flow.md). -/

namespace Sys2Proof.Machine

/-- `00EE` RET (R151). -/
def execRet (s : State) : Result :=
  match s.pop with
  | none => s.trap (.stackUnderflow s.pc)
  | some (w, t) => .next (t.setPc w)

/-- `1nnn` JP nnn (R152). -/
def execJp (nnn : Imm12) (s : State) : Result := .next (s.setPc (nnn.setWidth 16))

/-- `2nnn` CALL nnn: the return address is that of the next instruction (R153). -/
def execCall (nnn : Imm12) (s : State) : Result :=
  match s.push (s.pc + 2) with
  | none => s.trap (.stackOverflow s.pc)
  | some t => .next (t.setPc (nnn.setWidth 16))

/-- `Bnnn` JP V0, nnn (R154). -/
def execJpV0 (nnn : Imm12) (s : State) : Result :=
  .next (s.setPc (nnn.setWidth 16 + (s.getV (s.jumpRegister nnn)).setWidth 16))

/-- `3xnn` SE Vx, nn (R155). -/
def execSeImm (x : Nibble) (nn : Byte) (s : State) : Result := s.skipIf (s.getV x == nn)

/-- `4xnn` SNE Vx, nn (R156). -/
def execSneImm (x : Nibble) (nn : Byte) (s : State) : Result := s.skipIf (s.getV x != nn)

/-- `5xy0` SE Vx, Vy (R157). -/
def execSeReg (x y : Nibble) (s : State) : Result := s.skipIf (s.getV x == s.getV y)

/-- `9xy0` SNE Vx, Vy (R158). -/
def execSneReg (x y : Nibble) (s : State) : Result := s.skipIf (s.getV x != s.getV y)

/-- `Ex9E` SKP Vx (R159). -/
def execSkp (x : Nibble) (s : State) : Result :=
  match s.digit x with
  | none => s.trap (.operandRange s.pc (s.getV x))
  | some k => s.skipIf (s.keyHeld k)

/-- `ExA1` SKNP Vx (R160). -/
def execSknp (x : Nibble) (s : State) : Result :=
  match s.digit x with
  | none => s.trap (.operandRange s.pc (s.getV x))
  | some k => s.skipIf (!s.keyHeld k)

end Sys2Proof.Machine
end

