-- ==== Sys2Proof/Machine/Display.lean ====
section
/-! DEFINITION. The display compositor and the display instructions (spec 44_display.md). -/

namespace Sys2Proof.Machine

/-! ### Geometry (R220 to R222) -/

/-- The cell of row `py` and column `px`; outside the grid there is none lit (R220). -/
def Plane.lit (p : Plane) (py px : Nat) : Bool := (p[py]?.getD 0).getLsbD px

/-- The cell of row `py` and column `px` inverted. -/
def Plane.flip (p : Plane) (py px : Nat) : Plane :=
  if h : py < 64 then p.set py (p[py] ^^^ (1#128 <<< px)) else p

/-- The pixel-doubling factor `s` (R221). -/
def State.scale (s : State) : Nat := if s.hires then 1 else 2

/-- The logical width `W` (R221). -/
def State.width (s : State) : Nat := 128 / s.scale

/-- The logical height `H` (R221). -/
def State.height (s : State) : Nat := 64 / s.scale

/-- Apply an operation to the selected planes; an unselected plane is untouched (R222). -/
def State.onSelected (s : State) (f : Plane → Plane) : State :=
  s.setPlanes (if s.planesSel.getLsbD 0 then f s.plane0 else s.plane0)
    (if s.planesSel.getLsbD 1 then f s.plane1 else s.plane1)

/-! ### Clear and scroll (R223, R224) -/

/-- A plane with no cell lit. -/
def blankPlane : Plane := Vector.replicate 64 0

/-- The four directions of a scroll (R224). -/
inductive Direction where
  | down | up | right | left
  deriving DecidableEq, Repr

/-- `scroll` by `d` physical cells: what passes an edge is lost, what is vacated is 0 (R224). Columns are bits, so a scroll to
the right moves each row's bits up. -/
def Plane.scroll (dir : Direction) (d : Nat) (p : Plane) : Plane :=
  Vector.ofFn fun py =>
    match dir with
    | .down => if d ≤ py.val then p[py.val - d] else 0
    | .up => if h : py.val + d ≤ 63 then p[py.val + d] else 0
    | .right => p[py] <<< d
    | .left => p[py] >>> d

/-- A scroll of the selected planes by `n` logical pixels (R224). -/
def State.scroll (s : State) (dir : Direction) (n : Nat) : State := s.onSelected (Plane.scroll dir (n * s.scale))

/-! ### Sprites (R231 to R234) -/

/-- The pixel of row `r`, column `c` of a sprite of `cols` columns: bytes row by row, bit 7 leftmost (R231). -/
def spriteBit (bytes : List Byte) (cols r c : Nat) : Bool :=
  (bytes.getD (r * (cols / 8) + c / 8) 0).getLsbD (7 - c % 8)

/-- The physical cells (row, column) of a logical pixel: a block of `s` by `s` (R221). -/
def blockCells (s lx ly : Nat) : List (Nat × Nat) :=
  (List.range s).flatMap fun dy => (List.range s).map fun dx => (s * ly + dy, s * lx + dx)

/-- Everything a draw needs to know where its pixels go. -/
structure Canvas where
  scale  : Nat
  width  : Nat
  height : Nat
  clip   : Bool
  x0     : Nat
  y0     : Nat
  deriving DecidableEq, Repr

/-- The physical cells a sprite's set pixels fall on, in the order of the loops of R232: a pixel past the right or bottom edge
is dropped under clip and reappears at the left or top under wrap (R234). -/
def spriteCells (k : Canvas) (bytes : List Byte) (cols rows : Nat) : List (Nat × Nat) :=
  (List.range rows).flatMap fun r => (List.range cols).flatMap fun c =>
    if spriteBit bytes cols r c then
      if k.clip && (decide (k.width ≤ k.x0 + c) || decide (k.height ≤ k.y0 + r)) then []
      else blockCells k.scale ((k.x0 + c) % k.width) ((k.y0 + r) % k.height)
    else []

/-- XOR the cells one after another into a plane, noting whether one of them was lit (R232, R233). -/
def drawCells : List (Nat × Nat) → Plane × Bool → Plane × Bool
  | [], a => a
  | (py, px) :: cs, (p, coll) => drawCells cs (p.flip py px, coll || p.lit py px)

/-- Draw into a plane if it is selected; an unselected plane takes no part, in the collision neither (R222, R232). -/
def drawPlane (selected : Bool) (cells : List (Nat × Nat)) (p : Plane) : Plane × Bool :=
  if selected then drawCells cells (p, false) else (p, false)

/-- The canvas of a draw at (`V[x]`, `V[y]`): the origin wraps in both quirk settings (R234). -/
def State.canvas (s : State) (x y : Nibble) : Canvas :=
  { scale := s.scale, width := s.width, height := s.height, clip := s.quirk.drawClip,
    x0 := (s.getV x).toNat % s.width, y0 := (s.getV y).toNat % s.height }

/-- Draw sprite bytes at (`V[x]`, `V[y]`): the same bytes into every selected plane, then the collision flag to `VF` (R232). -/
def State.drawSprite (s : State) (x y : Nibble) (cols rows : Nat) (bytes : List Byte) : State :=
  let cells := spriteCells (s.canvas x y) bytes cols rows
  let r0 := drawPlane (s.planesSel.getLsbD 0) cells s.plane0
  let r1 := drawPlane (s.planesSel.getLsbD 1) cells s.plane1
  (s.setPlanes r0.1 r1.1).setFlag (r0.2 || r1.2)

/-- `DRW`: all sprite bytes are read before any cell is changed (R232). -/
def State.draw (s : State) (x y : Nibble) (cols rows : Nat) : Result :=
  match s.readBytes s.base (rows * cols / 8) with
  | .error a => s.trap (.memoryAccess a .read)
  | .ok bytes => .next (s.drawSprite x y cols rows bytes).advance

/-! ### The instructions -/

/-- `00E0` CLS (R223). -/
def execCls (s : State) : Result := .next (s.onSelected fun _ => blankPlane).advance

/-- `00FB` SCR: class S (R227). -/
def execScr (s : State) : Result := .next ((s.promote .superChip).scroll .right 4).advance

/-- `00FC` SCL: class S (R228). -/
def execScl (s : State) : Result := .next ((s.promote .superChip).scroll .left 4).advance

/-- `00FE` LOW: class S (R229). -/
def execLow (s : State) : Result := .next ((s.promote .superChip).setHires false).advance

/-- `00FF` HIGH: class S (R230). -/
def execHigh (s : State) : Result := .next ((s.promote .superChip).setHires true).advance

/-- `00Cn` SCD n: class S (R225). -/
def execScd (n : Nibble) (s : State) : Result := .next ((s.promote .superChip).scroll .down n.toNat).advance

/-- `00Dn` SCU n: class X (R226). -/
def execScu (n : Nibble) (s : State) : Result := .next ((s.promote .xoChip).scroll .up n.toNat).advance

/-- `Dxy0` DRW Vx, Vy, 0: 16 by 16, class S, promotion before the quirk is read (R232). -/
def execDrwBig (x y : Nibble) (s : State) : Result := (s.promote .superChip).draw x y 16 16

/-- `Dxyn` DRW Vx, Vy, n: 8 columns and n rows (R232). -/
def execDrw (x y n : Nibble) (s : State) : Result := s.draw x y 8 n.toNat

/-- `Fn01` PLANE n: class X. A mask above 3 is no instruction; its word is unknown (R101, R235; log entry 14). -/
def execPlane (n : Nibble) (s : State) : Result :=
  if n.toNat ≤ 3 then .next ((s.promote .xoChip).setPlanesSel (n.setWidth 2)).advance
  else s.trap (.unknownOpcode (Instr.firstWord (.plane n)))

end Sys2Proof.Machine
end

