-- ==== Sys2Proof/Machine/Index.lean ====
section
/-! DEFINITION. The index register, memory block and flag-store instructions (spec 43_index_memory.md). -/

namespace Sys2Proof.Machine

/-- `Annn` LD I, nnn (R200). -/
def execLdI (nnn : Imm12) (s : State) : Result := .next (s.setI (nnn.setWidth 16)).advance

/-- `F000 nnnn` LD I, long nnnn: 4 bytes long, class X (R201). -/
def execLdILong (nnnn : Word) (s : State) : Result := .next (((s.promote .xoChip).setI nnnn).setPc (s.pc + 4))

/-- `Fx1E` ADD I, Vx: no flag (R202). -/
def execAddI (x : Nibble) (s : State) : Result := .next (s.setI (s.regI + (s.getV x).setWidth 16)).advance

/-- `Fx29` LD F, Vx (R203). -/
def execLdFont (x : Nibble) (s : State) : Result :=
  match s.digit x with
  | none => s.trap (.operandRange s.pc (s.getV x))
  | some d => .next (s.setI (fontAddress s.cfg d)).advance

/-- `Fx30` LD HF, Vx: class S (R204). -/
def execLdBigFont (x : Nibble) (s : State) : Result :=
  match s.digit x with
  | none => (s.promote .superChip).trap (.operandRange s.pc (s.getV x))
  | some d => .next ((s.promote .superChip).setI (bigFontAddress s.cfg d)).advance

/-- The three decimal digits of a byte, hundreds first (R205). -/
def decimalDigits (b : Byte) : List Byte :=
  [BitVec.ofNat 8 (b.toNat / 100), BitVec.ofNat 8 (b.toNat / 10 % 10), BitVec.ofNat 8 (b.toNat % 10)]

/-- `Fx33` LD B, Vx (R205). -/
def execBcd (x : Nibble) (s : State) : Result :=
  match s.storeBytes s.base (decimalDigits (s.getV x)) with
  | (t, some a) => t.trap (.memoryAccess a .write)
  | (t, none) => .next t.advance

/-- `V[0]` to `V[x]`, in order (R206). -/
def State.regsTo (s : State) (x : Nibble) : List Byte :=
  (List.range (x.toNat + 1)).map fun k => s.getV (BitVec.ofNat 4 k)

/-- `Fx55` LD [I], Vx (R206). -/
def execStoreRegs (x : Nibble) (s : State) : Result :=
  match s.storeBytes s.base (s.regsTo x) with
  | (t, some a) => t.trap (.memoryAccess a .write)
  | (t, none) => .next (t.incrementI x).advance

/-- Load `n` registers from `V[k]` upward with the bytes from `a + k` upward, one at a time; at the first address refused, the
state with the earlier registers loaded and that address (R72, R207). -/
def State.loadFrom (s : State) (a : Nat) : Nat → Nat → State × Option Nat
  | _, 0 => (s, none)
  | k, n + 1 =>
    match s.busRead (a + k) with
    | none => (s, some (a + k))
    | some b => (s.setV (BitVec.ofNat 4 k) b).loadFrom a (k + 1) n

/-- `Fx65` LD Vx, [I] (R207). -/
def execLoadRegs (x : Nibble) (s : State) : Result :=
  match s.loadFrom s.base 0 (x.toNat + 1) with
  | (t, some a) => t.trap (.memoryAccess a .read)
  | (t, none) => .next (t.incrementI x).advance

/-- The first `x + 1` bytes of `a`, the rest of `b`. -/
def overlay (x : Nibble) (a b : Vector Byte 16) : Vector Byte 16 :=
  Vector.ofFn fun k => if k.val ≤ x.toNat then a[k] else b[k]

/-- `Fx75` LD R, Vx: class S (R208). -/
def execSaveFlags (x : Nibble) (s : State) : Result :=
  .next ((s.promote .superChip).setFlags (overlay x s.v s.flags)).flagSave.advance

/-- `Fx85` LD Vx, R: class S (R209). -/
def execLoadFlags (x : Nibble) (s : State) : Result :=
  .next ((s.promote .superChip).setAllV (overlay x s.flags s.v)).advance

end Sys2Proof.Machine
end

