-- ==== Sys2Proof/Machine/Timers.lean ====
section
/-! DEFINITION. The timer and keypad instructions, the key wait's poll, and the Timer Unit's step (spec
45_timers_keypad.md). -/

namespace Sys2Proof.Machine

/-- `Fx07` LD Vx, DT (R250). -/
def execLdVxDt (x : Nibble) (s : State) : Result := .next (s.setV x s.delay).advance

/-- `Fx15` LD DT, Vx (R251). -/
def execLdDtVx (x : Nibble) (s : State) : Result := .next (s.setDelay (s.getV x)).advance

/-- `Fx18` LD ST, Vx (R252). -/
def execLdStVx (x : Nibble) (s : State) : Result := .next (s.setSound (s.getV x)).advance

/-- `Fx0A` LD Vx, K: it only enters the wait, and `PC` stays (R253). -/
def execLdVxKey (x : Nibble) (s : State) : Result := .next (s.setCpuState (.awaitingKey x none))

/-- The sixteen key numbers, lowest first. -/
def keyNumbers : List Nibble := (List.range 16).map (BitVec.ofNat 4)

/-- The least key that is held (R254). -/
def State.leastHeld (s : State) : Option Nibble := keyNumbers.find? s.keyHeld

/-- `KeyWaitPoll` (R254). -/
def State.keyWaitPoll (s : State) (waitReg : Nibble) (waitKey : Option Nibble) : State :=
  match waitKey with
  | none =>
    match s.leastHeld with
    | none => s
    | some k => s.setCpuState (.awaitingKey waitReg (some k))
  | some k =>
    if s.keyHeld k then s
    else ((s.setV waitReg (k.setWidth 8)).setCpuState .running).advance

/-- A counter one lower, but not below 0 (R258). -/
def countDown (b : Byte) : Byte := if b = 0 then 0 else b - 1

/-- `TimerTick` (R257). -/
def State.timerTick (s : State) : State := (s.setDelay (countDown s.delay)).setSound (countDown s.sound)

end Sys2Proof.Machine
end

