-- ==== Sys2Proof/Machine/Scheduler.lean ====
section
/-! DEFINITION. The Tick Scheduler, the presenter and the fetch (spec 47_scheduler.md, R121, R122): everything a step does
around `exec`. -/

namespace Sys2Proof.Machine

/-! ### Fetch and decode (R121, R122) -/

/-- The engine's fetch and decode at `PC`, with its faults in their order: the two bytes of the word, the illegal word, the
two bytes of the long form's second word (R121, R122, R127). -/
def State.fetch (s : State) : Except FaultRecord Instr :=
  match s.readWord s.pc.toNat with
  | .error a => .error (.memoryAccess a .fetch)
  | .ok op =>
    match decodeFirst op with
    | none => .error (.unknownOpcode op)
    | some (.short i) => .ok i
    | some .long =>
      match s.readWord (s.pc.toNat + 2) with
      | .error a => .error (.memoryAccess a .fetch)
      | .ok w => .ok (.ldILong w)

/-! ### The three cadences (R280 to R283) -/

/-- The period of the timer and of the presentation, 1/60 s (R7, R280). -/
def sixtieth : Rat := mkRat 1 60

/-- `P_cpu`, from the mode as it stands; 0 when the rate is `Unbounded` (R283). -/
def State.cpuPeriod (s : State) : Rat :=
  match s.quirk.cpuRate with
  | .unbounded => 0
  | .hz r => 1 / (r * s.cfg.speedMultiplier)

/-- Is the run state `Active`? -/
def State.active (s : State) : Bool := s.runState == .active

/-- The `CpuTick` of this iteration is due (R282). -/
def State.cpuDue (s : State) : Bool := s.active && s.accCpu.reaches s.cpuPeriod

/-- The `TimerTick` of this iteration is due (R282). -/
def State.timerDue (s : State) : Bool := s.active && s.accTimer.reaches sixtieth

/-- The `PresentTick` of this iteration is due, `Active` or `Paused` (R282, R285). -/
def State.presentDue (s : State) : Bool := s.accPresent.reaches sixtieth

/-- Who steps after the timer's place in the iteration. -/
def State.turnAfterTimer (s : State) : Turn := if s.presentDue then .present else .top

/-- Who steps after the engine's place in the iteration. -/
def State.turnAfterCpu (s : State) : Turn := if s.timerDue then .timer else s.turnAfterTimer

/-- Who steps after the top of the iteration: the order is engine, timer, presenter, each at most once (R282, R284). -/
def State.turnAfterTop (s : State) : Turn := if s.cpuDue then .cpu else s.turnAfterCpu

/-! ### The top of an iteration: the host's inputs (R282, R286, R290 to R292) -/

/-- The time a given input says has passed, in seconds, never negative (R292). -/
def elapsedSeconds (h : GivenInput) : Rat := mkRat h.elapsedNum (h.elapsedDenPred + 1)

/-- What the host drives in the next iteration: the head of `feed`, or a free value (log entry 6). -/
def State.nextInput (s : State) : HostInput :=
  match s.feed with
  | [] => Config.hostInput s.inputsRead
  | h :: _ => h.input

/-- `now - last_now` of the next iteration: what the head of `feed` says, or how far the free clock moves to its next reading; the
first reading was taken at reset (R282, R292; log entries 6 and 10). -/
def State.nextElapsed (s : State) : Seconds :=
  match s.feed with
  | [] => .toReading (s.inputsRead + 1)
  | h :: _ => .ofRat (elapsedSeconds h)

/-- The host's new levels on the ports; `cancel`, once 1, stays 1 (R286). -/
def State.takeInput (s : State) : State :=
  { s with
    port := { s.nextInput with cancel := s.port.cancel || s.nextInput.cancel }
    feed := s.feed.tail
    inputsRead := s.inputsRead + 1 }

/-- The clock is read, the key levels are sampled, and the time `dt` that has passed is added to the three accumulators (R282). -/
def State.sample (s : State) (dt : Seconds) : State :=
  { s with
    lastNow := s.lastNow.add dt
    keys := s.port.keys
    accCpu := s.accCpu.add dt
    accTimer := s.accTimer.add dt
    accPresent := s.accPresent.add dt }

/-- `run_state <- r` (R46). -/
def State.setRunState (s : State) (r : RunState) : State := { s with runState := r }

/-- Who steps next. -/
def State.setTurn (s : State) (t : Turn) : State := { s with turn := t }

/-- The top of an iteration: cancellation first, then the samples (R282, R286). -/
def State.topMove (s : State) : State :=
  if s.takeInput.port.cancel then s.takeInput.setRunState .exited
  else
    let t := s.takeInput.sample s.nextElapsed
    t.setTurn t.turnAfterTop

/-! ### The engine's place in the iteration (R282, R285) -/

/-- `acc_cpu <- 0` (R282). -/
def State.clearAccCpu (s : State) : State := { s with accCpu := .zero }

/-- A completed `CpuTick` is counted, and the tick limit acts when it is reached (R285). -/
def State.countTick (s : State) : State :=
  let t := { s with cpuTicks := s.cpuTicks + 1 }
  if s.cfg.tickLimit = some t.cpuTicks then
    t.setRunState (match s.cfg.limitAction with | .pause => .paused | .exit => .exited)
  else t

/-- What follows a `CpuTick` in its iteration: nothing after a fault, else the count and the next agent's turn (R282). -/
def State.afterCpuTick (s : State) : State :=
  if s.runState = .faulted then s else s.countTick.setTurn s.countTick.turnAfterCpu

/-! ### The timer's and the presenter's place (R257, R282, R287) -/

/-- The timer's place in the iteration: `TimerTick`, if the run is `Active` (R282). -/
def State.timerMove (s : State) : State :=
  let t := if s.active then { s.timerTick with accTimer := .zero } else s
  t.setTurn t.turnAfterTimer

/-- The composed frame: `2 * plane[1] + plane[0]` at every cell (R236). -/
def composeFrame (p0 p1 : Plane) : Frame :=
  Vector.ofFn fun py => Vector.ofFn fun px => BitVec.ofBool (p1[py].getLsbD px) ++ BitVec.ofBool (p0[py].getLsbD px)

/-- The frame of the planes as they stand goes to the frame port (R236, R293). -/
def State.showFrame (s : State) : State :=
  { s with out := { s.out with frame := some (composeFrame s.plane0 s.plane1), frames := s.out.frames + 1 } }

/-- `PresentTick`: the frame, then the audio step if the run is `Active` (R287). -/
def State.presentTick (s : State) : State :=
  if s.active then s.showFrame.audioStep else s.showFrame

/-- The presenter's place in the iteration, its last (R282). -/
def State.presentMove (s : State) : State := { s.presentTick with accPresent := .zero, turn := .top }

/-! ### Placing an instruction for the next step -/

/-- The state in which the engine is about to fetch: `Active`, `Running`, and its `CpuTick` due. -/
def State.readyToFetch (s : State) : State :=
  { s with runState := .active, cpuState := .running, turn := .cpu, accCpu := .ofRat (s.setRunState .active).cpuPeriod }

/-- The state with the bytes of a table word stored at `PC` and the engine about to fetch them (log entry 4). -/
def State.placeTableWord (s : State) (nbits w : Nat) : State :=
  (s.readyToFetch.storeBytes s.pc.toNat (tableWordBytes nbits w)).1

end Sys2Proof.Machine
end

