-- ==== Sys2Proof/Machine/Step.lean ====
section
/-! DEFINITION. One step: one agent's move in the order of the scheduler's iteration (spec R12, R120, R282). -/

namespace Sys2Proof.Machine

/-- `CpuTick`: a poll of the keypad while the engine waits for a key; otherwise fetch, decode and execute, or a fault (R120). -/
def cpuTick (s : State) : Result :=
  match s.cpuState with
  | .awaitingKey waitReg waitKey => .next (s.keyWaitPoll waitReg waitKey)
  | .running =>
    match s.fetch with
    | .error f => s.trap f
    | .ok i => exec i s

/-- The engine's place in the iteration (R282). -/
def cpuMove (s : State) : Result :=
  if s.active then
    match cpuTick s.clearAccCpu with
    | .next t => .next t.afterCpuTick
    | .fault f => .fault f
    | .refused r => .refused r
  else .next (s.setTurn s.turnAfterCpu)

/-- One step of the machine: the move of the agent whose turn it is. Nothing steps once the run is `Faulted` or `Exited` (R281,
R306). -/
def step (s : State) : Host.Outcome State Fault Refusal :=
  match s.runState with
  | .faulted => .fault (.faulted s.fault)
  | .exited => .fault .exited
  | .active | .paused =>
    match s.turn with
    | .top => .next s.topMove
    | .cpu => cpuMove s
    | .timer => .next s.timerMove
    | .present => .next s.presentMove

/-- The state in which the next step fetches and runs the instruction whose bits are `w` (log entry 4). -/
def State.withFetchWord (s : State) (nbits w : Nat) : State := s.placeTableWord nbits w

end Sys2Proof.Machine
end

