-- ==== Sys2Proof/Safety.lean ====
section
/-! DEFINITION. The terms in which claims about the machine are made: the real numbers its data stand for, the invariant of a run, a safe state, the outcomes a
statement names, and the sprite's cells said without the drawing loop. -/

namespace Sys2Proof.Machine

/-! ### The real numbers (R42, R45, R270, R292) -/

/-- A clock's first reading (0), and how far it moved to each later reading (R292). -/
noncomputable def advanceOf : Clock → Nat → ℝ
  | .still, _ => 0
  | .real _ sound, k => sound.choose k

/-- `CLOCK()` at reading `n` of the free clock; reading 0 is the one taken at reset (R292). -/
noncomputable def clockReading (n : Nat) : ℝ := ∑ k ∈ Finset.range (n + 1), advanceOf Config.clock k

/-- The real number of seconds (R45). -/
noncomputable def Seconds.value (d : Seconds) : ℝ := d.given + (d.clock.map (advanceOf Config.clock)).sum

/-- The real number (R42, R270). -/
noncomputable def Surd.value (x : Surd) : ℝ :=
  x.c0 + x.c1 * (2 : ℝ) ^ (1 / 4 : ℝ) + x.c2 * (2 : ℝ) ^ (1 / 2 : ℝ) + x.c3 * (2 : ℝ) ^ (3 / 4 : ℝ)

/-! ### States -/

/-- A state of a run that has not gone wrong: no fault was taken (spec R307). -/
def State.Safe (s : State) : Prop := s.runState ≠ .faulted

/-- What every state of a run has: the invariant that holds after reset and that every step keeps. -/
structure State.Inv (s : State) : Prop where
  /-- The configuration meets the constraints of R8. -/
  configuration : cfgValid s.cfg = true
  /-- Memory is in its canonical form. -/
  canonical : Memory.wf s.cfg s.mem
  /-- Only program space was ever written (R61, R63). -/
  programOnly : ∀ p ∈ s.mem, busAllows p.1 = true
  /-- `0 ≤ phase < 128` (R42). -/
  phaseRange : 0 ≤ s.phase.value ∧ s.phase.value < 128
  /-- The accumulators are not negative (R45). -/
  accumulators : 0 ≤ s.accCpu.value ∧ 0 ≤ s.accTimer.value ∧ 0 ≤ s.accPresent.value
  /-- `mode_forced` says whether a mode is forced (R36). -/
  forcedLatch : s.modeForced = (s.cfg.forcedMode != .auto)
  /-- A forced mode stays as forced (R128). -/
  forcedMode : s.modeForced = true → s.mode = resetMode s.cfg.forcedMode
  /-- `Chip8` is reached only by forcing (R132). -/
  autoMode : s.modeForced = false → s.mode ≠ .chip8
  /-- There is a fault record exactly when the run is `Faulted` (R46, R47). -/
  faultRecord : s.fault.isSome = true ↔ s.runState = .faulted
  /-- While the run is `Active` the tick limit is not reached (R285). -/
  belowLimit : s.runState = .active → ∀ n, s.cfg.tickLimit = some n → s.cpuTicks < n
  /-- The engine's turn comes only when its `CpuTick` is due (R282); the turn stays where it is when a fault ends the run. -/
  cpuTurn : s.turn = .cpu → s.runState = .faulted ∨ s.cpuDue = true
  /-- The timer's turn comes only when its `TimerTick` is due (R282). -/
  timerTurn : s.turn = .timer → s.timerDue = true
  /-- The presenter's turn comes only when its `PresentTick` is due (R282). -/
  presentTurn : s.turn = .present → s.presentDue = true
  /-- While the engine waits for a key, `PC` stands at the `Fx0A` that entered the wait, for the register it names (R24, R253). -/
  waitingAt : ∀ r k, s.cpuState = .awaitingKey r k → s.fetch = .ok (.ldVxKey r)

/-- The mode after a row of class S (R107, R123). -/
def modeAfterS (s : State) : Mode :=
  if s.modeForced then s.mode else match s.mode with | .xoChip => .xoChip | _ => .superChip

/-- The mode after a row of class X (R107, R123). -/
def modeAfterX (s : State) : Mode := if s.modeForced then s.mode else .xoChip

/-- The mode after a row of class `g` (R123): what promotion leaves. -/
def modeAfter (g : Gen) (s : State) : Mode :=
  match g with
  | .base => s.mode
  | .superChip => modeAfterS s
  | .xoChip => modeAfterX s

/-- The state a fault of the instruction at `PC` leaves when nothing was written before it (R306). -/
def faultedBy (s : State) (f : FaultRecord) : State := { s with fault := some f, runState := .faulted }

/-! ### What an instruction of one shape does, its frame included -/

/-- `i` completes from `s`; afterwards `V[z]` is `value z`, `PC` is 2 further, and nothing else has changed. -/
def WritesRegs (i : Instr) (s : State) (value : Nibble → Byte) : Prop :=
  ∃ t, exec i s = .next t ∧ (∀ z, t.getV z = value z) ∧ t.pc = s.pc + 2 ∧
    { t with v := s.v, pc := s.pc } = s ∧ ∀ a, t.byteAt a = s.byteAt a

/-- `i` completes from `s`; afterwards `PC` is `target`, and nothing else has changed. -/
def MovesPc (i : Instr) (s : State) (target : Nat) : Prop :=
  ∃ t, exec i s = .next t ∧ t.pc.toNat = target ∧ { t with pc := s.pc } = s ∧ ∀ a, t.byteAt a = s.byteAt a

/-- `i` completes from `s`; afterwards `I` is `value`, the mode is `m`, `PC` is `len` further, and nothing else has changed. -/
def SetsI (i : Instr) (s : State) (value : Nat) (m : Mode) (len : Word) : Prop :=
  ∃ t, exec i s = .next t ∧ t.regI.toNat = value ∧ t.mode = m ∧ t.pc = s.pc + len ∧
    { t with regI := s.regI, mode := s.mode, pc := s.pc } = s ∧ ∀ a, t.byteAt a = s.byteAt a

/-- Instruction `i` in state `s` is a conditional skip whose condition is `c` (R150): everything it can do. -/
def SkipsWhen (i : Instr) (s : State) (c : Prop) : Prop :=
  (¬c → exec i s = .next { s with pc := s.pc + 2 }) ∧
  (c → 0x200 ≤ s.pc.toNat + 2 → s.pc.toNat + 3 < 0x1000 →
    exec i s = .next { s with
      pc := s.pc + (if s.byteAt (s.pc.toNat + 2) = 0xF0 ∧ s.byteAt (s.pc.toNat + 3) = 0x00 then 6 else 4) }) ∧
  (c → s.pc.toNat + 2 < 0x200 ∨ 0x1000 ≤ s.pc.toNat + 2 →
    exec i s = .next (faultedBy s (.memoryAccess (s.pc.toNat + 2) .read))) ∧
  (c → s.pc.toNat + 2 = 0xFFF → exec i s = .next (faultedBy s (.memoryAccess 0x1000 .read)))

/-- The bytes from `a` on, `n` of them, are all in program space (R61). -/
def InProgram (a n : Nat) : Prop := ∀ k < n, 0x200 ≤ a + k ∧ a + k < 0x1000

/-- `a + j` is the first of the addresses from `a` on that is not in program space (R72). -/
def FirstRefused (a j : Nat) : Prop := InProgram a j ∧ ¬(0x200 ≤ a + j ∧ a + j < 0x1000)

/-- Is plane `p` selected (R38)? -/
def State.selected (s : State) (p : Fin 2) : Bool := s.planesSel.getLsbD p.val

/-- `plane[p]` (R37). -/
def State.plane (s : State) (p : Fin 2) : Plane := if p = 0 then s.plane0 else s.plane1

/-- `i` completes from `s`; afterwards the cell of row `py` and column `px` of a selected plane `p` is `cell p py px`, an
unselected plane is as before, the mode is `m`, `PC` is 2 further, and nothing else has changed (R222). -/
def Redraws (i : Instr) (s : State) (m : Mode) (cell : Fin 2 → Nat → Nat → Bool) : Prop :=
  ∃ t, exec i s = .next t ∧
    (∀ p py px, py < 64 → px < 128 →
      (t.plane p).lit py px = if s.selected p then cell p py px else (s.plane p).lit py px) ∧
    t.mode = m ∧ t.pc = s.pc + 2 ∧
    { t with plane0 := s.plane0, plane1 := s.plane1, mode := s.mode, pc := s.pc } = s ∧ ∀ a, t.byteAt a = s.byteAt a

/-- The pixel of row `r`, column `c` of the sprite at `I`, read from memory (R231). -/
def State.spritePixel (s : State) (cols r c : Nat) : Bool :=
  (s.byteAt (s.base + (r * (cols / 8) + c / 8))).getLsbD (7 - c % 8)

/-- The sprite of `cols` by `rows` pixels at `I`, drawn at (`V[x]`, `V[y]`) in the mode and resolution of `s`, covers the
physical cell of row `py` and column `px` with a set pixel (R221, R231, R232, R234). -/
def State.Covers (s : State) (x y : Nibble) (cols rows py px : Nat) : Prop :=
  ∃ r < rows, ∃ c < cols, s.spritePixel cols r c = true ∧
    if s.quirk.drawClip = true then
      (s.getV x).toNat % s.width + c = px / s.scale ∧ (s.getV y).toNat % s.height + r = py / s.scale
    else
      ((s.getV x).toNat % s.width + c) % s.width = px / s.scale ∧
      ((s.getV y).toNat % s.height + r) % s.height = py / s.scale

/-- Drawing that sprite would erase a lit cell of a selected plane (R233). -/
def State.Collides (s : State) (x y : Nibble) (cols rows : Nat) : Prop :=
  ∃ p py px, s.selected p = true ∧ py < 64 ∧ px < 128 ∧ (s.plane p).lit py px = true ∧ s.Covers x y cols rows py px

/-- `i` draws that sprite from `s`, which is the state after promotion: every covered cell of a selected plane is inverted, no
other cell changes, `VF` is the collision flag, `PC` is 2 further, and nothing else has changed (R232, R233). -/
def DrawsSprite (i : Instr) (s₀ s : State) (x y : Nibble) (cols rows : Nat) : Prop :=
  ∃ t, exec i s₀ = .next t ∧
    (∀ p py px, py < 64 → px < 128 →
      ((t.plane p).lit py px ≠ (s.plane p).lit py px ↔ s.selected p = true ∧ s.Covers x y cols rows py px)) ∧
    (s.Collides x y cols rows → t.getV 0xF = 0x01) ∧ (¬s.Collides x y cols rows → t.getV 0xF = 0x00) ∧
    (∀ z, z ≠ 0xF → t.getV z = s.getV z) ∧ t.pc = s.pc + 2 ∧
    { t with v := s.v, plane0 := s.plane0, plane1 := s.plane1, pc := s.pc } = s ∧ ∀ a, t.byteAt a = s.byteAt a

/-- The engine is about to fetch: the run is `Active`, it is the engine's turn, and it waits for no key. -/
def State.Fetching (s : State) : Prop := s.runState = .active ∧ s.turn = .cpu ∧ s.cpuState = .running

/-- The next step fetches and runs instruction `i`. -/
def State.Runs (s : State) (i : Instr) : Prop := s.Fetching ∧ s.fetch = .ok i

/-- An instruction's bytes stand at `PC`, all of them in program space. -/
def State.Holds (s : State) (i : Instr) : Prop :=
  InProgram s.pc.toNat (encode i).length ∧
  ∀ k (h : k < (encode i).length), s.byteAt (s.pc.toNat + k) = (encode i)[k]

/-- The words of R104: what no row matches, said with the word's digits. -/
def IllegalWord (op : Word) : Prop :=
  let g := op.toNat / 4096
  let x := op.toNat / 256 % 16
  let nn := op.toNat % 256
  let n := op.toNat % 16
  (g = 0 ∧ ¬(op.toNat = 0xE0 ∨ op.toNat = 0xEE ∨ op.toNat = 0xFB ∨ op.toNat = 0xFC ∨ op.toNat = 0xFE ∨ op.toNat = 0xFF ∨
    (0xC0 ≤ op.toNat ∧ op.toNat ≤ 0xDF))) ∨
  ((g = 5 ∨ g = 9) ∧ n ≠ 0) ∨
  (g = 8 ∧ (n = 8 ∨ n = 9 ∨ n = 0xA ∨ n = 0xB ∨ n = 0xC ∨ n = 0xD ∨ n = 0xF)) ∨
  (g = 0xE ∧ nn ≠ 0x9E ∧ nn ≠ 0xA1) ∨
  (g = 0xF ∧ ¬((nn = 0x00 ∧ x = 0) ∨ (nn = 0x01 ∧ x ≤ 3) ∨ (nn = 0x02 ∧ x = 0) ∨
    nn ∈ [0x07, 0x0A, 0x15, 0x18, 0x1E, 0x29, 0x30, 0x33, 0x3A, 0x55, 0x65, 0x75, 0x85]))

end Sys2Proof.Machine
end

