-- ==== Sys2Proof/Certificates/Slice0/Obligations.lean ====
section
/-! DEFINITION. The statements for the provers. Each docstring names the rules of the spec it formalises, the spec's own
decisions (D<n>, spec/92_eei_decisions.md) those rules rest on, and the log entry where a clause is the model's own. -/

section Statements

open Sys2Proof Sys2Proof.Machine

/-! ### Encoding and decoding (spec/30_encoding.md) -/

/-- R90 to R96, R66: the bytes the encoder writes for a well-formed instruction decode to that instruction, every operand at
every value, whatever follows them; and exactly its bytes are taken. -/
def Obligations.DecodeOfEncode : Prop :=
  ∀ (i : Instr) (rest : List Byte), i.wf = true → decode (encode i ++ rest) = .ok (i, rest)

/-- R90, R94: what the decoder reads is well formed, and the bytes it took are exactly that instruction's encoding: no two words
decode to one instruction. -/
def Obligations.EncodeOfDecode : Prop :=
  ∀ (bs rest : List Byte) (i : Instr), decode bs = .ok (i, rest) → i.wf = true ∧ bs = encode i ++ rest

/-- R94, R96: on each of the 65536 words the decoder stops at the row that the walk down the mask and match columns stops at, and
at none where the walk finds none. Row 32 (counted from 0) is the long form's. -/
def Obligations.DecoderIsTheRowWalk : Prop :=
  ∀ op : Word, walkRows op =
    (decodeFirst op).map fun d => match d with
      | .short i => i.row
      | .long => 32

/-- R104, with R95 and R97 to R101: the words that decode to nothing are exactly those the rule lists. -/
def Obligations.IllegalWordsAreThese : Prop := ∀ op : Word, decodeFirst op = none ↔ IllegalWord op

/-- R96: words written out from the opcode map, one of each format of R91 and more, decode to the instructions they stand for.
A sanity statement. -/
def Obligations.SpecWordsDecode : Prop :=
  decode [0x00, 0xE0] = .ok (.cls, []) ∧ decode [0x00, 0xC3] = .ok (.scd 3, []) ∧ decode [0x13, 0x00] = .ok (.jp 0x300, []) ∧
  decode [0x81, 0x2E] = .ok (.shl 1 2, []) ∧ decode [0x71, 0x01] = .ok (.addImm 1 0x01, []) ∧
  decode [0xD0, 0x11] = .ok (.drw 0 1 1, []) ∧ decode [0xD0, 0x10] = .ok (.drwBig 0 1, []) ∧
  decode [0xE0, 0xA1] = .ok (.sknp 0, []) ∧ decode [0xF3, 0x01] = .ok (.plane 3, []) ∧
  decode [0xF1, 0x55] = .ok (.storeRegs 1, []) ∧ decode [0xF0, 0x00, 0x0A, 0xBC] = .ok (.ldILong 0x0ABC, []) ∧
  decode [0xF4, 0x01] = .error (.unknownOpcode 0xF401) ∧ decode [0x00, 0x00] = .error (.unknownOpcode 0x0000)

/-- R107: the class of an instruction, read off its first word with the rule's own patterns; every other row is of class B (D7). -/
def Obligations.GenerationClassOfEachRow : Prop :=
  ∀ (i : Instr) (w : Word), i.wf = true → w = i.firstWord →
    (i.gen = .superChip ↔ w &&& 0xFFF0 = 0x00C0 ∨ w = 0x00FB ∨ w = 0x00FC ∨ w = 0x00FE ∨ w = 0x00FF ∨
      w &&& 0xF00F = 0xD000 ∨ w &&& 0xF0FF = 0xF030 ∨ w &&& 0xF0FF = 0xF075 ∨ w &&& 0xF0FF = 0xF085) ∧
    (i.gen = .xoChip ↔ w &&& 0xFFF0 = 0x00D0 ∨ w = 0xF000 ∨ w &&& 0xF0FF = 0xF001 ∨ w = 0xF002 ∨
      w &&& 0xF0FF = 0xF03A)

/-! ### The memory bus (spec/20_memory.md) -/

/-- R77, R62, R63: in program space a byte written is read back and no other byte changes; elsewhere the bus refuses both, and a
write it refuses gives no new state. -/
def Obligations.BusReadsWhatWasWritten : Prop :=
  ∀ (s : State) (a : Nat) (b : Byte), Memory.wf s.cfg s.mem →
    (0x200 ≤ a ∧ a ≤ 0xFFF → ∃ t, s.busWrite a b = some t ∧ t.busRead a = some b ∧
      (∀ a', a' ≠ a → t.byteAt a' = s.byteAt a') ∧ { t with mem := s.mem } = s ∧ Memory.wf t.cfg t.mem) ∧
    (a ≤ 0x1FF ∨ 4096 ≤ a → s.busWrite a b = none ∧ s.busRead a = none)

/-! ### Control transfer (spec/41_control_flow.md) -/

/-- R152, R154: `1nnn` completes from every state, with `PC` at `nnn` exactly; `Bnnn` completes from every state, with `PC` at `nnn`
plus `V0`, or plus the register named by the high nibble of `nnn` where the quirk `jump_reg` says so; with the table of R130 that is
the mode `SuperChip`. The sum is not masked (D14). -/
def Obligations.JumpsSetPc : Prop :=
  ∀ (nnn : Imm12) (s : State),
    decodeFirst (0x1#4 ++ nnn) = some (.short (.jp nnn)) ∧ MovesPc (.jp nnn) s nnn.toNat ∧
    decodeFirst (0xB#4 ++ nnn) = some (.short (.jpV0 nnn)) ∧
    (s.quirk.jumpReg = .v0 → MovesPc (.jpV0 nnn) s (nnn.toNat + (s.getV 0).toNat)) ∧
    (s.quirk.jumpReg = .vHigh → MovesPc (.jpV0 nnn) s (nnn.toNat + (s.getV (BitVec.ofNat 4 (nnn.toNat / 256))).toNat)) ∧
    (s.cfg.quirks = standardQuirks → (s.quirk.jumpReg = .vHigh ↔ s.mode = .superChip))

/-- R153, R31, R303: `2nnn` pushes the address of the next instruction and jumps, below 16 entries; with 16 entries it faults
and writes nothing else (D13). -/
def Obligations.CallPushes : Prop :=
  ∀ (nnn : Imm12) (s : State),
    decodeFirst (0x2#4 ++ nnn) = some (.short (.call nnn)) ∧
    (s.sp.val < 16 → ∃ t, exec (.call nnn) s = .next t ∧ t.pc.toNat = nnn.toNat ∧ t.sp.val = s.sp.val + 1 ∧
      (∀ k : Fin 16, t.stack[k] = if k.val = s.sp.val then s.pc + 2 else s.stack[k]) ∧
      { t with pc := s.pc, stack := s.stack, sp := s.sp } = s ∧ ∀ a, t.byteAt a = s.byteAt a) ∧
    (s.sp.val = 16 → exec (.call nnn) s = .next (faultedBy s (.stackOverflow s.pc)))

/-- R151, R32, R30, R304: `00EE` goes to the top entry and takes it off, the entry keeping its value, above 0 entries; with none
it faults and writes nothing else (D13). -/
def Obligations.ReturnPops : Prop :=
  ∀ s : State,
    decodeFirst 0x00EE = some (.short .ret) ∧
    (∀ k : Fin 16, s.sp.val = k.val + 1 → ∃ t, exec .ret s = .next t ∧ t.pc = s.stack[k] ∧ t.sp.val = k.val ∧
      { t with pc := s.pc, sp := s.sp } = s ∧ ∀ a, t.byteAt a = s.byteAt a) ∧
    (s.sp.val = 0 → exec .ret s = .next (faultedBy s (.stackUnderflow s.pc)))

/-- R153, R151: a call with a free entry and then a return, wherever the return stands, resume at the instruction after the call,
with as many entries as before; but for `PC` and the one stack entry that the call wrote, everything is as before the call. -/
def Obligations.CallThenReturn : Prop :=
  ∀ (nnn : Imm12) (s : State) (ret : Word), s.sp.val < 16 →
    ∃ t u, exec (.call nnn) s = .next t ∧ exec .ret { t with pc := ret } = .next u ∧ u.pc = s.pc + 2 ∧
      (∀ k : Fin 16, k.val ≠ s.sp.val → u.stack[k] = s.stack[k]) ∧ { u with pc := s.pc, stack := s.stack } = s

/-- R155 to R158, R150: the four register skips, each on its own condition, from every state: not taken, taken over 2 bytes,
taken over the 4 bytes of a long form, and the faults of the probe (D12). -/
def Obligations.ConditionalSkips : Prop :=
  ∀ (x y : Nibble) (nn : Byte) (s : State),
    decodeFirst (0x3#4 ++ x ++ nn) = some (.short (.seImm x nn)) ∧ SkipsWhen (.seImm x nn) s (s.getV x = nn) ∧
    decodeFirst (0x4#4 ++ x ++ nn) = some (.short (.sneImm x nn)) ∧ SkipsWhen (.sneImm x nn) s (s.getV x ≠ nn) ∧
    decodeFirst (0x5#4 ++ x ++ y ++ 0x0#4) = some (.short (.seReg x y)) ∧
    SkipsWhen (.seReg x y) s (s.getV x = s.getV y) ∧
    decodeFirst (0x9#4 ++ x ++ y ++ 0x0#4) = some (.short (.sneReg x y)) ∧
    SkipsWhen (.sneReg x y) s (s.getV x ≠ s.getV y)

/-- R159, R160, R150: the two key skips on the level of the key that `V[x]` names, from every state; above 15 they fault before
the key is looked at (D16). -/
def Obligations.KeySkips : Prop :=
  ∀ (x : Nibble) (s : State),
    decodeFirst (0xE#4 ++ x ++ 0x9E#8) = some (.short (.skp x)) ∧
    decodeFirst (0xE#4 ++ x ++ 0xA1#8) = some (.short (.sknp x)) ∧
    (∀ k : Fin 16, (s.getV x).toNat = k.val →
      SkipsWhen (.skp x) s (s.keys[k] = true) ∧ SkipsWhen (.sknp x) s (s.keys[k] = false)) ∧
    (15 < (s.getV x).toNat →
      exec (.skp x) s = .next (faultedBy s (.operandRange s.pc (s.getV x))) ∧
      exec (.sknp x) s = .next (faultedBy s (.operandRange s.pc (s.getV x))))

/-! ### Loads, arithmetic and random (spec/42_load_alu.md) -/

/-- R170, R171, R172: the immediate load, the immediate add, which writes no flag, and the register load. -/
def Obligations.LoadsAndImmediateAdd : Prop :=
  ∀ (x y : Nibble) (nn : Byte) (s : State),
    decodeFirst (0x6#4 ++ x ++ nn) = some (.short (.ldImm x nn)) ∧
    WritesRegs (.ldImm x nn) s (fun z => if z = x then nn else s.getV z) ∧
    decodeFirst (0x7#4 ++ x ++ nn) = some (.short (.addImm x nn)) ∧
    WritesRegs (.addImm x nn) s
      (fun z => if z = x then BitVec.ofNat 8 (((s.getV x).toNat + nn.toNat) % 256) else s.getV z) ∧
    decodeFirst (0x8#4 ++ x ++ y ++ 0x0#4) = some (.short (.ldReg x y)) ∧
    WritesRegs (.ldReg x y) s (fun z => if z = x then s.getV y else s.getV z)

/-- R173, R174, R175, R183: OR, AND and XOR, bit by bit; where the quirk `vf_reset` holds `VF` ends as 0, the result being lost if x
is F (D15). With the table of R130 the quirk holds in `Unset` and `Chip8` (D5). -/
def Obligations.BitwiseAndFlagReset : Prop :=
  ∀ (x y : Nibble) (s : State) (op : Bool → Bool → Bool) (i : Instr) (k : Nibble) (r : Byte),
    (k, i, op) ∈ [(0x1#4, .orReg x y, or), (0x2#4, .andReg x y, and), (0x3#4, .xorReg x y, xor)] →
    (∀ b < 8, r.getLsbD b = op ((s.getV x).getLsbD b) ((s.getV y).getLsbD b)) →
    decodeFirst (0x8#4 ++ x ++ y ++ k) = some (.short i) ∧
    (s.quirk.vfReset = true → WritesRegs i s (fun z => if z = 0xF then 0x00 else if z = x then r else s.getV z)) ∧
    (s.quirk.vfReset = false → WritesRegs i s (fun z => if z = x then r else s.getV z)) ∧
    (s.cfg.quirks = standardQuirks → (s.quirk.vfReset = true ↔ s.mode = .unset ∨ s.mode = .chip8))

/-- R176, R183: ADD truncates the sum to 8 bits and leaves the carry in `VF`, which is written last (D15). -/
def Obligations.AddWithCarry : Prop :=
  ∀ (x y : Nibble) (s : State),
    decodeFirst (0x8#4 ++ x ++ y ++ 0x4#4) = some (.short (.addReg x y)) ∧
    WritesRegs (.addReg x y) s (fun z =>
      if z = 0xF then (if (s.getV x).toNat + (s.getV y).toNat > 0xFF then 0x01 else 0x00)
      else if z = x then BitVec.ofNat 8 (((s.getV x).toNat + (s.getV y).toNat) % 256) else s.getV z)

/-- R177, R179, R184, R183: SUB and SUBN wrap modulo 256, and `VF` says that no borrow occurred (D15; the operand order of SUBN
is D11). -/
def Obligations.SubtractNoBorrow : Prop :=
  ∀ (x y : Nibble) (s : State),
    decodeFirst (0x8#4 ++ x ++ y ++ 0x5#4) = some (.short (.subReg x y)) ∧
    WritesRegs (.subReg x y) s (fun z =>
      if z = 0xF then (if (s.getV x).toNat ≥ (s.getV y).toNat then 0x01 else 0x00)
      else if z = x then BitVec.ofInt 8 (((s.getV x).toNat - (s.getV y).toNat : Int) % 256) else s.getV z) ∧
    decodeFirst (0x8#4 ++ x ++ y ++ 0x7#4) = some (.short (.subn x y)) ∧
    WritesRegs (.subn x y) s (fun z =>
      if z = 0xF then (if (s.getV y).toNat ≥ (s.getV x).toNat then 0x01 else 0x00)
      else if z = x then BitVec.ofInt 8 (((s.getV y).toNat - (s.getV x).toNat : Int) % 256) else s.getV z)

/-- R178, R180, R183: SHR and SHL shift the register that the quirk `shift_src` names by one bit into `V[x]`, and `VF` is the bit
shifted out (D15). With the table of R130 it is `Vx` in `SuperChip` only. -/
def Obligations.ShiftsByOne : Prop :=
  ∀ (x y : Nibble) (s : State) (b : Nat),
    b = (if s.quirk.shiftSrc = .vy then (s.getV y).toNat else (s.getV x).toNat) →
    decodeFirst (0x8#4 ++ x ++ y ++ 0x6#4) = some (.short (.shr x y)) ∧
    WritesRegs (.shr x y) s (fun z =>
      if z = 0xF then BitVec.ofNat 8 (b % 2) else if z = x then BitVec.ofNat 8 (b / 2) else s.getV z) ∧
    decodeFirst (0x8#4 ++ x ++ y ++ 0xE#4) = some (.short (.shl x y)) ∧
    WritesRegs (.shl x y) s (fun z =>
      if z = 0xF then BitVec.ofNat 8 (b / 128) else if z = x then BitVec.ofNat 8 (b * 2 % 256) else s.getV z) ∧
    (s.cfg.quirks = standardQuirks → (s.quirk.shiftSrc = .vx ↔ s.mode = .superChip))

/-- R181: RND leaves the next free byte ANDed with the immediate, so a bit that is 0 in the immediate is 0 in the result, whatever
the draw (D18; the count of draws is the model's own, log entry 5). -/
def Obligations.RandomIsMasked : Prop :=
  ∀ (x : Nibble) (nn : Byte) (s : State),
    decodeFirst (0xC#4 ++ x ++ nn) = some (.short (.rnd x nn)) ∧
    ∃ (r : Byte) (t : State), r = Config.randomByte s.draws ∧ exec (.rnd x nn) s = .next t ∧
      (∀ b < 8, (t.getV x).getLsbD b = (r.getLsbD b && nn.getLsbD b)) ∧ (nn = 0x00 → t.getV x = 0x00) ∧
      (∀ z, z ≠ x → t.getV z = s.getV z) ∧ t.draws = s.draws + 1 ∧ t.pc = s.pc + 2 ∧
      { t with v := s.v, draws := s.draws, pc := s.pc } = s ∧ ∀ a, t.byteAt a = s.byteAt a

/-! ### The index register and memory blocks (spec/43_index_memory.md) -/

/-- R200, R202: `I` loaded with 12 bits, and `I` plus a register modulo 65536 with no flag (D14, D11). -/
def Obligations.IndexLoadAndAdd : Prop :=
  ∀ (nnn : Imm12) (x : Nibble) (s : State),
    decodeFirst (0xA#4 ++ nnn) = some (.short (.ldI nnn)) ∧ SetsI (.ldI nnn) s nnn.toNat s.mode 2 ∧
    decodeFirst (0xF#4 ++ x ++ 0x1E#8) = some (.short (.addI x)) ∧
    SetsI (.addI x) s ((s.regI.toNat + (s.getV x).toNat) % 65536) s.mode 2

/-- R201, R123: the long form loads `I` with its second word, is 4 bytes long and promotes to `XoChip` (D11). -/
def Obligations.IndexLoadLong : Prop :=
  ∀ (nnnn : Word) (s : State),
    (∀ hi lo : Byte, nnnn = hi ++ lo → decode [0xF0, 0x00, hi, lo] = .ok (.ldILong nnnn, [])) ∧
    SetsI (.ldILong nnnn) s nnnn.toNat (modeAfterX s) 4

/-- R203, R204, R309: `I` at the glyph of a digit; above 15 a fault (D16). Under the constraints of R8 on the fonts' places the
address is at or below 0x1FF. -/
def Obligations.FontAddresses : Prop :=
  ∀ (x : Nibble) (s : State),
    decodeFirst (0xF#4 ++ x ++ 0x29#8) = some (.short (.ldFont x)) ∧
    decodeFirst (0xF#4 ++ x ++ 0x30#8) = some (.short (.ldBigFont x)) ∧
    (cfgValid s.cfg = true → (s.getV x).toNat ≤ 15 →
      SetsI (.ldFont x) s (s.cfg.fontBase + 5 * (s.getV x).toNat) s.mode 2 ∧
      SetsI (.ldBigFont x) s (s.cfg.bigFontBase + 10 * (s.getV x).toNat) (modeAfterS s) 2 ∧
      s.cfg.fontBase + 5 * (s.getV x).toNat ≤ 0x1FF ∧ s.cfg.bigFontBase + 10 * (s.getV x).toNat ≤ 0x1FF) ∧
    (15 < (s.getV x).toNat →
      exec (.ldFont x) s = .next (faultedBy s (.operandRange s.pc (s.getV x))) ∧
      exec (.ldBigFont x) s =
        .next (faultedBy { s with mode := modeAfterS s } (.operandRange s.pc (s.getV x))))

/-- R205: the three decimal digits go to `I`, `I + 1`, `I + 2`, and nothing else changes (D11). -/
def Obligations.DecimalDigits : Prop :=
  ∀ (x : Nibble) (s : State),
    decodeFirst (0xF#4 ++ x ++ 0x33#8) = some (.short (.bcd x)) ∧
    (Memory.wf s.cfg s.mem → InProgram s.regI.toNat 3 → ∃ t, exec (.bcd x) s = .next t ∧
      (t.byteAt s.regI.toNat).toNat = (s.getV x).toNat / 100 ∧
      (t.byteAt (s.regI.toNat + 1)).toNat = (s.getV x).toNat / 10 % 10 ∧
      (t.byteAt (s.regI.toNat + 2)).toNat = (s.getV x).toNat % 10 ∧
      (∀ a, a < s.regI.toNat ∨ s.regI.toNat + 3 ≤ a → t.byteAt a = s.byteAt a) ∧
      t.pc = s.pc + 2 ∧ { t with mem := s.mem, pc := s.pc } = s)

/-- R206: `V0` to `Vx` go to memory from `I` upward, and `I` moves by x + 1 where the quirk `mem_increment` holds (D11); with the
table of R130 that is every mode but `SuperChip` (D6). -/
def Obligations.StoreRegisters : Prop :=
  ∀ (x : Nibble) (s : State),
    decodeFirst (0xF#4 ++ x ++ 0x55#8) = some (.short (.storeRegs x)) ∧
    (Memory.wf s.cfg s.mem → InProgram s.regI.toNat (x.toNat + 1) → ∃ t, exec (.storeRegs x) s = .next t ∧
      (∀ k : Nibble, k.toNat ≤ x.toNat → t.byteAt (s.regI.toNat + k.toNat) = s.getV k) ∧
      (∀ a, a < s.regI.toNat ∨ s.regI.toNat + x.toNat < a → t.byteAt a = s.byteAt a) ∧
      t.regI.toNat = (if s.quirk.memIncrement then (s.regI.toNat + x.toNat + 1) % 65536 else s.regI.toNat) ∧
      t.pc = s.pc + 2 ∧ { t with mem := s.mem, regI := s.regI, pc := s.pc } = s) ∧
    (s.cfg.quirks = standardQuirks → (s.quirk.memIncrement = false ↔ s.mode = .superChip))

/-- R207: `V0` to `Vx` come from memory from `I` upward, every address built from the `I` before, and `I` moves as in R206 (D11,
D6). -/
def Obligations.LoadRegisters : Prop :=
  ∀ (x : Nibble) (s : State),
    decodeFirst (0xF#4 ++ x ++ 0x65#8) = some (.short (.loadRegs x)) ∧
    (InProgram s.regI.toNat (x.toNat + 1) → ∃ t, exec (.loadRegs x) s = .next t ∧
      (∀ z : Nibble, t.getV z = if z.toNat ≤ x.toNat then s.byteAt (s.regI.toNat + z.toNat) else s.getV z) ∧
      t.regI.toNat = (if s.quirk.memIncrement then (s.regI.toNat + x.toNat + 1) % 65536 else s.regI.toNat) ∧
      t.pc = s.pc + 2 ∧ { t with v := s.v, regI := s.regI, pc := s.pc } = s ∧ ∀ a, t.byteAt a = s.byteAt a)

/-- R72, R205 to R207, R306: when byte j of a block is the first that lies outside program space, the bytes before it are stored
(or loaded), nothing else is written, and the fault names the address of byte j (D26). -/
def Obligations.BlockFaultsKeepTheEarlierPart : Prop :=
  ∀ (x : Nibble) (s : State) (j : Nat), FirstRefused s.regI.toNat j →
    (j < x.toNat + 1 → ∃ t, exec (.loadRegs x) s = .next t ∧
      (∀ z : Nibble, t.getV z = if z.toNat < j then s.byteAt (s.regI.toNat + z.toNat) else s.getV z) ∧
      { t with v := s.v } = faultedBy s (.memoryAccess (s.regI.toNat + j) .read)) ∧
    (Memory.wf s.cfg s.mem →
      (j < x.toNat + 1 → ∃ t, exec (.storeRegs x) s = .next t ∧
        (∀ k : Nibble, k.toNat < j → t.byteAt (s.regI.toNat + k.toNat) = s.getV k) ∧
        (∀ a, a < s.regI.toNat ∨ s.regI.toNat + j ≤ a → t.byteAt a = s.byteAt a) ∧
        { t with mem := s.mem } = faultedBy s (.memoryAccess (s.regI.toNat + j) .write)) ∧
      (j < 3 → ∃ t, exec (.bcd x) s = .next t ∧
        (∀ k, k < j → (t.byteAt (s.regI.toNat + k)).toNat =
          if k = 0 then (s.getV x).toNat / 100 else (s.getV x).toNat / 10 % 10) ∧
        (∀ a, a < s.regI.toNat ∨ s.regI.toNat + j ≤ a → t.byteAt a = s.byteAt a) ∧
        { t with mem := s.mem } = faultedBy s (.memoryAccess (s.regI.toNat + j) .write)))

/-- R208, R209, R295: `V0` to `Vx` go to the flag bytes, the others keep theirs, and all 16 are handed to the flag port once; or
they come from the flag bytes. Class S (D27, D11). The record of the port is the model's own (log entry 12). -/
def Obligations.FlagStoreSavesAndLoads : Prop :=
  ∀ (x : Nibble) (s : State),
    decodeFirst (0xF#4 ++ x ++ 0x75#8) = some (.short (.saveFlags x)) ∧
    (∃ t, exec (.saveFlags x) s = .next t ∧
      (∀ k : Fin 16, t.flags[k] = if k.val ≤ x.toNat then s.v[k] else s.flags[k]) ∧
      t.out = { s.out with flagSave := some t.flags, flagSaves := s.out.flagSaves + 1 } ∧
      t.mode = modeAfterS s ∧ t.pc = s.pc + 2 ∧
      { t with flags := s.flags, out := s.out, mode := s.mode, pc := s.pc } = s ∧ ∀ a, t.byteAt a = s.byteAt a) ∧
    decodeFirst (0xF#4 ++ x ++ 0x85#8) = some (.short (.loadFlags x)) ∧
    ∃ t, exec (.loadFlags x) s = .next t ∧
      (∀ k : Fin 16, t.v[k] = if k.val ≤ x.toNat then s.flags[k] else s.v[k]) ∧
      t.mode = modeAfterS s ∧ t.pc = s.pc + 2 ∧
      { t with v := s.v, mode := s.mode, pc := s.pc } = s ∧ ∀ a, t.byteAt a = s.byteAt a

/-! ### The display (spec/44_display.md) -/

/-- R223, R222: CLS blanks every cell of the selected planes in either resolution and nothing else. -/
def Obligations.ClearSelected : Prop :=
  ∀ s : State, decodeFirst 0x00E0 = some (.short .cls) ∧ Redraws .cls s s.mode (fun _ _ _ => false)

/-- R224 to R228: the four scrolls, `n` logical pixels or 4, as R224's formulas over physical cells with `d = n * s` (D21). -/
def Obligations.Scrolls : Prop :=
  ∀ (n : Nibble) (s : State) (k d e : Nat), k = (if s.hires then 1 else 2) → d = n.toNat * k → e = 4 * k →
    decodeFirst (0x00C#12 ++ n) = some (.short (.scd n)) ∧
    Redraws (.scd n) s (modeAfterS s) (fun p py px => decide (d ≤ py) && (s.plane p).lit (py - d) px) ∧
    decodeFirst (0x00D#12 ++ n) = some (.short (.scu n)) ∧
    Redraws (.scu n) s (modeAfterX s) (fun p py px => decide (py + d ≤ 63) && (s.plane p).lit (py + d) px) ∧
    decodeFirst 0x00FB = some (.short .scr) ∧
    Redraws .scr s (modeAfterS s) (fun p py px => decide (e ≤ px) && (s.plane p).lit py (px - e)) ∧
    decodeFirst 0x00FC = some (.short .scl) ∧
    Redraws .scl s (modeAfterS s) (fun p py px => decide (px + e ≤ 127) && (s.plane p).lit py (px + e))

/-- R229, R230, R235: LOW, HIGH and PLANE write their register, leave every cell as it is, and promote (D39, D20; D11). -/
def Obligations.ResolutionAndPlanes : Prop :=
  ∀ s : State,
    decodeFirst 0x00FE = some (.short .low) ∧
    (∃ t, exec .low s = .next t ∧ t.hires = false ∧ t.mode = modeAfterS s ∧ t.pc = s.pc + 2 ∧
      { t with hires := s.hires, mode := s.mode, pc := s.pc } = s ∧ ∀ a, t.byteAt a = s.byteAt a) ∧
    decodeFirst 0x00FF = some (.short .high) ∧
    (∃ t, exec .high s = .next t ∧ t.hires = true ∧ t.mode = modeAfterS s ∧ t.pc = s.pc + 2 ∧
      { t with hires := s.hires, mode := s.mode, pc := s.pc } = s ∧ ∀ a, t.byteAt a = s.byteAt a) ∧
    ∀ n : Nibble,
      (n.toNat ≤ 3 → decodeFirst (0xF#4 ++ n ++ 0x01#8) = some (.short (.plane n)) ∧
        ∃ t, exec (.plane n) s = .next t ∧ t.planesSel.toNat = n.toNat ∧ t.mode = modeAfterX s ∧ t.pc = s.pc + 2 ∧
          { t with planesSel := s.planesSel, mode := s.mode, pc := s.pc } = s ∧ ∀ a, t.byteAt a = s.byteAt a) ∧
      (3 < n.toNat → decodeFirst (0xF#4 ++ n ++ 0x01#8) = none)

/-- R231 to R234: a draw whose sprite bytes lie in program space inverts exactly the covered cells of the selected planes and
leaves the collision in `VF`; `Dxy0` draws 16 by 16 after promotion. With the table of R130 only `XoChip` wraps (D6). -/
def Obligations.DrawXorsTheSprite : Prop :=
  ∀ (x y n : Nibble) (s : State),
    (n ≠ 0 → decodeFirst (0xD#4 ++ x ++ y ++ n) = some (.short (.drw x y n)) ∧
      (InProgram s.regI.toNat n.toNat → DrawsSprite (.drw x y n) s s x y 8 n.toNat)) ∧
    decodeFirst (0xD#4 ++ x ++ y ++ 0x0#4) = some (.short (.drwBig x y)) ∧
    (InProgram s.regI.toNat 32 → DrawsSprite (.drwBig x y) s { s with mode := modeAfterS s } x y 16 16) ∧
    (s.cfg.quirks = standardQuirks → (s.quirk.drawClip = false ↔ s.mode = .xoChip))

/-- R232, R301, R306: when sprite byte j is the first that lies outside program space the draw faults there, and no cell, no
register and not `VF` has changed; `Dxy0` has promoted (D25). -/
def Obligations.DrawFaultsBeforeItDraws : Prop :=
  ∀ (x y n : Nibble) (s : State) (j : Nat), FirstRefused s.regI.toNat j →
    (j < n.toNat → exec (.drw x y n) s = .next (faultedBy s (.memoryAccess (s.regI.toNat + j) .read))) ∧
    (j < 32 → exec (.drwBig x y) s =
      .next (faultedBy { s with mode := modeAfterS s } (.memoryAccess (s.regI.toNat + j) .read)))

/-- R237, from R232 and R233: two draws of the same sprite at the same place restore every plane, and the second reports a
collision if the first lit a cell. R237's own last clause leaves out the "if the first lit a cell"; log entry 25. -/
def Obligations.DrawTwiceRestores : Prop :=
  ∀ (x y n : Nibble) (s : State), x ≠ 0xF → y ≠ 0xF → InProgram s.regI.toNat n.toNat →
    ∃ t u, exec (.drw x y n) s = .next t ∧ exec (.drw x y n) { t with pc := s.pc } = .next u ∧
      u.plane0 = s.plane0 ∧ u.plane1 = s.plane1 ∧
      ((∃ p py px, (s.plane p).lit py px = false ∧ (t.plane p).lit py px = true) → u.getV 0xF = 0x01)

/-! ### Timers, the key wait and audio (spec/45_timers_keypad.md, spec/46_audio.md) -/

/-- R250, R251, R252: reading the delay counter, and writing the two counters (D11, D40). -/
def Obligations.TimerInstructions : Prop :=
  ∀ (x : Nibble) (s : State),
    decodeFirst (0xF#4 ++ x ++ 0x07#8) = some (.short (.ldVxDt x)) ∧
    WritesRegs (.ldVxDt x) s (fun z => if z = x then s.delay else s.getV z) ∧
    decodeFirst (0xF#4 ++ x ++ 0x15#8) = some (.short (.ldDtVx x)) ∧
    (∃ t, exec (.ldDtVx x) s = .next t ∧ t.delay = s.getV x ∧ t.pc = s.pc + 2 ∧
      { t with delay := s.delay, pc := s.pc } = s ∧ ∀ a, t.byteAt a = s.byteAt a) ∧
    decodeFirst (0xF#4 ++ x ++ 0x18#8) = some (.short (.ldStVx x)) ∧
    (∃ t, exec (.ldStVx x) s = .next t ∧ t.sound = s.getV x ∧ t.pc = s.pc + 2 ∧
      { t with sound := s.sound, pc := s.pc } = s ∧ ∀ a, t.byteAt a = s.byteAt a)

/-- R253: `Fx0A` only enters the wait, with no key latched, and `PC` stays (D17). -/
def Obligations.KeyWaitIsEntered : Prop :=
  ∀ (x : Nibble) (s : State),
    decodeFirst (0xF#4 ++ x ++ 0x0A#8) = some (.short (.ldVxKey x)) ∧
    ∃ t, exec (.ldVxKey x) s = .next t ∧ t.cpuState = .awaitingKey x none ∧ t.pc = s.pc ∧
      { t with cpuState := s.cpuState } = s ∧ ∀ a, t.byteAt a = s.byteAt a

/-- R254, R120, R285: the whole of a `CpuTick` in the key wait: the least held key is latched, and the wait ends when the latched key
is seen released (D17). A step at the engine's turn during the wait is exactly such a poll, on the state with `acc_cpu` cleared,
followed by what follows every `CpuTick`: it is counted (R125, R253). -/
def Obligations.KeyWaitPolls : Prop :=
  ∀ (r : Nibble) (s : State),
    (s.cpuState = .awaitingKey r none →
      ((∀ k : Fin 16, s.keys[k] = false) → cpuTick s = .next s) ∧
      (∀ k : Fin 16, s.keys[k] = true → (∀ j : Fin 16, j < k → s.keys[j] = false) →
        cpuTick s = .next { s with cpuState := .awaitingKey r (some (BitVec.ofFin k)) })) ∧
    (∀ k : Fin 16, s.cpuState = .awaitingKey r (some (BitVec.ofFin k)) →
      (s.keys[k] = true → cpuTick s = .next s) ∧
      (s.keys[k] = false → ∃ t, cpuTick s = .next t ∧ (t.getV r).toNat = k.val ∧ (∀ z, z ≠ r → t.getV z = s.getV z) ∧
        t.pc = s.pc + 2 ∧ t.cpuState = .running ∧ { t with v := s.v, pc := s.pc, cpuState := s.cpuState } = s)) ∧
    (∀ k, s.runState = .active → s.turn = .cpu → s.cpuState = .awaitingKey r k →
      ∃ t, cpuTick { s with accCpu := .zero } = .next t ∧ step s = .next t.afterCpuTick)

/-- R257, R258: the timer's step takes 1 from each counter that is not 0 and leaves one at 0 there; afterwards it is the
presenter's turn if its period has passed (R282; the turn is the model's own, log entry 2). -/
def Obligations.TimerTickCountsDown : Prop :=
  ∀ s : State, s.runState = .active → s.turn = .timer →
    ∃ t, step s = .next t ∧ t.delay.toNat = s.delay.toNat - 1 ∧ t.sound.toNat = s.sound.toNat - 1 ∧ t.accTimer = .zero ∧
      t.turn = (if 1 / 60 ≤ s.accPresent.value then .present else .top) ∧
      { t with delay := s.delay, sound := s.sound, accTimer := s.accTimer, turn := s.turn } = s

/-- R260, from R251 and R257: k timer ticks after the delay counter was set to v it holds v less k, and never less than 0; the same
holds of the sound counter. -/
def Obligations.TimersStopAtZero : Prop :=
  ∀ (x : Nibble) (k : Nat) (s : State), ∃ t u, exec (.ldDtVx x) s = .next t ∧ exec (.ldStVx x) s = .next u ∧
    (State.timerTick^[k] t).delay.toNat = (s.getV x).toNat - k ∧
    (State.timerTick^[k] u).sound.toNat = (s.getV x).toNat - k

/-- R265, R123, R306: F002 loads the 16 pattern bytes from `I`; a byte outside program space faults with the pattern as it was.
Class X either way (D11). -/
def Obligations.PatternLoad : Prop :=
  ∀ s : State,
    decodeFirst 0xF002 = some (.short .audio) ∧
    (InProgram s.regI.toNat 16 → ∃ t, exec .audio s = .next t ∧
      (∀ k : Fin 16, t.pattern[k] = s.byteAt (s.regI.toNat + k.val)) ∧ t.mode = modeAfterX s ∧ t.pc = s.pc + 2 ∧
      { t with pattern := s.pattern, mode := s.mode, pc := s.pc } = s ∧ ∀ a, t.byteAt a = s.byteAt a) ∧
    (∀ j < 16, FirstRefused s.regI.toNat j →
      exec .audio s = .next (faultedBy { s with mode := modeAfterX s } (.memoryAccess (s.regI.toNat + j) .read)))

/-- R266, R270: PITCH writes the pitch register and promotes; the rate it stands for is the real number `4000 * 2^((pitch - 64)/4)`,
positive, 4000 at 64, 2000 at 60, 8000 at 68, and doubles with every 4 steps (D11, D33). -/
def Obligations.PitchAndRate : Prop :=
  (∀ (x : Nibble) (s : State),
    decodeFirst (0xF#4 ++ x ++ 0x3A#8) = some (.short (.pitch x)) ∧
    ∃ t, exec (.pitch x) s = .next t ∧ t.pitch = s.getV x ∧ t.mode = modeAfterX s ∧ t.pc = s.pc + 2 ∧
      { t with pitch := s.pitch, mode := s.mode, pc := s.pc } = s ∧ ∀ a, t.byteAt a = s.byteAt a) ∧
  (∀ p : Byte, (playbackRate p).value = 4000 * (2 : ℝ) ^ (((p.toNat : ℝ) - 64) / 4) ∧ 0 < (playbackRate p).value) ∧
  (playbackRate 64).value = 4000 ∧ (playbackRate 60).value = 2000 ∧ (playbackRate 68).value = 8000 ∧
  ∀ p q : Byte, q.toNat = p.toNat + 4 → (playbackRate q).value = 2 * (playbackRate p).value

/-- R271, R272: sample j of a block shows the pattern bit at `floor(phase + j * step) mod 128`, byte 0 first and bit 7 first, and
the phase ends at `phase + n * step` reduced modulo 128; phase and step are real numbers, the step the rate of R270 over the
sampling rate (D33). -/
def Obligations.SamplesFollowThePhase : Prop :=
  ∀ (s : State) (n : Nat) (ph : Surd) (d : ℝ), 0 ≤ ph.value → ph.value < 128 →
    d = 4000 * (2 : ℝ) ^ (((s.pitch.toNat : ℝ) - 64) / 4) / s.cfg.sampleRate →
    (s.generate n ph).1.length = n ∧
    (∀ j < n, ∀ b : Fin 128, (b.val : Int) = ⌊ph.value + j * d⌋ % 128 →
      (s.generate n ph).1[j]? =
        some (if (s.pattern[b.val / 8]'(by omega)).getLsbD (7 - b.val % 8) then s.cfg.ampHigh else s.cfg.ampLow)) ∧
    0 ≤ (s.generate n ph).2.value ∧ (s.generate n ph).2.value < 128 ∧
    ∃ k : Int, (s.generate n ph).2.value = ph.value + n * d - 128 * k

/-! ### Steps (spec/40_engine_cycle.md, spec/47_scheduler.md, spec/60_exceptions.md) -/

/-- R120, R121, R122, R282: where an instruction's bytes stand at `PC` in program space and the engine is about to fetch, the step
runs exactly that instruction, on the state with `acc_cpu` cleared; what follows the tick is `State.afterCpuTick`, of which the next
statement says everything. -/
def Obligations.StepRunsTheDecodedInstruction : Prop :=
  ∀ (i : Instr) (s : State), i.wf = true → s.Fetching → s.Holds i →
    ∃ t, exec i { s with accCpu := .zero } = .next t ∧ step s = .next t.afterCpuTick

/-- R285, R282: a tick that faulted ends the step as it is; a completed one is counted, the tick limit acts when the count reaches
it, and the turn goes on: the timer if its period has passed and the run is still `Active`, else the presenter if its period has
passed, else the next iteration (D30, D32; the turn is the model's own, log entry 2). -/
def Obligations.CompletedTicksAreCounted : Prop :=
  ∀ t : State,
    (t.runState = .faulted → t.afterCpuTick = t) ∧
    (t.runState = .active → ∀ r : RunState,
      r = (if t.cfg.tickLimit = some (t.cpuTicks + 1) then
            (match t.cfg.limitAction with | .pause => .paused | .exit => .exited)
          else .active) →
      t.afterCpuTick = { t with
        cpuTicks := t.cpuTicks + 1, runState := r,
        turn := if r = .active ∧ 1 / 60 ≤ t.accTimer.value then .timer else if 1 / 60 ≤ t.accPresent.value then .present else .top })

/-- R121, R122, R127, R306: the fetch's faults: `PC` below 0x200 or above 0xFFF, `PC` at 0xFFF, and a long form whose second word
passes the end of memory; `PC` and the mode stay (D28). -/
def Obligations.FetchFaults : Prop :=
  ∀ s : State, s.Fetching →
    (s.pc.toNat < 0x200 ∨ 0x1000 ≤ s.pc.toNat →
      step s = .next (faultedBy { s with accCpu := .zero } (.memoryAccess s.pc.toNat .fetch))) ∧
    (s.pc.toNat = 0xFFF → step s = .next (faultedBy { s with accCpu := .zero } (.memoryAccess 0x1000 .fetch))) ∧
    (s.pc.toNat = 0xFFD ∨ s.pc.toNat = 0xFFE → s.byteAt s.pc.toNat = 0xF0 → s.byteAt (s.pc.toNat + 1) = 0x00 →
      step s = .next (faultedBy { s with accCpu := .zero } (.memoryAccess 0x1000 .fetch)))

/-- R305, R104, R306: an illegal word at `PC` faults; nothing was executed and the mode is as it was. -/
def Obligations.IllegalWordFaults : Prop :=
  ∀ (s : State) (op : Word), s.Fetching → 0x200 ≤ s.pc.toNat → s.pc.toNat ≤ 0xFFE →
    op = s.byteAt s.pc.toNat ++ s.byteAt (s.pc.toNat + 1) → IllegalWord op →
    step s = .next (faultedBy { s with accCpu := .zero } (.unknownOpcode op))

/-- R286, R282: a cancellation seen at the top of an iteration ends the run, and changes nothing else but that the input was taken;
it stays. What is taken, the feed or a free value, is the model's own (log entry 6). -/
def Obligations.CancellationEndsTheRun : Prop :=
  ∀ s : State, s.runState = .active ∨ s.runState = .paused → s.turn = .top →
    s.port.cancel = true ∨ s.nextInput.cancel = true →
    ∃ t, step s = .next t ∧ t.runState = .exited ∧ t.port.cancel = true ∧ step t = .fault .exited ∧
      { t with runState := s.runState, port := s.port, feed := s.feed, inputsRead := s.inputsRead } = s

/-- R282, R291, R292, R256: without a cancellation the top of an iteration reads the clock, which has not gone back, takes the
sixteen key levels, adds the time passed to the three accumulators, and gives the turn to the first channel whose period has
passed (D30). The times are real numbers; where none is given in the feed, `dt` is the difference of two readings of the free clock
(the turn, the feed and the numbering of the readings are the model's own, log entries 2, 6 and 10). That all this holds while
`Paused` too, the keys and `last_now` included, is what R282's algorithm says and what the model takes, against the words of R285
that the core state is frozen then: the model's reading, log entry 16. -/
def Obligations.IterationSamplesTheInputs : Prop :=
  ∀ s : State, s.runState = .active ∨ s.runState = .paused → s.turn = .top →
    s.port.cancel = false → s.nextInput.cancel = false →
    ∃ (t : State) (dt : ℝ), step s = .next t ∧ 0 ≤ dt ∧
      (∀ h, s.feed.head? = some h → dt = h.elapsedNum / (h.elapsedDenPred + 1)) ∧
      (s.feed = [] → dt = clockReading (s.inputsRead + 1) - clockReading s.inputsRead) ∧
      t.lastNow.value = s.lastNow.value + dt ∧ t.accCpu.value = s.accCpu.value + dt ∧
      t.accTimer.value = s.accTimer.value + dt ∧ t.accPresent.value = s.accPresent.value + dt ∧
      t.turn = (
        if s.runState = .active ∧ s.cpuPeriod ≤ s.accCpu.value + dt then .cpu
        else if s.runState = .active ∧ 1 / 60 ≤ s.accTimer.value + dt then .timer
        else if 1 / 60 ≤ s.accPresent.value + dt then .present else .top) ∧
      { t with lastNow := s.lastNow, accCpu := s.accCpu, accTimer := s.accTimer, accPresent := s.accPresent, turn := s.turn } =
        { s with port := s.nextInput, feed := s.feed.tail, inputsRead := s.inputsRead + 1, keys := s.nextInput.keys }

/-- R283, R130, R131: the quirks of the four modes, and the period of the engine's channel they give (D5, D6, D31). -/
def Obligations.QuirksAndPeriodOfEachMode : Prop :=
  ∀ s : State, s.cfg.quirks = standardQuirks →
    (s.mode = .unset ∨ s.mode = .chip8 →
      s.quirk = { vfReset := true, shiftSrc := .vy, jumpReg := .v0, memIncrement := true, drawClip := true, cpuRate := .hz 500 } ∧
      s.cpuPeriod = 1 / (500 * s.cfg.speedMultiplier)) ∧
    (s.mode = .superChip →
      s.quirk = { vfReset := false, shiftSrc := .vx, jumpReg := .vHigh, memIncrement := false, drawClip := true,
                  cpuRate := .hz 700 } ∧
      s.cpuPeriod = 1 / (700 * s.cfg.speedMultiplier)) ∧
    (s.mode = .xoChip →
      s.quirk = { vfReset := false, shiftSrc := .vy, jumpReg := .v0, memIncrement := true, drawClip := false,
                  cpuRate := .unbounded } ∧
      s.cpuPeriod = 0)

/-- R236, R287, R293: the presenter's step puts the frame on its port, each entry twice plane 1's cell plus plane 0's, and then
begins the next iteration; where no audio step runs nothing else changes (D30; the record of the port is the model's own, log
entry 12). -/
def Obligations.PresentShowsThePlanes : Prop :=
  ∀ s : State, s.runState = .active ∨ s.runState = .paused → s.turn = .present →
    ∃ (t : State) (f : Frame), step s = .next t ∧ t.out.frame = some f ∧ t.out.frames = s.out.frames + 1 ∧
      (∀ (py : Fin 64) (px : Fin 128),
        (f[py][px]).toNat = 2 * (s.plane1.lit py.val px.val).toNat + (s.plane0.lit py.val px.val).toNat) ∧
      t.accPresent = .zero ∧ t.turn = .top ∧ t.out.flagSave = s.out.flagSave ∧ t.out.flagSaves = s.out.flagSaves ∧
      t.out.audioOpen = s.out.audioOpen ∧
      { t with out := s.out, accPresent := s.accPresent, turn := s.turn, phase := s.phase } = s ∧
      (s.runState = .paused ∨ s.sound = 0 →
        t.phase = s.phase ∧ t.out.samples = s.out.samples ∧ t.out.blocks = s.out.blocks)

/-- R273, R274: while `sound` is not 0 an `Active` presentation makes `floor(SAMPLE_RATE / 60)` samples; the port receives the first
m of them, m at most the headroom, and the phase has moved by the whole block (D33). -/
def Obligations.AudioIsGatedBySound : Prop :=
  ∀ (s : State) (n : Nat), s.runState = .active → s.turn = .present → s.sound ≠ 0 →
    (n : Int) = (s.cfg.sampleRate / 60).floor →
    ∃ (t : State) (m : Nat), step s = .next t ∧ m ≤ n ∧ m ≤ s.port.headroom ∧
      (s.port.accepted ≤ n → s.port.accepted ≤ s.port.headroom → m = s.port.accepted) ∧
      t.out.samples = (s.generate n s.phase).1.take m ∧ t.phase = (s.generate n s.phase).2 ∧
      t.out.blocks = s.out.blocks + 1

/-- R281, R307, R320: the run states: nothing steps in `Faulted` and `Exited`; from `Paused` a step stays or goes to `Exited`, the
latter only at the top of an iteration on a cancellation; every other step answers a next state. -/
def Obligations.RunStatesAndTheirEnds : Prop :=
  ∀ s : State,
    (s.runState = .faulted → step s = .fault (.faulted s.fault)) ∧
    (s.runState = .exited → step s = .fault .exited) ∧
    (s.runState = .active → ∃ t, step s = .next t) ∧
    (s.runState = .paused → ∃ t, step s = .next t ∧
      (t.runState = .paused ∨
        t.runState = .exited ∧ s.turn = .top ∧ (s.port.cancel = true ∨ s.nextInput.cancel = true)))

/-- R285, R257: while `Paused` every step leaves all core state as it is but the clock reading, the sampled keys and the
accumulators (log entry 16), and no sample is made. -/
def Obligations.PausedFreezesTheCore : Prop :=
  ∀ s t : State, s.runState = .paused → step s = .next t →
    { t with
      lastNow := s.lastNow, keys := s.keys, accCpu := s.accCpu, accTimer := s.accTimer, accPresent := s.accPresent,
      runState := s.runState, turn := s.turn, inputsRead := s.inputsRead, feed := s.feed, port := s.port, out := s.out } = s ∧
    { t.out with frame := s.out.frame, frames := s.out.frames } = s.out

/-! ### Rules of the whole machine -/

/-- R123, R128, R129, R132: every well-formed instruction completes or faults with a next state, in every mode; its class alone says
what the mode is afterwards, and a forced mode stays. -/
def Obligations.PromotionFollowsTheClass : Prop :=
  (∀ (i : Instr) (s : State), i.wf = true → ∃ t, exec i s = .next t ∧ t.mode = modeAfter i.gen s ∧
    t.modeForced = s.modeForced ∧ t.cfg = s.cfg) ∧
  ∀ s t : State, step s = .next t →
    modeRank s.mode ≤ modeRank t.mode ∧ (s.modeForced = true → t.mode = s.mode) ∧ t.modeForced = s.modeForced ∧ t.cfg = s.cfg

/-- R23, R27, R28, R33, R34, R37 to R44, R255, R258: over any step, `I`, the stack, `SP`, `delay`, `sound`, the keys and each register
of R37 to R44 change only by the instructions or the unit that the spec names as its writers, and an unselected plane does not
change. -/
def Obligations.SpecialRegistersHaveTheirWriters : Prop :=
  ∀ s t : State, step s = .next t →
    (t.regI ≠ s.regI → ∃ i, s.Runs i ∧ ((∃ a, i = .ldI a) ∨ (∃ a, i = .ldILong a) ∨
      ∃ x, i = .addI x ∨ i = .ldFont x ∨ i = .ldBigFont x ∨ i = .storeRegs x ∨ i = .loadRegs x)) ∧
    (t.stack ≠ s.stack → ∃ a, s.Runs (.call a)) ∧
    (t.sp ≠ s.sp → s.Runs .ret ∨ ∃ a, s.Runs (.call a)) ∧
    (∀ p, t.plane p ≠ s.plane p → s.selected p = true ∧ ∃ i, s.Runs i ∧ (i = .cls ∨ i = .scr ∨ i = .scl ∨
      ∃ x y n, i = .scd n ∨ i = .scu n ∨ i = .drwBig x y ∨ i = .drw x y n)) ∧
    (t.planesSel ≠ s.planesSel → ∃ n, s.Runs (.plane n)) ∧
    (t.hires ≠ s.hires → s.Runs .low ∨ s.Runs .high) ∧
    (t.pattern ≠ s.pattern → s.Runs .audio) ∧
    (t.pitch ≠ s.pitch → ∃ x, s.Runs (.pitch x)) ∧
    (t.flags ≠ s.flags → ∃ x, s.Runs (.saveFlags x)) ∧
    (t.phase ≠ s.phase → s.turn = .present) ∧
    (t.cpuState ≠ s.cpuState → (∃ x, s.Runs (.ldVxKey x) ∧ t.cpuState = .awaitingKey x none) ∨
      (s.runState = .active ∧ s.turn = .cpu ∧ ∃ r k, s.cpuState = .awaitingKey r k ∧
        (t.cpuState = .running ∨ ∃ j, t.cpuState = .awaitingKey r (some j)))) ∧
    (t.delay ≠ s.delay → (s.turn = .timer ∧ t.delay.toNat + 1 = s.delay.toNat) ∨
      ∃ x, s.Runs (.ldDtVx x) ∧ t.delay = s.getV x) ∧
    (t.sound ≠ s.sound → (s.turn = .timer ∧ t.sound.toNat + 1 = s.sound.toNat) ∨
      ∃ x, s.Runs (.ldStVx x) ∧ t.sound = s.getV x) ∧
    (t.keys ≠ s.keys → s.turn = .top)

/-- R61, R63, R211, R73: over any step a byte of memory changes only in program space, and only by `Fx33` or `Fx55`, inside the block
that starts at `I`. -/
def Obligations.MemoryHasTwoWriters : Prop :=
  ∀ (s t : State) (a : Nat), step s = .next t → t.byteAt a ≠ s.byteAt a →
    0x200 ≤ a ∧ a < 0x1000 ∧ s.regI.toNat ≤ a ∧
    ∃ x, (s.Runs (.bcd x) ∧ a < s.regI.toNat + 3) ∨ (s.Runs (.storeRegs x) ∧ a ≤ s.regI.toNat + x.toNat)

/-- R306, R307, R312: a fault that a step raises leaves `PC` at the faulting instruction, a record, and `Faulted`, from which nothing
steps; and but for the block instructions, which keep what they did, and promotion, nothing else has changed. -/
def Obligations.FaultEntry : Prop :=
  ∀ s t : State, s.runState ≠ .faulted → step s = .next t → t.runState = .faulted →
    t.pc = s.pc ∧ (∃ f, t.fault = some f ∧ step t = .fault (.faulted (some f))) ∧
    ((∀ x, ¬s.Runs (.bcd x) ∧ ¬s.Runs (.storeRegs x) ∧ ¬s.Runs (.loadRegs x)) →
      { t with mode := s.mode, fault := s.fault } = { s with accCpu := .zero, runState := .faulted })

/-! ### Reset and the invariant (spec/70_reset_and_hazards.md) -/

/-- The invariant of every run (`State.Inv`): memory canonical and written in program space only, `0 ≤ phase < 128` (R42), a fault
record exactly when `Faulted` (R47), a forced mode as forced (R128), the tick limit not passed (R285), `PC` at its `Fx0A` during a
wait (R24). Every step keeps it, from every state that has it. -/
def Obligations.StepKeepsTheInvariant : Prop := ∀ s t : State, s.Inv → step s = .next t → t.Inv

/-- R49, R331: the state after reset has the invariant, for every configuration R8 allows, and so has the default one. -/
def Obligations.ResetMeetsTheInvariant : Prop :=
  (∀ c : Cfg, cfgValid c = true → (State.init c).Inv) ∧ State.reset.Inv

/-- R49, R331, R335, R336, R337: what reset leaves, register by register and, for memory, region by region. The values are the
spec's, most of them its decisions D1 to D3, D27, D30, D35; `last_now` is the first reading of the free clock (R45, R292; log entry
10), and the host has been told the sampling rate and the sample format (R294's output at reset; the record of the port is the
model's own, log entry 12). -/
def Obligations.ResetValues : Prop :=
  ∀ (c : Cfg) (s : State), s = State.init c → cfgValid c = true → c.rom.length ≤ 0xDFF →
    (∀ x, s.getV x = 0) ∧ s.regI = 0 ∧ s.pc = 0x200 ∧ (∀ k : Fin 16, s.stack[k] = 0) ∧ s.sp = 0 ∧
    (∀ k : Fin 16, s.keys[k] = false) ∧ s.delay = 0 ∧ s.sound = 0 ∧
    s.mode = (match c.forcedMode with
      | .auto => .unset | .chip8 => .chip8 | .superChip => .superChip | .xoChip => .xoChip) ∧
    (s.modeForced = true ↔ c.forcedMode ≠ .auto) ∧ (∀ p py px, (s.plane p).lit py px = false) ∧ s.planesSel = 1 ∧
    s.hires = false ∧ s.pattern = c.patternReset ∧ s.pitch = 64 ∧ s.phase.value = 0 ∧ s.cpuState = .running ∧
    (∀ k : Fin 16, s.flags[k] = match c.flagsInitial with | none => 0 | some f => f[k]) ∧
    (∀ k : Fin 80, c.fontBase + k.val ≠ 0x1FF ∨ c.diagByte = none → s.byteAt (c.fontBase + k.val) = c.fontData[k]) ∧
    (∀ k : Fin 160, c.bigFontBase + k.val ≠ 0x1FF ∨ c.diagByte = none →
      s.byteAt (c.bigFontBase + k.val) = c.bigFontData[k]) ∧
    (∀ b, c.diagByte = some b → s.byteAt 0x1FF = b) ∧
    (∀ a < 0x200, (a < c.fontBase ∨ c.fontBase + 80 ≤ a) → (a < c.bigFontBase ∨ c.bigFontBase + 160 ≤ a) →
      a ≠ 0x1FF ∨ c.diagByte = none → s.byteAt a = 0) ∧
    (∀ (k : Nat) (h : k < c.rom.length), s.byteAt (0x200 + k) = c.rom[k]) ∧
    (∀ a, 0x200 + c.rom.length ≤ a → s.byteAt a = 0) ∧
    s.accCpu.value = 0 ∧ s.accTimer.value = 0 ∧ s.accPresent.value = 0 ∧ s.lastNow.value = clockReading 0 ∧ s.cpuTicks = 0 ∧
    s.runState = .active ∧ s.fault = none ∧
    s.out.audioOpen = some { sampleRate := c.sampleRate, format := .unsigned8Mono }

/-- R334, R308, R65: a ROM longer than 3583 bytes is refused at reset, no byte of it copied, and nothing ever steps; one of 3583
bytes fills 0x200 to 0xFFE and runs. -/
def Obligations.OversizedRomIsRefused : Prop :=
  ∀ (c : Cfg) (s : State), s = State.init c →
    (3583 < c.rom.length → s.fault = some (.romTooLarge c.rom.length) ∧ s.runState = .faulted ∧
      step s = .fault (.faulted s.fault) ∧ ∀ a, 0x200 ≤ a → s.byteAt a = 0) ∧
    (c.rom.length = 3583 → s.fault = none ∧ s.runState = .active ∧ s.byteAt 0xFFF = 0 ∧
      ∀ (k : Nat) (h : k < c.rom.length), s.byteAt (0x200 + k) = c.rom[k])

end Statements
end

