-- ==== Sys2Proof/Laws/State.lean ====
section
/-! SUPPORT. One lemma per field per update of the state, each true by `rfl`, so that no later proof unfolds a record update.
A lemma `f_g` says what field `g` is after the update `f`. -/

namespace Sys2Proof.Machine

variable (s : State)

/-! ### `poke` -/

@[simp] theorem State.poke_v (a : Nat) (b : Byte) : (s.poke a b).v = s.v := rfl
@[simp] theorem State.poke_regI (a : Nat) (b : Byte) : (s.poke a b).regI = s.regI := rfl
@[simp] theorem State.poke_pc (a : Nat) (b : Byte) : (s.poke a b).pc = s.pc := rfl
@[simp] theorem State.poke_stack (a : Nat) (b : Byte) : (s.poke a b).stack = s.stack := rfl
@[simp] theorem State.poke_sp (a : Nat) (b : Byte) : (s.poke a b).sp = s.sp := rfl
@[simp] theorem State.poke_mem (a : Nat) (b : Byte) : (s.poke a b).mem = Memory.put s.cfg s.mem a b := rfl
@[simp] theorem State.poke_keys (a : Nat) (b : Byte) : (s.poke a b).keys = s.keys := rfl
@[simp] theorem State.poke_delay (a : Nat) (b : Byte) : (s.poke a b).delay = s.delay := rfl
@[simp] theorem State.poke_sound (a : Nat) (b : Byte) : (s.poke a b).sound = s.sound := rfl
@[simp] theorem State.poke_mode (a : Nat) (b : Byte) : (s.poke a b).mode = s.mode := rfl
@[simp] theorem State.poke_modeForced (a : Nat) (b : Byte) : (s.poke a b).modeForced = s.modeForced := rfl
@[simp] theorem State.poke_plane0 (a : Nat) (b : Byte) : (s.poke a b).plane0 = s.plane0 := rfl
@[simp] theorem State.poke_plane1 (a : Nat) (b : Byte) : (s.poke a b).plane1 = s.plane1 := rfl
@[simp] theorem State.poke_planesSel (a : Nat) (b : Byte) : (s.poke a b).planesSel = s.planesSel := rfl
@[simp] theorem State.poke_hires (a : Nat) (b : Byte) : (s.poke a b).hires = s.hires := rfl
@[simp] theorem State.poke_pattern (a : Nat) (b : Byte) : (s.poke a b).pattern = s.pattern := rfl
@[simp] theorem State.poke_pitch (a : Nat) (b : Byte) : (s.poke a b).pitch = s.pitch := rfl
@[simp] theorem State.poke_phase (a : Nat) (b : Byte) : (s.poke a b).phase = s.phase := rfl
@[simp] theorem State.poke_cpuState (a : Nat) (b : Byte) : (s.poke a b).cpuState = s.cpuState := rfl
@[simp] theorem State.poke_flags (a : Nat) (b : Byte) : (s.poke a b).flags = s.flags := rfl
@[simp] theorem State.poke_accCpu (a : Nat) (b : Byte) : (s.poke a b).accCpu = s.accCpu := rfl
@[simp] theorem State.poke_accTimer (a : Nat) (b : Byte) : (s.poke a b).accTimer = s.accTimer := rfl
@[simp] theorem State.poke_accPresent (a : Nat) (b : Byte) : (s.poke a b).accPresent = s.accPresent := rfl
@[simp] theorem State.poke_lastNow (a : Nat) (b : Byte) : (s.poke a b).lastNow = s.lastNow := rfl
@[simp] theorem State.poke_cpuTicks (a : Nat) (b : Byte) : (s.poke a b).cpuTicks = s.cpuTicks := rfl
@[simp] theorem State.poke_runState (a : Nat) (b : Byte) : (s.poke a b).runState = s.runState := rfl
@[simp] theorem State.poke_fault (a : Nat) (b : Byte) : (s.poke a b).fault = s.fault := rfl
@[simp] theorem State.poke_cfg (a : Nat) (b : Byte) : (s.poke a b).cfg = s.cfg := rfl
@[simp] theorem State.poke_turn (a : Nat) (b : Byte) : (s.poke a b).turn = s.turn := rfl
@[simp] theorem State.poke_draws (a : Nat) (b : Byte) : (s.poke a b).draws = s.draws := rfl
@[simp] theorem State.poke_inputsRead (a : Nat) (b : Byte) : (s.poke a b).inputsRead = s.inputsRead := rfl
@[simp] theorem State.poke_feed (a : Nat) (b : Byte) : (s.poke a b).feed = s.feed := rfl
@[simp] theorem State.poke_port (a : Nat) (b : Byte) : (s.poke a b).port = s.port := rfl
@[simp] theorem State.poke_out (a : Nat) (b : Byte) : (s.poke a b).out = s.out := rfl

/-! ### `setV` -/

@[simp] theorem State.setV_v (x : Nibble) (b : Byte) : (s.setV x b).v = s.v.set x.toNat b x.isLt := rfl
@[simp] theorem State.setV_regI (x : Nibble) (b : Byte) : (s.setV x b).regI = s.regI := rfl
@[simp] theorem State.setV_pc (x : Nibble) (b : Byte) : (s.setV x b).pc = s.pc := rfl
@[simp] theorem State.setV_stack (x : Nibble) (b : Byte) : (s.setV x b).stack = s.stack := rfl
@[simp] theorem State.setV_sp (x : Nibble) (b : Byte) : (s.setV x b).sp = s.sp := rfl
@[simp] theorem State.setV_mem (x : Nibble) (b : Byte) : (s.setV x b).mem = s.mem := rfl
@[simp] theorem State.setV_keys (x : Nibble) (b : Byte) : (s.setV x b).keys = s.keys := rfl
@[simp] theorem State.setV_delay (x : Nibble) (b : Byte) : (s.setV x b).delay = s.delay := rfl
@[simp] theorem State.setV_sound (x : Nibble) (b : Byte) : (s.setV x b).sound = s.sound := rfl
@[simp] theorem State.setV_mode (x : Nibble) (b : Byte) : (s.setV x b).mode = s.mode := rfl
@[simp] theorem State.setV_modeForced (x : Nibble) (b : Byte) : (s.setV x b).modeForced = s.modeForced := rfl
@[simp] theorem State.setV_plane0 (x : Nibble) (b : Byte) : (s.setV x b).plane0 = s.plane0 := rfl
@[simp] theorem State.setV_plane1 (x : Nibble) (b : Byte) : (s.setV x b).plane1 = s.plane1 := rfl
@[simp] theorem State.setV_planesSel (x : Nibble) (b : Byte) : (s.setV x b).planesSel = s.planesSel := rfl
@[simp] theorem State.setV_hires (x : Nibble) (b : Byte) : (s.setV x b).hires = s.hires := rfl
@[simp] theorem State.setV_pattern (x : Nibble) (b : Byte) : (s.setV x b).pattern = s.pattern := rfl
@[simp] theorem State.setV_pitch (x : Nibble) (b : Byte) : (s.setV x b).pitch = s.pitch := rfl
@[simp] theorem State.setV_phase (x : Nibble) (b : Byte) : (s.setV x b).phase = s.phase := rfl
@[simp] theorem State.setV_cpuState (x : Nibble) (b : Byte) : (s.setV x b).cpuState = s.cpuState := rfl
@[simp] theorem State.setV_flags (x : Nibble) (b : Byte) : (s.setV x b).flags = s.flags := rfl
@[simp] theorem State.setV_accCpu (x : Nibble) (b : Byte) : (s.setV x b).accCpu = s.accCpu := rfl
@[simp] theorem State.setV_accTimer (x : Nibble) (b : Byte) : (s.setV x b).accTimer = s.accTimer := rfl
@[simp] theorem State.setV_accPresent (x : Nibble) (b : Byte) : (s.setV x b).accPresent = s.accPresent := rfl
@[simp] theorem State.setV_lastNow (x : Nibble) (b : Byte) : (s.setV x b).lastNow = s.lastNow := rfl
@[simp] theorem State.setV_cpuTicks (x : Nibble) (b : Byte) : (s.setV x b).cpuTicks = s.cpuTicks := rfl
@[simp] theorem State.setV_runState (x : Nibble) (b : Byte) : (s.setV x b).runState = s.runState := rfl
@[simp] theorem State.setV_fault (x : Nibble) (b : Byte) : (s.setV x b).fault = s.fault := rfl
@[simp] theorem State.setV_cfg (x : Nibble) (b : Byte) : (s.setV x b).cfg = s.cfg := rfl
@[simp] theorem State.setV_turn (x : Nibble) (b : Byte) : (s.setV x b).turn = s.turn := rfl
@[simp] theorem State.setV_draws (x : Nibble) (b : Byte) : (s.setV x b).draws = s.draws := rfl
@[simp] theorem State.setV_inputsRead (x : Nibble) (b : Byte) : (s.setV x b).inputsRead = s.inputsRead := rfl
@[simp] theorem State.setV_feed (x : Nibble) (b : Byte) : (s.setV x b).feed = s.feed := rfl
@[simp] theorem State.setV_port (x : Nibble) (b : Byte) : (s.setV x b).port = s.port := rfl
@[simp] theorem State.setV_out (x : Nibble) (b : Byte) : (s.setV x b).out = s.out := rfl

/-! ### `setAllV` -/

@[simp] theorem State.setAllV_v (w : Vector Byte 16) : (s.setAllV w).v = w := rfl
@[simp] theorem State.setAllV_regI (w : Vector Byte 16) : (s.setAllV w).regI = s.regI := rfl
@[simp] theorem State.setAllV_pc (w : Vector Byte 16) : (s.setAllV w).pc = s.pc := rfl
@[simp] theorem State.setAllV_stack (w : Vector Byte 16) : (s.setAllV w).stack = s.stack := rfl
@[simp] theorem State.setAllV_sp (w : Vector Byte 16) : (s.setAllV w).sp = s.sp := rfl
@[simp] theorem State.setAllV_mem (w : Vector Byte 16) : (s.setAllV w).mem = s.mem := rfl
@[simp] theorem State.setAllV_keys (w : Vector Byte 16) : (s.setAllV w).keys = s.keys := rfl
@[simp] theorem State.setAllV_delay (w : Vector Byte 16) : (s.setAllV w).delay = s.delay := rfl
@[simp] theorem State.setAllV_sound (w : Vector Byte 16) : (s.setAllV w).sound = s.sound := rfl
@[simp] theorem State.setAllV_mode (w : Vector Byte 16) : (s.setAllV w).mode = s.mode := rfl
@[simp] theorem State.setAllV_modeForced (w : Vector Byte 16) : (s.setAllV w).modeForced = s.modeForced := rfl
@[simp] theorem State.setAllV_plane0 (w : Vector Byte 16) : (s.setAllV w).plane0 = s.plane0 := rfl
@[simp] theorem State.setAllV_plane1 (w : Vector Byte 16) : (s.setAllV w).plane1 = s.plane1 := rfl
@[simp] theorem State.setAllV_planesSel (w : Vector Byte 16) : (s.setAllV w).planesSel = s.planesSel := rfl
@[simp] theorem State.setAllV_hires (w : Vector Byte 16) : (s.setAllV w).hires = s.hires := rfl
@[simp] theorem State.setAllV_pattern (w : Vector Byte 16) : (s.setAllV w).pattern = s.pattern := rfl
@[simp] theorem State.setAllV_pitch (w : Vector Byte 16) : (s.setAllV w).pitch = s.pitch := rfl
@[simp] theorem State.setAllV_phase (w : Vector Byte 16) : (s.setAllV w).phase = s.phase := rfl
@[simp] theorem State.setAllV_cpuState (w : Vector Byte 16) : (s.setAllV w).cpuState = s.cpuState := rfl
@[simp] theorem State.setAllV_flags (w : Vector Byte 16) : (s.setAllV w).flags = s.flags := rfl
@[simp] theorem State.setAllV_accCpu (w : Vector Byte 16) : (s.setAllV w).accCpu = s.accCpu := rfl
@[simp] theorem State.setAllV_accTimer (w : Vector Byte 16) : (s.setAllV w).accTimer = s.accTimer := rfl
@[simp] theorem State.setAllV_accPresent (w : Vector Byte 16) : (s.setAllV w).accPresent = s.accPresent := rfl
@[simp] theorem State.setAllV_lastNow (w : Vector Byte 16) : (s.setAllV w).lastNow = s.lastNow := rfl
@[simp] theorem State.setAllV_cpuTicks (w : Vector Byte 16) : (s.setAllV w).cpuTicks = s.cpuTicks := rfl
@[simp] theorem State.setAllV_runState (w : Vector Byte 16) : (s.setAllV w).runState = s.runState := rfl
@[simp] theorem State.setAllV_fault (w : Vector Byte 16) : (s.setAllV w).fault = s.fault := rfl
@[simp] theorem State.setAllV_cfg (w : Vector Byte 16) : (s.setAllV w).cfg = s.cfg := rfl
@[simp] theorem State.setAllV_turn (w : Vector Byte 16) : (s.setAllV w).turn = s.turn := rfl
@[simp] theorem State.setAllV_draws (w : Vector Byte 16) : (s.setAllV w).draws = s.draws := rfl
@[simp] theorem State.setAllV_inputsRead (w : Vector Byte 16) : (s.setAllV w).inputsRead = s.inputsRead := rfl
@[simp] theorem State.setAllV_feed (w : Vector Byte 16) : (s.setAllV w).feed = s.feed := rfl
@[simp] theorem State.setAllV_port (w : Vector Byte 16) : (s.setAllV w).port = s.port := rfl
@[simp] theorem State.setAllV_out (w : Vector Byte 16) : (s.setAllV w).out = s.out := rfl

/-! ### `setI` -/

@[simp] theorem State.setI_v (w : Word) : (s.setI w).v = s.v := rfl
@[simp] theorem State.setI_regI (w : Word) : (s.setI w).regI = w := rfl
@[simp] theorem State.setI_pc (w : Word) : (s.setI w).pc = s.pc := rfl
@[simp] theorem State.setI_stack (w : Word) : (s.setI w).stack = s.stack := rfl
@[simp] theorem State.setI_sp (w : Word) : (s.setI w).sp = s.sp := rfl
@[simp] theorem State.setI_mem (w : Word) : (s.setI w).mem = s.mem := rfl
@[simp] theorem State.setI_keys (w : Word) : (s.setI w).keys = s.keys := rfl
@[simp] theorem State.setI_delay (w : Word) : (s.setI w).delay = s.delay := rfl
@[simp] theorem State.setI_sound (w : Word) : (s.setI w).sound = s.sound := rfl
@[simp] theorem State.setI_mode (w : Word) : (s.setI w).mode = s.mode := rfl
@[simp] theorem State.setI_modeForced (w : Word) : (s.setI w).modeForced = s.modeForced := rfl
@[simp] theorem State.setI_plane0 (w : Word) : (s.setI w).plane0 = s.plane0 := rfl
@[simp] theorem State.setI_plane1 (w : Word) : (s.setI w).plane1 = s.plane1 := rfl
@[simp] theorem State.setI_planesSel (w : Word) : (s.setI w).planesSel = s.planesSel := rfl
@[simp] theorem State.setI_hires (w : Word) : (s.setI w).hires = s.hires := rfl
@[simp] theorem State.setI_pattern (w : Word) : (s.setI w).pattern = s.pattern := rfl
@[simp] theorem State.setI_pitch (w : Word) : (s.setI w).pitch = s.pitch := rfl
@[simp] theorem State.setI_phase (w : Word) : (s.setI w).phase = s.phase := rfl
@[simp] theorem State.setI_cpuState (w : Word) : (s.setI w).cpuState = s.cpuState := rfl
@[simp] theorem State.setI_flags (w : Word) : (s.setI w).flags = s.flags := rfl
@[simp] theorem State.setI_accCpu (w : Word) : (s.setI w).accCpu = s.accCpu := rfl
@[simp] theorem State.setI_accTimer (w : Word) : (s.setI w).accTimer = s.accTimer := rfl
@[simp] theorem State.setI_accPresent (w : Word) : (s.setI w).accPresent = s.accPresent := rfl
@[simp] theorem State.setI_lastNow (w : Word) : (s.setI w).lastNow = s.lastNow := rfl
@[simp] theorem State.setI_cpuTicks (w : Word) : (s.setI w).cpuTicks = s.cpuTicks := rfl
@[simp] theorem State.setI_runState (w : Word) : (s.setI w).runState = s.runState := rfl
@[simp] theorem State.setI_fault (w : Word) : (s.setI w).fault = s.fault := rfl
@[simp] theorem State.setI_cfg (w : Word) : (s.setI w).cfg = s.cfg := rfl
@[simp] theorem State.setI_turn (w : Word) : (s.setI w).turn = s.turn := rfl
@[simp] theorem State.setI_draws (w : Word) : (s.setI w).draws = s.draws := rfl
@[simp] theorem State.setI_inputsRead (w : Word) : (s.setI w).inputsRead = s.inputsRead := rfl
@[simp] theorem State.setI_feed (w : Word) : (s.setI w).feed = s.feed := rfl
@[simp] theorem State.setI_port (w : Word) : (s.setI w).port = s.port := rfl
@[simp] theorem State.setI_out (w : Word) : (s.setI w).out = s.out := rfl

/-! ### `setPc` -/

@[simp] theorem State.setPc_v (w : Word) : (s.setPc w).v = s.v := rfl
@[simp] theorem State.setPc_regI (w : Word) : (s.setPc w).regI = s.regI := rfl
@[simp] theorem State.setPc_pc (w : Word) : (s.setPc w).pc = w := rfl
@[simp] theorem State.setPc_stack (w : Word) : (s.setPc w).stack = s.stack := rfl
@[simp] theorem State.setPc_sp (w : Word) : (s.setPc w).sp = s.sp := rfl
@[simp] theorem State.setPc_mem (w : Word) : (s.setPc w).mem = s.mem := rfl
@[simp] theorem State.setPc_keys (w : Word) : (s.setPc w).keys = s.keys := rfl
@[simp] theorem State.setPc_delay (w : Word) : (s.setPc w).delay = s.delay := rfl
@[simp] theorem State.setPc_sound (w : Word) : (s.setPc w).sound = s.sound := rfl
@[simp] theorem State.setPc_mode (w : Word) : (s.setPc w).mode = s.mode := rfl
@[simp] theorem State.setPc_modeForced (w : Word) : (s.setPc w).modeForced = s.modeForced := rfl
@[simp] theorem State.setPc_plane0 (w : Word) : (s.setPc w).plane0 = s.plane0 := rfl
@[simp] theorem State.setPc_plane1 (w : Word) : (s.setPc w).plane1 = s.plane1 := rfl
@[simp] theorem State.setPc_planesSel (w : Word) : (s.setPc w).planesSel = s.planesSel := rfl
@[simp] theorem State.setPc_hires (w : Word) : (s.setPc w).hires = s.hires := rfl
@[simp] theorem State.setPc_pattern (w : Word) : (s.setPc w).pattern = s.pattern := rfl
@[simp] theorem State.setPc_pitch (w : Word) : (s.setPc w).pitch = s.pitch := rfl
@[simp] theorem State.setPc_phase (w : Word) : (s.setPc w).phase = s.phase := rfl
@[simp] theorem State.setPc_cpuState (w : Word) : (s.setPc w).cpuState = s.cpuState := rfl
@[simp] theorem State.setPc_flags (w : Word) : (s.setPc w).flags = s.flags := rfl
@[simp] theorem State.setPc_accCpu (w : Word) : (s.setPc w).accCpu = s.accCpu := rfl
@[simp] theorem State.setPc_accTimer (w : Word) : (s.setPc w).accTimer = s.accTimer := rfl
@[simp] theorem State.setPc_accPresent (w : Word) : (s.setPc w).accPresent = s.accPresent := rfl
@[simp] theorem State.setPc_lastNow (w : Word) : (s.setPc w).lastNow = s.lastNow := rfl
@[simp] theorem State.setPc_cpuTicks (w : Word) : (s.setPc w).cpuTicks = s.cpuTicks := rfl
@[simp] theorem State.setPc_runState (w : Word) : (s.setPc w).runState = s.runState := rfl
@[simp] theorem State.setPc_fault (w : Word) : (s.setPc w).fault = s.fault := rfl
@[simp] theorem State.setPc_cfg (w : Word) : (s.setPc w).cfg = s.cfg := rfl
@[simp] theorem State.setPc_turn (w : Word) : (s.setPc w).turn = s.turn := rfl
@[simp] theorem State.setPc_draws (w : Word) : (s.setPc w).draws = s.draws := rfl
@[simp] theorem State.setPc_inputsRead (w : Word) : (s.setPc w).inputsRead = s.inputsRead := rfl
@[simp] theorem State.setPc_feed (w : Word) : (s.setPc w).feed = s.feed := rfl
@[simp] theorem State.setPc_port (w : Word) : (s.setPc w).port = s.port := rfl
@[simp] theorem State.setPc_out (w : Word) : (s.setPc w).out = s.out := rfl

/-! ### `advance` -/

@[simp] theorem State.advance_v : s.advance.v = s.v := rfl
@[simp] theorem State.advance_regI : s.advance.regI = s.regI := rfl
@[simp] theorem State.advance_pc : s.advance.pc = s.pc + 2 := rfl
@[simp] theorem State.advance_stack : s.advance.stack = s.stack := rfl
@[simp] theorem State.advance_sp : s.advance.sp = s.sp := rfl
@[simp] theorem State.advance_mem : s.advance.mem = s.mem := rfl
@[simp] theorem State.advance_keys : s.advance.keys = s.keys := rfl
@[simp] theorem State.advance_delay : s.advance.delay = s.delay := rfl
@[simp] theorem State.advance_sound : s.advance.sound = s.sound := rfl
@[simp] theorem State.advance_mode : s.advance.mode = s.mode := rfl
@[simp] theorem State.advance_modeForced : s.advance.modeForced = s.modeForced := rfl
@[simp] theorem State.advance_plane0 : s.advance.plane0 = s.plane0 := rfl
@[simp] theorem State.advance_plane1 : s.advance.plane1 = s.plane1 := rfl
@[simp] theorem State.advance_planesSel : s.advance.planesSel = s.planesSel := rfl
@[simp] theorem State.advance_hires : s.advance.hires = s.hires := rfl
@[simp] theorem State.advance_pattern : s.advance.pattern = s.pattern := rfl
@[simp] theorem State.advance_pitch : s.advance.pitch = s.pitch := rfl
@[simp] theorem State.advance_phase : s.advance.phase = s.phase := rfl
@[simp] theorem State.advance_cpuState : s.advance.cpuState = s.cpuState := rfl
@[simp] theorem State.advance_flags : s.advance.flags = s.flags := rfl
@[simp] theorem State.advance_accCpu : s.advance.accCpu = s.accCpu := rfl
@[simp] theorem State.advance_accTimer : s.advance.accTimer = s.accTimer := rfl
@[simp] theorem State.advance_accPresent : s.advance.accPresent = s.accPresent := rfl
@[simp] theorem State.advance_lastNow : s.advance.lastNow = s.lastNow := rfl
@[simp] theorem State.advance_cpuTicks : s.advance.cpuTicks = s.cpuTicks := rfl
@[simp] theorem State.advance_runState : s.advance.runState = s.runState := rfl
@[simp] theorem State.advance_fault : s.advance.fault = s.fault := rfl
@[simp] theorem State.advance_cfg : s.advance.cfg = s.cfg := rfl
@[simp] theorem State.advance_turn : s.advance.turn = s.turn := rfl
@[simp] theorem State.advance_draws : s.advance.draws = s.draws := rfl
@[simp] theorem State.advance_inputsRead : s.advance.inputsRead = s.inputsRead := rfl
@[simp] theorem State.advance_feed : s.advance.feed = s.feed := rfl
@[simp] theorem State.advance_port : s.advance.port = s.port := rfl
@[simp] theorem State.advance_out : s.advance.out = s.out := rfl

/-! ### `setDelay` -/

@[simp] theorem State.setDelay_v (b : Byte) : (s.setDelay b).v = s.v := rfl
@[simp] theorem State.setDelay_regI (b : Byte) : (s.setDelay b).regI = s.regI := rfl
@[simp] theorem State.setDelay_pc (b : Byte) : (s.setDelay b).pc = s.pc := rfl
@[simp] theorem State.setDelay_stack (b : Byte) : (s.setDelay b).stack = s.stack := rfl
@[simp] theorem State.setDelay_sp (b : Byte) : (s.setDelay b).sp = s.sp := rfl
@[simp] theorem State.setDelay_mem (b : Byte) : (s.setDelay b).mem = s.mem := rfl
@[simp] theorem State.setDelay_keys (b : Byte) : (s.setDelay b).keys = s.keys := rfl
@[simp] theorem State.setDelay_delay (b : Byte) : (s.setDelay b).delay = b := rfl
@[simp] theorem State.setDelay_sound (b : Byte) : (s.setDelay b).sound = s.sound := rfl
@[simp] theorem State.setDelay_mode (b : Byte) : (s.setDelay b).mode = s.mode := rfl
@[simp] theorem State.setDelay_modeForced (b : Byte) : (s.setDelay b).modeForced = s.modeForced := rfl
@[simp] theorem State.setDelay_plane0 (b : Byte) : (s.setDelay b).plane0 = s.plane0 := rfl
@[simp] theorem State.setDelay_plane1 (b : Byte) : (s.setDelay b).plane1 = s.plane1 := rfl
@[simp] theorem State.setDelay_planesSel (b : Byte) : (s.setDelay b).planesSel = s.planesSel := rfl
@[simp] theorem State.setDelay_hires (b : Byte) : (s.setDelay b).hires = s.hires := rfl
@[simp] theorem State.setDelay_pattern (b : Byte) : (s.setDelay b).pattern = s.pattern := rfl
@[simp] theorem State.setDelay_pitch (b : Byte) : (s.setDelay b).pitch = s.pitch := rfl
@[simp] theorem State.setDelay_phase (b : Byte) : (s.setDelay b).phase = s.phase := rfl
@[simp] theorem State.setDelay_cpuState (b : Byte) : (s.setDelay b).cpuState = s.cpuState := rfl
@[simp] theorem State.setDelay_flags (b : Byte) : (s.setDelay b).flags = s.flags := rfl
@[simp] theorem State.setDelay_accCpu (b : Byte) : (s.setDelay b).accCpu = s.accCpu := rfl
@[simp] theorem State.setDelay_accTimer (b : Byte) : (s.setDelay b).accTimer = s.accTimer := rfl
@[simp] theorem State.setDelay_accPresent (b : Byte) : (s.setDelay b).accPresent = s.accPresent := rfl
@[simp] theorem State.setDelay_lastNow (b : Byte) : (s.setDelay b).lastNow = s.lastNow := rfl
@[simp] theorem State.setDelay_cpuTicks (b : Byte) : (s.setDelay b).cpuTicks = s.cpuTicks := rfl
@[simp] theorem State.setDelay_runState (b : Byte) : (s.setDelay b).runState = s.runState := rfl
@[simp] theorem State.setDelay_fault (b : Byte) : (s.setDelay b).fault = s.fault := rfl
@[simp] theorem State.setDelay_cfg (b : Byte) : (s.setDelay b).cfg = s.cfg := rfl
@[simp] theorem State.setDelay_turn (b : Byte) : (s.setDelay b).turn = s.turn := rfl
@[simp] theorem State.setDelay_draws (b : Byte) : (s.setDelay b).draws = s.draws := rfl
@[simp] theorem State.setDelay_inputsRead (b : Byte) : (s.setDelay b).inputsRead = s.inputsRead := rfl
@[simp] theorem State.setDelay_feed (b : Byte) : (s.setDelay b).feed = s.feed := rfl
@[simp] theorem State.setDelay_port (b : Byte) : (s.setDelay b).port = s.port := rfl
@[simp] theorem State.setDelay_out (b : Byte) : (s.setDelay b).out = s.out := rfl

/-! ### `setSound` -/

@[simp] theorem State.setSound_v (b : Byte) : (s.setSound b).v = s.v := rfl
@[simp] theorem State.setSound_regI (b : Byte) : (s.setSound b).regI = s.regI := rfl
@[simp] theorem State.setSound_pc (b : Byte) : (s.setSound b).pc = s.pc := rfl
@[simp] theorem State.setSound_stack (b : Byte) : (s.setSound b).stack = s.stack := rfl
@[simp] theorem State.setSound_sp (b : Byte) : (s.setSound b).sp = s.sp := rfl
@[simp] theorem State.setSound_mem (b : Byte) : (s.setSound b).mem = s.mem := rfl
@[simp] theorem State.setSound_keys (b : Byte) : (s.setSound b).keys = s.keys := rfl
@[simp] theorem State.setSound_delay (b : Byte) : (s.setSound b).delay = s.delay := rfl
@[simp] theorem State.setSound_sound (b : Byte) : (s.setSound b).sound = b := rfl
@[simp] theorem State.setSound_mode (b : Byte) : (s.setSound b).mode = s.mode := rfl
@[simp] theorem State.setSound_modeForced (b : Byte) : (s.setSound b).modeForced = s.modeForced := rfl
@[simp] theorem State.setSound_plane0 (b : Byte) : (s.setSound b).plane0 = s.plane0 := rfl
@[simp] theorem State.setSound_plane1 (b : Byte) : (s.setSound b).plane1 = s.plane1 := rfl
@[simp] theorem State.setSound_planesSel (b : Byte) : (s.setSound b).planesSel = s.planesSel := rfl
@[simp] theorem State.setSound_hires (b : Byte) : (s.setSound b).hires = s.hires := rfl
@[simp] theorem State.setSound_pattern (b : Byte) : (s.setSound b).pattern = s.pattern := rfl
@[simp] theorem State.setSound_pitch (b : Byte) : (s.setSound b).pitch = s.pitch := rfl
@[simp] theorem State.setSound_phase (b : Byte) : (s.setSound b).phase = s.phase := rfl
@[simp] theorem State.setSound_cpuState (b : Byte) : (s.setSound b).cpuState = s.cpuState := rfl
@[simp] theorem State.setSound_flags (b : Byte) : (s.setSound b).flags = s.flags := rfl
@[simp] theorem State.setSound_accCpu (b : Byte) : (s.setSound b).accCpu = s.accCpu := rfl
@[simp] theorem State.setSound_accTimer (b : Byte) : (s.setSound b).accTimer = s.accTimer := rfl
@[simp] theorem State.setSound_accPresent (b : Byte) : (s.setSound b).accPresent = s.accPresent := rfl
@[simp] theorem State.setSound_lastNow (b : Byte) : (s.setSound b).lastNow = s.lastNow := rfl
@[simp] theorem State.setSound_cpuTicks (b : Byte) : (s.setSound b).cpuTicks = s.cpuTicks := rfl
@[simp] theorem State.setSound_runState (b : Byte) : (s.setSound b).runState = s.runState := rfl
@[simp] theorem State.setSound_fault (b : Byte) : (s.setSound b).fault = s.fault := rfl
@[simp] theorem State.setSound_cfg (b : Byte) : (s.setSound b).cfg = s.cfg := rfl
@[simp] theorem State.setSound_turn (b : Byte) : (s.setSound b).turn = s.turn := rfl
@[simp] theorem State.setSound_draws (b : Byte) : (s.setSound b).draws = s.draws := rfl
@[simp] theorem State.setSound_inputsRead (b : Byte) : (s.setSound b).inputsRead = s.inputsRead := rfl
@[simp] theorem State.setSound_feed (b : Byte) : (s.setSound b).feed = s.feed := rfl
@[simp] theorem State.setSound_port (b : Byte) : (s.setSound b).port = s.port := rfl
@[simp] theorem State.setSound_out (b : Byte) : (s.setSound b).out = s.out := rfl

/-! ### `setPlanes` -/

@[simp] theorem State.setPlanes_v (p q : Plane) : (s.setPlanes p q).v = s.v := rfl
@[simp] theorem State.setPlanes_regI (p q : Plane) : (s.setPlanes p q).regI = s.regI := rfl
@[simp] theorem State.setPlanes_pc (p q : Plane) : (s.setPlanes p q).pc = s.pc := rfl
@[simp] theorem State.setPlanes_stack (p q : Plane) : (s.setPlanes p q).stack = s.stack := rfl
@[simp] theorem State.setPlanes_sp (p q : Plane) : (s.setPlanes p q).sp = s.sp := rfl
@[simp] theorem State.setPlanes_mem (p q : Plane) : (s.setPlanes p q).mem = s.mem := rfl
@[simp] theorem State.setPlanes_keys (p q : Plane) : (s.setPlanes p q).keys = s.keys := rfl
@[simp] theorem State.setPlanes_delay (p q : Plane) : (s.setPlanes p q).delay = s.delay := rfl
@[simp] theorem State.setPlanes_sound (p q : Plane) : (s.setPlanes p q).sound = s.sound := rfl
@[simp] theorem State.setPlanes_mode (p q : Plane) : (s.setPlanes p q).mode = s.mode := rfl
@[simp] theorem State.setPlanes_modeForced (p q : Plane) : (s.setPlanes p q).modeForced = s.modeForced := rfl
@[simp] theorem State.setPlanes_plane0 (p q : Plane) : (s.setPlanes p q).plane0 = p := rfl
@[simp] theorem State.setPlanes_plane1 (p q : Plane) : (s.setPlanes p q).plane1 = q := rfl
@[simp] theorem State.setPlanes_planesSel (p q : Plane) : (s.setPlanes p q).planesSel = s.planesSel := rfl
@[simp] theorem State.setPlanes_hires (p q : Plane) : (s.setPlanes p q).hires = s.hires := rfl
@[simp] theorem State.setPlanes_pattern (p q : Plane) : (s.setPlanes p q).pattern = s.pattern := rfl
@[simp] theorem State.setPlanes_pitch (p q : Plane) : (s.setPlanes p q).pitch = s.pitch := rfl
@[simp] theorem State.setPlanes_phase (p q : Plane) : (s.setPlanes p q).phase = s.phase := rfl
@[simp] theorem State.setPlanes_cpuState (p q : Plane) : (s.setPlanes p q).cpuState = s.cpuState := rfl
@[simp] theorem State.setPlanes_flags (p q : Plane) : (s.setPlanes p q).flags = s.flags := rfl
@[simp] theorem State.setPlanes_accCpu (p q : Plane) : (s.setPlanes p q).accCpu = s.accCpu := rfl
@[simp] theorem State.setPlanes_accTimer (p q : Plane) : (s.setPlanes p q).accTimer = s.accTimer := rfl
@[simp] theorem State.setPlanes_accPresent (p q : Plane) : (s.setPlanes p q).accPresent = s.accPresent := rfl
@[simp] theorem State.setPlanes_lastNow (p q : Plane) : (s.setPlanes p q).lastNow = s.lastNow := rfl
@[simp] theorem State.setPlanes_cpuTicks (p q : Plane) : (s.setPlanes p q).cpuTicks = s.cpuTicks := rfl
@[simp] theorem State.setPlanes_runState (p q : Plane) : (s.setPlanes p q).runState = s.runState := rfl
@[simp] theorem State.setPlanes_fault (p q : Plane) : (s.setPlanes p q).fault = s.fault := rfl
@[simp] theorem State.setPlanes_cfg (p q : Plane) : (s.setPlanes p q).cfg = s.cfg := rfl
@[simp] theorem State.setPlanes_turn (p q : Plane) : (s.setPlanes p q).turn = s.turn := rfl
@[simp] theorem State.setPlanes_draws (p q : Plane) : (s.setPlanes p q).draws = s.draws := rfl
@[simp] theorem State.setPlanes_inputsRead (p q : Plane) : (s.setPlanes p q).inputsRead = s.inputsRead := rfl
@[simp] theorem State.setPlanes_feed (p q : Plane) : (s.setPlanes p q).feed = s.feed := rfl
@[simp] theorem State.setPlanes_port (p q : Plane) : (s.setPlanes p q).port = s.port := rfl
@[simp] theorem State.setPlanes_out (p q : Plane) : (s.setPlanes p q).out = s.out := rfl

/-! ### `setPlanesSel` -/

@[simp] theorem State.setPlanesSel_v (m : BitVec 2) : (s.setPlanesSel m).v = s.v := rfl
@[simp] theorem State.setPlanesSel_regI (m : BitVec 2) : (s.setPlanesSel m).regI = s.regI := rfl
@[simp] theorem State.setPlanesSel_pc (m : BitVec 2) : (s.setPlanesSel m).pc = s.pc := rfl
@[simp] theorem State.setPlanesSel_stack (m : BitVec 2) : (s.setPlanesSel m).stack = s.stack := rfl
@[simp] theorem State.setPlanesSel_sp (m : BitVec 2) : (s.setPlanesSel m).sp = s.sp := rfl
@[simp] theorem State.setPlanesSel_mem (m : BitVec 2) : (s.setPlanesSel m).mem = s.mem := rfl
@[simp] theorem State.setPlanesSel_keys (m : BitVec 2) : (s.setPlanesSel m).keys = s.keys := rfl
@[simp] theorem State.setPlanesSel_delay (m : BitVec 2) : (s.setPlanesSel m).delay = s.delay := rfl
@[simp] theorem State.setPlanesSel_sound (m : BitVec 2) : (s.setPlanesSel m).sound = s.sound := rfl
@[simp] theorem State.setPlanesSel_mode (m : BitVec 2) : (s.setPlanesSel m).mode = s.mode := rfl
@[simp] theorem State.setPlanesSel_modeForced (m : BitVec 2) : (s.setPlanesSel m).modeForced = s.modeForced := rfl
@[simp] theorem State.setPlanesSel_plane0 (m : BitVec 2) : (s.setPlanesSel m).plane0 = s.plane0 := rfl
@[simp] theorem State.setPlanesSel_plane1 (m : BitVec 2) : (s.setPlanesSel m).plane1 = s.plane1 := rfl
@[simp] theorem State.setPlanesSel_planesSel (m : BitVec 2) : (s.setPlanesSel m).planesSel = m := rfl
@[simp] theorem State.setPlanesSel_hires (m : BitVec 2) : (s.setPlanesSel m).hires = s.hires := rfl
@[simp] theorem State.setPlanesSel_pattern (m : BitVec 2) : (s.setPlanesSel m).pattern = s.pattern := rfl
@[simp] theorem State.setPlanesSel_pitch (m : BitVec 2) : (s.setPlanesSel m).pitch = s.pitch := rfl
@[simp] theorem State.setPlanesSel_phase (m : BitVec 2) : (s.setPlanesSel m).phase = s.phase := rfl
@[simp] theorem State.setPlanesSel_cpuState (m : BitVec 2) : (s.setPlanesSel m).cpuState = s.cpuState := rfl
@[simp] theorem State.setPlanesSel_flags (m : BitVec 2) : (s.setPlanesSel m).flags = s.flags := rfl
@[simp] theorem State.setPlanesSel_accCpu (m : BitVec 2) : (s.setPlanesSel m).accCpu = s.accCpu := rfl
@[simp] theorem State.setPlanesSel_accTimer (m : BitVec 2) : (s.setPlanesSel m).accTimer = s.accTimer := rfl
@[simp] theorem State.setPlanesSel_accPresent (m : BitVec 2) : (s.setPlanesSel m).accPresent = s.accPresent := rfl
@[simp] theorem State.setPlanesSel_lastNow (m : BitVec 2) : (s.setPlanesSel m).lastNow = s.lastNow := rfl
@[simp] theorem State.setPlanesSel_cpuTicks (m : BitVec 2) : (s.setPlanesSel m).cpuTicks = s.cpuTicks := rfl
@[simp] theorem State.setPlanesSel_runState (m : BitVec 2) : (s.setPlanesSel m).runState = s.runState := rfl
@[simp] theorem State.setPlanesSel_fault (m : BitVec 2) : (s.setPlanesSel m).fault = s.fault := rfl
@[simp] theorem State.setPlanesSel_cfg (m : BitVec 2) : (s.setPlanesSel m).cfg = s.cfg := rfl
@[simp] theorem State.setPlanesSel_turn (m : BitVec 2) : (s.setPlanesSel m).turn = s.turn := rfl
@[simp] theorem State.setPlanesSel_draws (m : BitVec 2) : (s.setPlanesSel m).draws = s.draws := rfl
@[simp] theorem State.setPlanesSel_inputsRead (m : BitVec 2) : (s.setPlanesSel m).inputsRead = s.inputsRead := rfl
@[simp] theorem State.setPlanesSel_feed (m : BitVec 2) : (s.setPlanesSel m).feed = s.feed := rfl
@[simp] theorem State.setPlanesSel_port (m : BitVec 2) : (s.setPlanesSel m).port = s.port := rfl
@[simp] theorem State.setPlanesSel_out (m : BitVec 2) : (s.setPlanesSel m).out = s.out := rfl

/-! ### `setHires` -/

@[simp] theorem State.setHires_v (b : Bool) : (s.setHires b).v = s.v := rfl
@[simp] theorem State.setHires_regI (b : Bool) : (s.setHires b).regI = s.regI := rfl
@[simp] theorem State.setHires_pc (b : Bool) : (s.setHires b).pc = s.pc := rfl
@[simp] theorem State.setHires_stack (b : Bool) : (s.setHires b).stack = s.stack := rfl
@[simp] theorem State.setHires_sp (b : Bool) : (s.setHires b).sp = s.sp := rfl
@[simp] theorem State.setHires_mem (b : Bool) : (s.setHires b).mem = s.mem := rfl
@[simp] theorem State.setHires_keys (b : Bool) : (s.setHires b).keys = s.keys := rfl
@[simp] theorem State.setHires_delay (b : Bool) : (s.setHires b).delay = s.delay := rfl
@[simp] theorem State.setHires_sound (b : Bool) : (s.setHires b).sound = s.sound := rfl
@[simp] theorem State.setHires_mode (b : Bool) : (s.setHires b).mode = s.mode := rfl
@[simp] theorem State.setHires_modeForced (b : Bool) : (s.setHires b).modeForced = s.modeForced := rfl
@[simp] theorem State.setHires_plane0 (b : Bool) : (s.setHires b).plane0 = s.plane0 := rfl
@[simp] theorem State.setHires_plane1 (b : Bool) : (s.setHires b).plane1 = s.plane1 := rfl
@[simp] theorem State.setHires_planesSel (b : Bool) : (s.setHires b).planesSel = s.planesSel := rfl
@[simp] theorem State.setHires_hires (b : Bool) : (s.setHires b).hires = b := rfl
@[simp] theorem State.setHires_pattern (b : Bool) : (s.setHires b).pattern = s.pattern := rfl
@[simp] theorem State.setHires_pitch (b : Bool) : (s.setHires b).pitch = s.pitch := rfl
@[simp] theorem State.setHires_phase (b : Bool) : (s.setHires b).phase = s.phase := rfl
@[simp] theorem State.setHires_cpuState (b : Bool) : (s.setHires b).cpuState = s.cpuState := rfl
@[simp] theorem State.setHires_flags (b : Bool) : (s.setHires b).flags = s.flags := rfl
@[simp] theorem State.setHires_accCpu (b : Bool) : (s.setHires b).accCpu = s.accCpu := rfl
@[simp] theorem State.setHires_accTimer (b : Bool) : (s.setHires b).accTimer = s.accTimer := rfl
@[simp] theorem State.setHires_accPresent (b : Bool) : (s.setHires b).accPresent = s.accPresent := rfl
@[simp] theorem State.setHires_lastNow (b : Bool) : (s.setHires b).lastNow = s.lastNow := rfl
@[simp] theorem State.setHires_cpuTicks (b : Bool) : (s.setHires b).cpuTicks = s.cpuTicks := rfl
@[simp] theorem State.setHires_runState (b : Bool) : (s.setHires b).runState = s.runState := rfl
@[simp] theorem State.setHires_fault (b : Bool) : (s.setHires b).fault = s.fault := rfl
@[simp] theorem State.setHires_cfg (b : Bool) : (s.setHires b).cfg = s.cfg := rfl
@[simp] theorem State.setHires_turn (b : Bool) : (s.setHires b).turn = s.turn := rfl
@[simp] theorem State.setHires_draws (b : Bool) : (s.setHires b).draws = s.draws := rfl
@[simp] theorem State.setHires_inputsRead (b : Bool) : (s.setHires b).inputsRead = s.inputsRead := rfl
@[simp] theorem State.setHires_feed (b : Bool) : (s.setHires b).feed = s.feed := rfl
@[simp] theorem State.setHires_port (b : Bool) : (s.setHires b).port = s.port := rfl
@[simp] theorem State.setHires_out (b : Bool) : (s.setHires b).out = s.out := rfl

/-! ### `setPattern` -/

@[simp] theorem State.setPattern_v (p : Vector Byte 16) : (s.setPattern p).v = s.v := rfl
@[simp] theorem State.setPattern_regI (p : Vector Byte 16) : (s.setPattern p).regI = s.regI := rfl
@[simp] theorem State.setPattern_pc (p : Vector Byte 16) : (s.setPattern p).pc = s.pc := rfl
@[simp] theorem State.setPattern_stack (p : Vector Byte 16) : (s.setPattern p).stack = s.stack := rfl
@[simp] theorem State.setPattern_sp (p : Vector Byte 16) : (s.setPattern p).sp = s.sp := rfl
@[simp] theorem State.setPattern_mem (p : Vector Byte 16) : (s.setPattern p).mem = s.mem := rfl
@[simp] theorem State.setPattern_keys (p : Vector Byte 16) : (s.setPattern p).keys = s.keys := rfl
@[simp] theorem State.setPattern_delay (p : Vector Byte 16) : (s.setPattern p).delay = s.delay := rfl
@[simp] theorem State.setPattern_sound (p : Vector Byte 16) : (s.setPattern p).sound = s.sound := rfl
@[simp] theorem State.setPattern_mode (p : Vector Byte 16) : (s.setPattern p).mode = s.mode := rfl
@[simp] theorem State.setPattern_modeForced (p : Vector Byte 16) : (s.setPattern p).modeForced = s.modeForced := rfl
@[simp] theorem State.setPattern_plane0 (p : Vector Byte 16) : (s.setPattern p).plane0 = s.plane0 := rfl
@[simp] theorem State.setPattern_plane1 (p : Vector Byte 16) : (s.setPattern p).plane1 = s.plane1 := rfl
@[simp] theorem State.setPattern_planesSel (p : Vector Byte 16) : (s.setPattern p).planesSel = s.planesSel := rfl
@[simp] theorem State.setPattern_hires (p : Vector Byte 16) : (s.setPattern p).hires = s.hires := rfl
@[simp] theorem State.setPattern_pattern (p : Vector Byte 16) : (s.setPattern p).pattern = p := rfl
@[simp] theorem State.setPattern_pitch (p : Vector Byte 16) : (s.setPattern p).pitch = s.pitch := rfl
@[simp] theorem State.setPattern_phase (p : Vector Byte 16) : (s.setPattern p).phase = s.phase := rfl
@[simp] theorem State.setPattern_cpuState (p : Vector Byte 16) : (s.setPattern p).cpuState = s.cpuState := rfl
@[simp] theorem State.setPattern_flags (p : Vector Byte 16) : (s.setPattern p).flags = s.flags := rfl
@[simp] theorem State.setPattern_accCpu (p : Vector Byte 16) : (s.setPattern p).accCpu = s.accCpu := rfl
@[simp] theorem State.setPattern_accTimer (p : Vector Byte 16) : (s.setPattern p).accTimer = s.accTimer := rfl
@[simp] theorem State.setPattern_accPresent (p : Vector Byte 16) : (s.setPattern p).accPresent = s.accPresent := rfl
@[simp] theorem State.setPattern_lastNow (p : Vector Byte 16) : (s.setPattern p).lastNow = s.lastNow := rfl
@[simp] theorem State.setPattern_cpuTicks (p : Vector Byte 16) : (s.setPattern p).cpuTicks = s.cpuTicks := rfl
@[simp] theorem State.setPattern_runState (p : Vector Byte 16) : (s.setPattern p).runState = s.runState := rfl
@[simp] theorem State.setPattern_fault (p : Vector Byte 16) : (s.setPattern p).fault = s.fault := rfl
@[simp] theorem State.setPattern_cfg (p : Vector Byte 16) : (s.setPattern p).cfg = s.cfg := rfl
@[simp] theorem State.setPattern_turn (p : Vector Byte 16) : (s.setPattern p).turn = s.turn := rfl
@[simp] theorem State.setPattern_draws (p : Vector Byte 16) : (s.setPattern p).draws = s.draws := rfl
@[simp] theorem State.setPattern_inputsRead (p : Vector Byte 16) : (s.setPattern p).inputsRead = s.inputsRead := rfl
@[simp] theorem State.setPattern_feed (p : Vector Byte 16) : (s.setPattern p).feed = s.feed := rfl
@[simp] theorem State.setPattern_port (p : Vector Byte 16) : (s.setPattern p).port = s.port := rfl
@[simp] theorem State.setPattern_out (p : Vector Byte 16) : (s.setPattern p).out = s.out := rfl

/-! ### `setPitch` -/

@[simp] theorem State.setPitch_v (b : Byte) : (s.setPitch b).v = s.v := rfl
@[simp] theorem State.setPitch_regI (b : Byte) : (s.setPitch b).regI = s.regI := rfl
@[simp] theorem State.setPitch_pc (b : Byte) : (s.setPitch b).pc = s.pc := rfl
@[simp] theorem State.setPitch_stack (b : Byte) : (s.setPitch b).stack = s.stack := rfl
@[simp] theorem State.setPitch_sp (b : Byte) : (s.setPitch b).sp = s.sp := rfl
@[simp] theorem State.setPitch_mem (b : Byte) : (s.setPitch b).mem = s.mem := rfl
@[simp] theorem State.setPitch_keys (b : Byte) : (s.setPitch b).keys = s.keys := rfl
@[simp] theorem State.setPitch_delay (b : Byte) : (s.setPitch b).delay = s.delay := rfl
@[simp] theorem State.setPitch_sound (b : Byte) : (s.setPitch b).sound = s.sound := rfl
@[simp] theorem State.setPitch_mode (b : Byte) : (s.setPitch b).mode = s.mode := rfl
@[simp] theorem State.setPitch_modeForced (b : Byte) : (s.setPitch b).modeForced = s.modeForced := rfl
@[simp] theorem State.setPitch_plane0 (b : Byte) : (s.setPitch b).plane0 = s.plane0 := rfl
@[simp] theorem State.setPitch_plane1 (b : Byte) : (s.setPitch b).plane1 = s.plane1 := rfl
@[simp] theorem State.setPitch_planesSel (b : Byte) : (s.setPitch b).planesSel = s.planesSel := rfl
@[simp] theorem State.setPitch_hires (b : Byte) : (s.setPitch b).hires = s.hires := rfl
@[simp] theorem State.setPitch_pattern (b : Byte) : (s.setPitch b).pattern = s.pattern := rfl
@[simp] theorem State.setPitch_pitch (b : Byte) : (s.setPitch b).pitch = b := rfl
@[simp] theorem State.setPitch_phase (b : Byte) : (s.setPitch b).phase = s.phase := rfl
@[simp] theorem State.setPitch_cpuState (b : Byte) : (s.setPitch b).cpuState = s.cpuState := rfl
@[simp] theorem State.setPitch_flags (b : Byte) : (s.setPitch b).flags = s.flags := rfl
@[simp] theorem State.setPitch_accCpu (b : Byte) : (s.setPitch b).accCpu = s.accCpu := rfl
@[simp] theorem State.setPitch_accTimer (b : Byte) : (s.setPitch b).accTimer = s.accTimer := rfl
@[simp] theorem State.setPitch_accPresent (b : Byte) : (s.setPitch b).accPresent = s.accPresent := rfl
@[simp] theorem State.setPitch_lastNow (b : Byte) : (s.setPitch b).lastNow = s.lastNow := rfl
@[simp] theorem State.setPitch_cpuTicks (b : Byte) : (s.setPitch b).cpuTicks = s.cpuTicks := rfl
@[simp] theorem State.setPitch_runState (b : Byte) : (s.setPitch b).runState = s.runState := rfl
@[simp] theorem State.setPitch_fault (b : Byte) : (s.setPitch b).fault = s.fault := rfl
@[simp] theorem State.setPitch_cfg (b : Byte) : (s.setPitch b).cfg = s.cfg := rfl
@[simp] theorem State.setPitch_turn (b : Byte) : (s.setPitch b).turn = s.turn := rfl
@[simp] theorem State.setPitch_draws (b : Byte) : (s.setPitch b).draws = s.draws := rfl
@[simp] theorem State.setPitch_inputsRead (b : Byte) : (s.setPitch b).inputsRead = s.inputsRead := rfl
@[simp] theorem State.setPitch_feed (b : Byte) : (s.setPitch b).feed = s.feed := rfl
@[simp] theorem State.setPitch_port (b : Byte) : (s.setPitch b).port = s.port := rfl
@[simp] theorem State.setPitch_out (b : Byte) : (s.setPitch b).out = s.out := rfl

/-! ### `setCpuState` -/

@[simp] theorem State.setCpuState_v (c : CpuState) : (s.setCpuState c).v = s.v := rfl
@[simp] theorem State.setCpuState_regI (c : CpuState) : (s.setCpuState c).regI = s.regI := rfl
@[simp] theorem State.setCpuState_pc (c : CpuState) : (s.setCpuState c).pc = s.pc := rfl
@[simp] theorem State.setCpuState_stack (c : CpuState) : (s.setCpuState c).stack = s.stack := rfl
@[simp] theorem State.setCpuState_sp (c : CpuState) : (s.setCpuState c).sp = s.sp := rfl
@[simp] theorem State.setCpuState_mem (c : CpuState) : (s.setCpuState c).mem = s.mem := rfl
@[simp] theorem State.setCpuState_keys (c : CpuState) : (s.setCpuState c).keys = s.keys := rfl
@[simp] theorem State.setCpuState_delay (c : CpuState) : (s.setCpuState c).delay = s.delay := rfl
@[simp] theorem State.setCpuState_sound (c : CpuState) : (s.setCpuState c).sound = s.sound := rfl
@[simp] theorem State.setCpuState_mode (c : CpuState) : (s.setCpuState c).mode = s.mode := rfl
@[simp] theorem State.setCpuState_modeForced (c : CpuState) : (s.setCpuState c).modeForced = s.modeForced := rfl
@[simp] theorem State.setCpuState_plane0 (c : CpuState) : (s.setCpuState c).plane0 = s.plane0 := rfl
@[simp] theorem State.setCpuState_plane1 (c : CpuState) : (s.setCpuState c).plane1 = s.plane1 := rfl
@[simp] theorem State.setCpuState_planesSel (c : CpuState) : (s.setCpuState c).planesSel = s.planesSel := rfl
@[simp] theorem State.setCpuState_hires (c : CpuState) : (s.setCpuState c).hires = s.hires := rfl
@[simp] theorem State.setCpuState_pattern (c : CpuState) : (s.setCpuState c).pattern = s.pattern := rfl
@[simp] theorem State.setCpuState_pitch (c : CpuState) : (s.setCpuState c).pitch = s.pitch := rfl
@[simp] theorem State.setCpuState_phase (c : CpuState) : (s.setCpuState c).phase = s.phase := rfl
@[simp] theorem State.setCpuState_cpuState (c : CpuState) : (s.setCpuState c).cpuState = c := rfl
@[simp] theorem State.setCpuState_flags (c : CpuState) : (s.setCpuState c).flags = s.flags := rfl
@[simp] theorem State.setCpuState_accCpu (c : CpuState) : (s.setCpuState c).accCpu = s.accCpu := rfl
@[simp] theorem State.setCpuState_accTimer (c : CpuState) : (s.setCpuState c).accTimer = s.accTimer := rfl
@[simp] theorem State.setCpuState_accPresent (c : CpuState) : (s.setCpuState c).accPresent = s.accPresent := rfl
@[simp] theorem State.setCpuState_lastNow (c : CpuState) : (s.setCpuState c).lastNow = s.lastNow := rfl
@[simp] theorem State.setCpuState_cpuTicks (c : CpuState) : (s.setCpuState c).cpuTicks = s.cpuTicks := rfl
@[simp] theorem State.setCpuState_runState (c : CpuState) : (s.setCpuState c).runState = s.runState := rfl
@[simp] theorem State.setCpuState_fault (c : CpuState) : (s.setCpuState c).fault = s.fault := rfl
@[simp] theorem State.setCpuState_cfg (c : CpuState) : (s.setCpuState c).cfg = s.cfg := rfl
@[simp] theorem State.setCpuState_turn (c : CpuState) : (s.setCpuState c).turn = s.turn := rfl
@[simp] theorem State.setCpuState_draws (c : CpuState) : (s.setCpuState c).draws = s.draws := rfl
@[simp] theorem State.setCpuState_inputsRead (c : CpuState) : (s.setCpuState c).inputsRead = s.inputsRead := rfl
@[simp] theorem State.setCpuState_feed (c : CpuState) : (s.setCpuState c).feed = s.feed := rfl
@[simp] theorem State.setCpuState_port (c : CpuState) : (s.setCpuState c).port = s.port := rfl
@[simp] theorem State.setCpuState_out (c : CpuState) : (s.setCpuState c).out = s.out := rfl

/-! ### `setFlags` -/

@[simp] theorem State.setFlags_v (f : Vector Byte 16) : (s.setFlags f).v = s.v := rfl
@[simp] theorem State.setFlags_regI (f : Vector Byte 16) : (s.setFlags f).regI = s.regI := rfl
@[simp] theorem State.setFlags_pc (f : Vector Byte 16) : (s.setFlags f).pc = s.pc := rfl
@[simp] theorem State.setFlags_stack (f : Vector Byte 16) : (s.setFlags f).stack = s.stack := rfl
@[simp] theorem State.setFlags_sp (f : Vector Byte 16) : (s.setFlags f).sp = s.sp := rfl
@[simp] theorem State.setFlags_mem (f : Vector Byte 16) : (s.setFlags f).mem = s.mem := rfl
@[simp] theorem State.setFlags_keys (f : Vector Byte 16) : (s.setFlags f).keys = s.keys := rfl
@[simp] theorem State.setFlags_delay (f : Vector Byte 16) : (s.setFlags f).delay = s.delay := rfl
@[simp] theorem State.setFlags_sound (f : Vector Byte 16) : (s.setFlags f).sound = s.sound := rfl
@[simp] theorem State.setFlags_mode (f : Vector Byte 16) : (s.setFlags f).mode = s.mode := rfl
@[simp] theorem State.setFlags_modeForced (f : Vector Byte 16) : (s.setFlags f).modeForced = s.modeForced := rfl
@[simp] theorem State.setFlags_plane0 (f : Vector Byte 16) : (s.setFlags f).plane0 = s.plane0 := rfl
@[simp] theorem State.setFlags_plane1 (f : Vector Byte 16) : (s.setFlags f).plane1 = s.plane1 := rfl
@[simp] theorem State.setFlags_planesSel (f : Vector Byte 16) : (s.setFlags f).planesSel = s.planesSel := rfl
@[simp] theorem State.setFlags_hires (f : Vector Byte 16) : (s.setFlags f).hires = s.hires := rfl
@[simp] theorem State.setFlags_pattern (f : Vector Byte 16) : (s.setFlags f).pattern = s.pattern := rfl
@[simp] theorem State.setFlags_pitch (f : Vector Byte 16) : (s.setFlags f).pitch = s.pitch := rfl
@[simp] theorem State.setFlags_phase (f : Vector Byte 16) : (s.setFlags f).phase = s.phase := rfl
@[simp] theorem State.setFlags_cpuState (f : Vector Byte 16) : (s.setFlags f).cpuState = s.cpuState := rfl
@[simp] theorem State.setFlags_flags (f : Vector Byte 16) : (s.setFlags f).flags = f := rfl
@[simp] theorem State.setFlags_accCpu (f : Vector Byte 16) : (s.setFlags f).accCpu = s.accCpu := rfl
@[simp] theorem State.setFlags_accTimer (f : Vector Byte 16) : (s.setFlags f).accTimer = s.accTimer := rfl
@[simp] theorem State.setFlags_accPresent (f : Vector Byte 16) : (s.setFlags f).accPresent = s.accPresent := rfl
@[simp] theorem State.setFlags_lastNow (f : Vector Byte 16) : (s.setFlags f).lastNow = s.lastNow := rfl
@[simp] theorem State.setFlags_cpuTicks (f : Vector Byte 16) : (s.setFlags f).cpuTicks = s.cpuTicks := rfl
@[simp] theorem State.setFlags_runState (f : Vector Byte 16) : (s.setFlags f).runState = s.runState := rfl
@[simp] theorem State.setFlags_fault (f : Vector Byte 16) : (s.setFlags f).fault = s.fault := rfl
@[simp] theorem State.setFlags_cfg (f : Vector Byte 16) : (s.setFlags f).cfg = s.cfg := rfl
@[simp] theorem State.setFlags_turn (f : Vector Byte 16) : (s.setFlags f).turn = s.turn := rfl
@[simp] theorem State.setFlags_draws (f : Vector Byte 16) : (s.setFlags f).draws = s.draws := rfl
@[simp] theorem State.setFlags_inputsRead (f : Vector Byte 16) : (s.setFlags f).inputsRead = s.inputsRead := rfl
@[simp] theorem State.setFlags_feed (f : Vector Byte 16) : (s.setFlags f).feed = s.feed := rfl
@[simp] theorem State.setFlags_port (f : Vector Byte 16) : (s.setFlags f).port = s.port := rfl
@[simp] theorem State.setFlags_out (f : Vector Byte 16) : (s.setFlags f).out = s.out := rfl

/-! ### `flagSave` -/

@[simp] theorem State.flagSave_v : s.flagSave.v = s.v := rfl
@[simp] theorem State.flagSave_regI : s.flagSave.regI = s.regI := rfl
@[simp] theorem State.flagSave_pc : s.flagSave.pc = s.pc := rfl
@[simp] theorem State.flagSave_stack : s.flagSave.stack = s.stack := rfl
@[simp] theorem State.flagSave_sp : s.flagSave.sp = s.sp := rfl
@[simp] theorem State.flagSave_mem : s.flagSave.mem = s.mem := rfl
@[simp] theorem State.flagSave_keys : s.flagSave.keys = s.keys := rfl
@[simp] theorem State.flagSave_delay : s.flagSave.delay = s.delay := rfl
@[simp] theorem State.flagSave_sound : s.flagSave.sound = s.sound := rfl
@[simp] theorem State.flagSave_mode : s.flagSave.mode = s.mode := rfl
@[simp] theorem State.flagSave_modeForced : s.flagSave.modeForced = s.modeForced := rfl
@[simp] theorem State.flagSave_plane0 : s.flagSave.plane0 = s.plane0 := rfl
@[simp] theorem State.flagSave_plane1 : s.flagSave.plane1 = s.plane1 := rfl
@[simp] theorem State.flagSave_planesSel : s.flagSave.planesSel = s.planesSel := rfl
@[simp] theorem State.flagSave_hires : s.flagSave.hires = s.hires := rfl
@[simp] theorem State.flagSave_pattern : s.flagSave.pattern = s.pattern := rfl
@[simp] theorem State.flagSave_pitch : s.flagSave.pitch = s.pitch := rfl
@[simp] theorem State.flagSave_phase : s.flagSave.phase = s.phase := rfl
@[simp] theorem State.flagSave_cpuState : s.flagSave.cpuState = s.cpuState := rfl
@[simp] theorem State.flagSave_flags : s.flagSave.flags = s.flags := rfl
@[simp] theorem State.flagSave_accCpu : s.flagSave.accCpu = s.accCpu := rfl
@[simp] theorem State.flagSave_accTimer : s.flagSave.accTimer = s.accTimer := rfl
@[simp] theorem State.flagSave_accPresent : s.flagSave.accPresent = s.accPresent := rfl
@[simp] theorem State.flagSave_lastNow : s.flagSave.lastNow = s.lastNow := rfl
@[simp] theorem State.flagSave_cpuTicks : s.flagSave.cpuTicks = s.cpuTicks := rfl
@[simp] theorem State.flagSave_runState : s.flagSave.runState = s.runState := rfl
@[simp] theorem State.flagSave_fault : s.flagSave.fault = s.fault := rfl
@[simp] theorem State.flagSave_cfg : s.flagSave.cfg = s.cfg := rfl
@[simp] theorem State.flagSave_turn : s.flagSave.turn = s.turn := rfl
@[simp] theorem State.flagSave_draws : s.flagSave.draws = s.draws := rfl
@[simp] theorem State.flagSave_inputsRead : s.flagSave.inputsRead = s.inputsRead := rfl
@[simp] theorem State.flagSave_feed : s.flagSave.feed = s.feed := rfl
@[simp] theorem State.flagSave_port : s.flagSave.port = s.port := rfl
@[simp] theorem State.flagSave_out : s.flagSave.out = { s.out with flagSave := some s.flags, flagSaves := s.out.flagSaves + 1 } := rfl

/-! ### `countDraw` -/

@[simp] theorem State.countDraw_v : s.countDraw.v = s.v := rfl
@[simp] theorem State.countDraw_regI : s.countDraw.regI = s.regI := rfl
@[simp] theorem State.countDraw_pc : s.countDraw.pc = s.pc := rfl
@[simp] theorem State.countDraw_stack : s.countDraw.stack = s.stack := rfl
@[simp] theorem State.countDraw_sp : s.countDraw.sp = s.sp := rfl
@[simp] theorem State.countDraw_mem : s.countDraw.mem = s.mem := rfl
@[simp] theorem State.countDraw_keys : s.countDraw.keys = s.keys := rfl
@[simp] theorem State.countDraw_delay : s.countDraw.delay = s.delay := rfl
@[simp] theorem State.countDraw_sound : s.countDraw.sound = s.sound := rfl
@[simp] theorem State.countDraw_mode : s.countDraw.mode = s.mode := rfl
@[simp] theorem State.countDraw_modeForced : s.countDraw.modeForced = s.modeForced := rfl
@[simp] theorem State.countDraw_plane0 : s.countDraw.plane0 = s.plane0 := rfl
@[simp] theorem State.countDraw_plane1 : s.countDraw.plane1 = s.plane1 := rfl
@[simp] theorem State.countDraw_planesSel : s.countDraw.planesSel = s.planesSel := rfl
@[simp] theorem State.countDraw_hires : s.countDraw.hires = s.hires := rfl
@[simp] theorem State.countDraw_pattern : s.countDraw.pattern = s.pattern := rfl
@[simp] theorem State.countDraw_pitch : s.countDraw.pitch = s.pitch := rfl
@[simp] theorem State.countDraw_phase : s.countDraw.phase = s.phase := rfl
@[simp] theorem State.countDraw_cpuState : s.countDraw.cpuState = s.cpuState := rfl
@[simp] theorem State.countDraw_flags : s.countDraw.flags = s.flags := rfl
@[simp] theorem State.countDraw_accCpu : s.countDraw.accCpu = s.accCpu := rfl
@[simp] theorem State.countDraw_accTimer : s.countDraw.accTimer = s.accTimer := rfl
@[simp] theorem State.countDraw_accPresent : s.countDraw.accPresent = s.accPresent := rfl
@[simp] theorem State.countDraw_lastNow : s.countDraw.lastNow = s.lastNow := rfl
@[simp] theorem State.countDraw_cpuTicks : s.countDraw.cpuTicks = s.cpuTicks := rfl
@[simp] theorem State.countDraw_runState : s.countDraw.runState = s.runState := rfl
@[simp] theorem State.countDraw_fault : s.countDraw.fault = s.fault := rfl
@[simp] theorem State.countDraw_cfg : s.countDraw.cfg = s.cfg := rfl
@[simp] theorem State.countDraw_turn : s.countDraw.turn = s.turn := rfl
@[simp] theorem State.countDraw_draws : s.countDraw.draws = s.draws + 1 := rfl
@[simp] theorem State.countDraw_inputsRead : s.countDraw.inputsRead = s.inputsRead := rfl
@[simp] theorem State.countDraw_feed : s.countDraw.feed = s.feed := rfl
@[simp] theorem State.countDraw_port : s.countDraw.port = s.port := rfl
@[simp] theorem State.countDraw_out : s.countDraw.out = s.out := rfl

/-! ### `takeFault` -/

@[simp] theorem State.takeFault_v (a : Word) (f : FaultRecord) : (s.takeFault a f).v = s.v := rfl
@[simp] theorem State.takeFault_regI (a : Word) (f : FaultRecord) : (s.takeFault a f).regI = s.regI := rfl
@[simp] theorem State.takeFault_pc (a : Word) (f : FaultRecord) : (s.takeFault a f).pc = a := rfl
@[simp] theorem State.takeFault_stack (a : Word) (f : FaultRecord) : (s.takeFault a f).stack = s.stack := rfl
@[simp] theorem State.takeFault_sp (a : Word) (f : FaultRecord) : (s.takeFault a f).sp = s.sp := rfl
@[simp] theorem State.takeFault_mem (a : Word) (f : FaultRecord) : (s.takeFault a f).mem = s.mem := rfl
@[simp] theorem State.takeFault_keys (a : Word) (f : FaultRecord) : (s.takeFault a f).keys = s.keys := rfl
@[simp] theorem State.takeFault_delay (a : Word) (f : FaultRecord) : (s.takeFault a f).delay = s.delay := rfl
@[simp] theorem State.takeFault_sound (a : Word) (f : FaultRecord) : (s.takeFault a f).sound = s.sound := rfl
@[simp] theorem State.takeFault_mode (a : Word) (f : FaultRecord) : (s.takeFault a f).mode = s.mode := rfl
@[simp] theorem State.takeFault_modeForced (a : Word) (f : FaultRecord) : (s.takeFault a f).modeForced = s.modeForced := rfl
@[simp] theorem State.takeFault_plane0 (a : Word) (f : FaultRecord) : (s.takeFault a f).plane0 = s.plane0 := rfl
@[simp] theorem State.takeFault_plane1 (a : Word) (f : FaultRecord) : (s.takeFault a f).plane1 = s.plane1 := rfl
@[simp] theorem State.takeFault_planesSel (a : Word) (f : FaultRecord) : (s.takeFault a f).planesSel = s.planesSel := rfl
@[simp] theorem State.takeFault_hires (a : Word) (f : FaultRecord) : (s.takeFault a f).hires = s.hires := rfl
@[simp] theorem State.takeFault_pattern (a : Word) (f : FaultRecord) : (s.takeFault a f).pattern = s.pattern := rfl
@[simp] theorem State.takeFault_pitch (a : Word) (f : FaultRecord) : (s.takeFault a f).pitch = s.pitch := rfl
@[simp] theorem State.takeFault_phase (a : Word) (f : FaultRecord) : (s.takeFault a f).phase = s.phase := rfl
@[simp] theorem State.takeFault_cpuState (a : Word) (f : FaultRecord) : (s.takeFault a f).cpuState = s.cpuState := rfl
@[simp] theorem State.takeFault_flags (a : Word) (f : FaultRecord) : (s.takeFault a f).flags = s.flags := rfl
@[simp] theorem State.takeFault_accCpu (a : Word) (f : FaultRecord) : (s.takeFault a f).accCpu = s.accCpu := rfl
@[simp] theorem State.takeFault_accTimer (a : Word) (f : FaultRecord) : (s.takeFault a f).accTimer = s.accTimer := rfl
@[simp] theorem State.takeFault_accPresent (a : Word) (f : FaultRecord) : (s.takeFault a f).accPresent = s.accPresent := rfl
@[simp] theorem State.takeFault_lastNow (a : Word) (f : FaultRecord) : (s.takeFault a f).lastNow = s.lastNow := rfl
@[simp] theorem State.takeFault_cpuTicks (a : Word) (f : FaultRecord) : (s.takeFault a f).cpuTicks = s.cpuTicks := rfl
@[simp] theorem State.takeFault_runState (a : Word) (f : FaultRecord) : (s.takeFault a f).runState = .faulted := rfl
@[simp] theorem State.takeFault_fault (a : Word) (f : FaultRecord) : (s.takeFault a f).fault = some f := rfl
@[simp] theorem State.takeFault_cfg (a : Word) (f : FaultRecord) : (s.takeFault a f).cfg = s.cfg := rfl
@[simp] theorem State.takeFault_turn (a : Word) (f : FaultRecord) : (s.takeFault a f).turn = s.turn := rfl
@[simp] theorem State.takeFault_draws (a : Word) (f : FaultRecord) : (s.takeFault a f).draws = s.draws := rfl
@[simp] theorem State.takeFault_inputsRead (a : Word) (f : FaultRecord) : (s.takeFault a f).inputsRead = s.inputsRead := rfl
@[simp] theorem State.takeFault_feed (a : Word) (f : FaultRecord) : (s.takeFault a f).feed = s.feed := rfl
@[simp] theorem State.takeFault_port (a : Word) (f : FaultRecord) : (s.takeFault a f).port = s.port := rfl
@[simp] theorem State.takeFault_out (a : Word) (f : FaultRecord) : (s.takeFault a f).out = s.out := rfl

/-! ### `promote` -/

@[simp] theorem State.promote_v (g : Gen) : (s.promote g).v = s.v := rfl
@[simp] theorem State.promote_regI (g : Gen) : (s.promote g).regI = s.regI := rfl
@[simp] theorem State.promote_pc (g : Gen) : (s.promote g).pc = s.pc := rfl
@[simp] theorem State.promote_stack (g : Gen) : (s.promote g).stack = s.stack := rfl
@[simp] theorem State.promote_sp (g : Gen) : (s.promote g).sp = s.sp := rfl
@[simp] theorem State.promote_mem (g : Gen) : (s.promote g).mem = s.mem := rfl
@[simp] theorem State.promote_keys (g : Gen) : (s.promote g).keys = s.keys := rfl
@[simp] theorem State.promote_delay (g : Gen) : (s.promote g).delay = s.delay := rfl
@[simp] theorem State.promote_sound (g : Gen) : (s.promote g).sound = s.sound := rfl
@[simp] theorem State.promote_mode (g : Gen) : (s.promote g).mode = promoteMode s.modeForced g s.mode := rfl
@[simp] theorem State.promote_modeForced (g : Gen) : (s.promote g).modeForced = s.modeForced := rfl
@[simp] theorem State.promote_plane0 (g : Gen) : (s.promote g).plane0 = s.plane0 := rfl
@[simp] theorem State.promote_plane1 (g : Gen) : (s.promote g).plane1 = s.plane1 := rfl
@[simp] theorem State.promote_planesSel (g : Gen) : (s.promote g).planesSel = s.planesSel := rfl
@[simp] theorem State.promote_hires (g : Gen) : (s.promote g).hires = s.hires := rfl
@[simp] theorem State.promote_pattern (g : Gen) : (s.promote g).pattern = s.pattern := rfl
@[simp] theorem State.promote_pitch (g : Gen) : (s.promote g).pitch = s.pitch := rfl
@[simp] theorem State.promote_phase (g : Gen) : (s.promote g).phase = s.phase := rfl
@[simp] theorem State.promote_cpuState (g : Gen) : (s.promote g).cpuState = s.cpuState := rfl
@[simp] theorem State.promote_flags (g : Gen) : (s.promote g).flags = s.flags := rfl
@[simp] theorem State.promote_accCpu (g : Gen) : (s.promote g).accCpu = s.accCpu := rfl
@[simp] theorem State.promote_accTimer (g : Gen) : (s.promote g).accTimer = s.accTimer := rfl
@[simp] theorem State.promote_accPresent (g : Gen) : (s.promote g).accPresent = s.accPresent := rfl
@[simp] theorem State.promote_lastNow (g : Gen) : (s.promote g).lastNow = s.lastNow := rfl
@[simp] theorem State.promote_cpuTicks (g : Gen) : (s.promote g).cpuTicks = s.cpuTicks := rfl
@[simp] theorem State.promote_runState (g : Gen) : (s.promote g).runState = s.runState := rfl
@[simp] theorem State.promote_fault (g : Gen) : (s.promote g).fault = s.fault := rfl
@[simp] theorem State.promote_cfg (g : Gen) : (s.promote g).cfg = s.cfg := rfl
@[simp] theorem State.promote_turn (g : Gen) : (s.promote g).turn = s.turn := rfl
@[simp] theorem State.promote_draws (g : Gen) : (s.promote g).draws = s.draws := rfl
@[simp] theorem State.promote_inputsRead (g : Gen) : (s.promote g).inputsRead = s.inputsRead := rfl
@[simp] theorem State.promote_feed (g : Gen) : (s.promote g).feed = s.feed := rfl
@[simp] theorem State.promote_port (g : Gen) : (s.promote g).port = s.port := rfl
@[simp] theorem State.promote_out (g : Gen) : (s.promote g).out = s.out := rfl

/-! ### `setFlag` -/

@[simp] theorem State.setFlag_v (b : Bool) : (s.setFlag b).v = s.v.set 15 (flagByte b) := rfl
@[simp] theorem State.setFlag_regI (b : Bool) : (s.setFlag b).regI = s.regI := rfl
@[simp] theorem State.setFlag_pc (b : Bool) : (s.setFlag b).pc = s.pc := rfl
@[simp] theorem State.setFlag_stack (b : Bool) : (s.setFlag b).stack = s.stack := rfl
@[simp] theorem State.setFlag_sp (b : Bool) : (s.setFlag b).sp = s.sp := rfl
@[simp] theorem State.setFlag_mem (b : Bool) : (s.setFlag b).mem = s.mem := rfl
@[simp] theorem State.setFlag_keys (b : Bool) : (s.setFlag b).keys = s.keys := rfl
@[simp] theorem State.setFlag_delay (b : Bool) : (s.setFlag b).delay = s.delay := rfl
@[simp] theorem State.setFlag_sound (b : Bool) : (s.setFlag b).sound = s.sound := rfl
@[simp] theorem State.setFlag_mode (b : Bool) : (s.setFlag b).mode = s.mode := rfl
@[simp] theorem State.setFlag_modeForced (b : Bool) : (s.setFlag b).modeForced = s.modeForced := rfl
@[simp] theorem State.setFlag_plane0 (b : Bool) : (s.setFlag b).plane0 = s.plane0 := rfl
@[simp] theorem State.setFlag_plane1 (b : Bool) : (s.setFlag b).plane1 = s.plane1 := rfl
@[simp] theorem State.setFlag_planesSel (b : Bool) : (s.setFlag b).planesSel = s.planesSel := rfl
@[simp] theorem State.setFlag_hires (b : Bool) : (s.setFlag b).hires = s.hires := rfl
@[simp] theorem State.setFlag_pattern (b : Bool) : (s.setFlag b).pattern = s.pattern := rfl
@[simp] theorem State.setFlag_pitch (b : Bool) : (s.setFlag b).pitch = s.pitch := rfl
@[simp] theorem State.setFlag_phase (b : Bool) : (s.setFlag b).phase = s.phase := rfl
@[simp] theorem State.setFlag_cpuState (b : Bool) : (s.setFlag b).cpuState = s.cpuState := rfl
@[simp] theorem State.setFlag_flags (b : Bool) : (s.setFlag b).flags = s.flags := rfl
@[simp] theorem State.setFlag_accCpu (b : Bool) : (s.setFlag b).accCpu = s.accCpu := rfl
@[simp] theorem State.setFlag_accTimer (b : Bool) : (s.setFlag b).accTimer = s.accTimer := rfl
@[simp] theorem State.setFlag_accPresent (b : Bool) : (s.setFlag b).accPresent = s.accPresent := rfl
@[simp] theorem State.setFlag_lastNow (b : Bool) : (s.setFlag b).lastNow = s.lastNow := rfl
@[simp] theorem State.setFlag_cpuTicks (b : Bool) : (s.setFlag b).cpuTicks = s.cpuTicks := rfl
@[simp] theorem State.setFlag_runState (b : Bool) : (s.setFlag b).runState = s.runState := rfl
@[simp] theorem State.setFlag_fault (b : Bool) : (s.setFlag b).fault = s.fault := rfl
@[simp] theorem State.setFlag_cfg (b : Bool) : (s.setFlag b).cfg = s.cfg := rfl
@[simp] theorem State.setFlag_turn (b : Bool) : (s.setFlag b).turn = s.turn := rfl
@[simp] theorem State.setFlag_draws (b : Bool) : (s.setFlag b).draws = s.draws := rfl
@[simp] theorem State.setFlag_inputsRead (b : Bool) : (s.setFlag b).inputsRead = s.inputsRead := rfl
@[simp] theorem State.setFlag_feed (b : Bool) : (s.setFlag b).feed = s.feed := rfl
@[simp] theorem State.setFlag_port (b : Bool) : (s.setFlag b).port = s.port := rfl
@[simp] theorem State.setFlag_out (b : Bool) : (s.setFlag b).out = s.out := rfl

/-! ### `setWithFlag` -/

@[simp] theorem State.setWithFlag_v (x : Nibble) (r : Byte) (b : Bool) : (s.setWithFlag x r b).v = (s.v.set x.toNat r x.isLt).set 15 (flagByte b) := rfl
@[simp] theorem State.setWithFlag_regI (x : Nibble) (r : Byte) (b : Bool) : (s.setWithFlag x r b).regI = s.regI := rfl
@[simp] theorem State.setWithFlag_pc (x : Nibble) (r : Byte) (b : Bool) : (s.setWithFlag x r b).pc = s.pc := rfl
@[simp] theorem State.setWithFlag_stack (x : Nibble) (r : Byte) (b : Bool) : (s.setWithFlag x r b).stack = s.stack := rfl
@[simp] theorem State.setWithFlag_sp (x : Nibble) (r : Byte) (b : Bool) : (s.setWithFlag x r b).sp = s.sp := rfl
@[simp] theorem State.setWithFlag_mem (x : Nibble) (r : Byte) (b : Bool) : (s.setWithFlag x r b).mem = s.mem := rfl
@[simp] theorem State.setWithFlag_keys (x : Nibble) (r : Byte) (b : Bool) : (s.setWithFlag x r b).keys = s.keys := rfl
@[simp] theorem State.setWithFlag_delay (x : Nibble) (r : Byte) (b : Bool) : (s.setWithFlag x r b).delay = s.delay := rfl
@[simp] theorem State.setWithFlag_sound (x : Nibble) (r : Byte) (b : Bool) : (s.setWithFlag x r b).sound = s.sound := rfl
@[simp] theorem State.setWithFlag_mode (x : Nibble) (r : Byte) (b : Bool) : (s.setWithFlag x r b).mode = s.mode := rfl
@[simp] theorem State.setWithFlag_modeForced (x : Nibble) (r : Byte) (b : Bool) : (s.setWithFlag x r b).modeForced = s.modeForced := rfl
@[simp] theorem State.setWithFlag_plane0 (x : Nibble) (r : Byte) (b : Bool) : (s.setWithFlag x r b).plane0 = s.plane0 := rfl
@[simp] theorem State.setWithFlag_plane1 (x : Nibble) (r : Byte) (b : Bool) : (s.setWithFlag x r b).plane1 = s.plane1 := rfl
@[simp] theorem State.setWithFlag_planesSel (x : Nibble) (r : Byte) (b : Bool) : (s.setWithFlag x r b).planesSel = s.planesSel := rfl
@[simp] theorem State.setWithFlag_hires (x : Nibble) (r : Byte) (b : Bool) : (s.setWithFlag x r b).hires = s.hires := rfl
@[simp] theorem State.setWithFlag_pattern (x : Nibble) (r : Byte) (b : Bool) : (s.setWithFlag x r b).pattern = s.pattern := rfl
@[simp] theorem State.setWithFlag_pitch (x : Nibble) (r : Byte) (b : Bool) : (s.setWithFlag x r b).pitch = s.pitch := rfl
@[simp] theorem State.setWithFlag_phase (x : Nibble) (r : Byte) (b : Bool) : (s.setWithFlag x r b).phase = s.phase := rfl
@[simp] theorem State.setWithFlag_cpuState (x : Nibble) (r : Byte) (b : Bool) : (s.setWithFlag x r b).cpuState = s.cpuState := rfl
@[simp] theorem State.setWithFlag_flags (x : Nibble) (r : Byte) (b : Bool) : (s.setWithFlag x r b).flags = s.flags := rfl
@[simp] theorem State.setWithFlag_accCpu (x : Nibble) (r : Byte) (b : Bool) : (s.setWithFlag x r b).accCpu = s.accCpu := rfl
@[simp] theorem State.setWithFlag_accTimer (x : Nibble) (r : Byte) (b : Bool) : (s.setWithFlag x r b).accTimer = s.accTimer := rfl
@[simp] theorem State.setWithFlag_accPresent (x : Nibble) (r : Byte) (b : Bool) : (s.setWithFlag x r b).accPresent = s.accPresent := rfl
@[simp] theorem State.setWithFlag_lastNow (x : Nibble) (r : Byte) (b : Bool) : (s.setWithFlag x r b).lastNow = s.lastNow := rfl
@[simp] theorem State.setWithFlag_cpuTicks (x : Nibble) (r : Byte) (b : Bool) : (s.setWithFlag x r b).cpuTicks = s.cpuTicks := rfl
@[simp] theorem State.setWithFlag_runState (x : Nibble) (r : Byte) (b : Bool) : (s.setWithFlag x r b).runState = s.runState := rfl
@[simp] theorem State.setWithFlag_fault (x : Nibble) (r : Byte) (b : Bool) : (s.setWithFlag x r b).fault = s.fault := rfl
@[simp] theorem State.setWithFlag_cfg (x : Nibble) (r : Byte) (b : Bool) : (s.setWithFlag x r b).cfg = s.cfg := rfl
@[simp] theorem State.setWithFlag_turn (x : Nibble) (r : Byte) (b : Bool) : (s.setWithFlag x r b).turn = s.turn := rfl
@[simp] theorem State.setWithFlag_draws (x : Nibble) (r : Byte) (b : Bool) : (s.setWithFlag x r b).draws = s.draws := rfl
@[simp] theorem State.setWithFlag_inputsRead (x : Nibble) (r : Byte) (b : Bool) : (s.setWithFlag x r b).inputsRead = s.inputsRead := rfl
@[simp] theorem State.setWithFlag_feed (x : Nibble) (r : Byte) (b : Bool) : (s.setWithFlag x r b).feed = s.feed := rfl
@[simp] theorem State.setWithFlag_port (x : Nibble) (r : Byte) (b : Bool) : (s.setWithFlag x r b).port = s.port := rfl
@[simp] theorem State.setWithFlag_out (x : Nibble) (r : Byte) (b : Bool) : (s.setWithFlag x r b).out = s.out := rfl

/-! ### `setTurn` -/

@[simp] theorem State.setTurn_v (t : Turn) : (s.setTurn t).v = s.v := rfl
@[simp] theorem State.setTurn_regI (t : Turn) : (s.setTurn t).regI = s.regI := rfl
@[simp] theorem State.setTurn_pc (t : Turn) : (s.setTurn t).pc = s.pc := rfl
@[simp] theorem State.setTurn_stack (t : Turn) : (s.setTurn t).stack = s.stack := rfl
@[simp] theorem State.setTurn_sp (t : Turn) : (s.setTurn t).sp = s.sp := rfl
@[simp] theorem State.setTurn_mem (t : Turn) : (s.setTurn t).mem = s.mem := rfl
@[simp] theorem State.setTurn_keys (t : Turn) : (s.setTurn t).keys = s.keys := rfl
@[simp] theorem State.setTurn_delay (t : Turn) : (s.setTurn t).delay = s.delay := rfl
@[simp] theorem State.setTurn_sound (t : Turn) : (s.setTurn t).sound = s.sound := rfl
@[simp] theorem State.setTurn_mode (t : Turn) : (s.setTurn t).mode = s.mode := rfl
@[simp] theorem State.setTurn_modeForced (t : Turn) : (s.setTurn t).modeForced = s.modeForced := rfl
@[simp] theorem State.setTurn_plane0 (t : Turn) : (s.setTurn t).plane0 = s.plane0 := rfl
@[simp] theorem State.setTurn_plane1 (t : Turn) : (s.setTurn t).plane1 = s.plane1 := rfl
@[simp] theorem State.setTurn_planesSel (t : Turn) : (s.setTurn t).planesSel = s.planesSel := rfl
@[simp] theorem State.setTurn_hires (t : Turn) : (s.setTurn t).hires = s.hires := rfl
@[simp] theorem State.setTurn_pattern (t : Turn) : (s.setTurn t).pattern = s.pattern := rfl
@[simp] theorem State.setTurn_pitch (t : Turn) : (s.setTurn t).pitch = s.pitch := rfl
@[simp] theorem State.setTurn_phase (t : Turn) : (s.setTurn t).phase = s.phase := rfl
@[simp] theorem State.setTurn_cpuState (t : Turn) : (s.setTurn t).cpuState = s.cpuState := rfl
@[simp] theorem State.setTurn_flags (t : Turn) : (s.setTurn t).flags = s.flags := rfl
@[simp] theorem State.setTurn_accCpu (t : Turn) : (s.setTurn t).accCpu = s.accCpu := rfl
@[simp] theorem State.setTurn_accTimer (t : Turn) : (s.setTurn t).accTimer = s.accTimer := rfl
@[simp] theorem State.setTurn_accPresent (t : Turn) : (s.setTurn t).accPresent = s.accPresent := rfl
@[simp] theorem State.setTurn_lastNow (t : Turn) : (s.setTurn t).lastNow = s.lastNow := rfl
@[simp] theorem State.setTurn_cpuTicks (t : Turn) : (s.setTurn t).cpuTicks = s.cpuTicks := rfl
@[simp] theorem State.setTurn_runState (t : Turn) : (s.setTurn t).runState = s.runState := rfl
@[simp] theorem State.setTurn_fault (t : Turn) : (s.setTurn t).fault = s.fault := rfl
@[simp] theorem State.setTurn_cfg (t : Turn) : (s.setTurn t).cfg = s.cfg := rfl
@[simp] theorem State.setTurn_turn (t : Turn) : (s.setTurn t).turn = t := rfl
@[simp] theorem State.setTurn_draws (t : Turn) : (s.setTurn t).draws = s.draws := rfl
@[simp] theorem State.setTurn_inputsRead (t : Turn) : (s.setTurn t).inputsRead = s.inputsRead := rfl
@[simp] theorem State.setTurn_feed (t : Turn) : (s.setTurn t).feed = s.feed := rfl
@[simp] theorem State.setTurn_port (t : Turn) : (s.setTurn t).port = s.port := rfl
@[simp] theorem State.setTurn_out (t : Turn) : (s.setTurn t).out = s.out := rfl

/-! ### `setRunState` -/

@[simp] theorem State.setRunState_v (r : RunState) : (s.setRunState r).v = s.v := rfl
@[simp] theorem State.setRunState_regI (r : RunState) : (s.setRunState r).regI = s.regI := rfl
@[simp] theorem State.setRunState_pc (r : RunState) : (s.setRunState r).pc = s.pc := rfl
@[simp] theorem State.setRunState_stack (r : RunState) : (s.setRunState r).stack = s.stack := rfl
@[simp] theorem State.setRunState_sp (r : RunState) : (s.setRunState r).sp = s.sp := rfl
@[simp] theorem State.setRunState_mem (r : RunState) : (s.setRunState r).mem = s.mem := rfl
@[simp] theorem State.setRunState_keys (r : RunState) : (s.setRunState r).keys = s.keys := rfl
@[simp] theorem State.setRunState_delay (r : RunState) : (s.setRunState r).delay = s.delay := rfl
@[simp] theorem State.setRunState_sound (r : RunState) : (s.setRunState r).sound = s.sound := rfl
@[simp] theorem State.setRunState_mode (r : RunState) : (s.setRunState r).mode = s.mode := rfl
@[simp] theorem State.setRunState_modeForced (r : RunState) : (s.setRunState r).modeForced = s.modeForced := rfl
@[simp] theorem State.setRunState_plane0 (r : RunState) : (s.setRunState r).plane0 = s.plane0 := rfl
@[simp] theorem State.setRunState_plane1 (r : RunState) : (s.setRunState r).plane1 = s.plane1 := rfl
@[simp] theorem State.setRunState_planesSel (r : RunState) : (s.setRunState r).planesSel = s.planesSel := rfl
@[simp] theorem State.setRunState_hires (r : RunState) : (s.setRunState r).hires = s.hires := rfl
@[simp] theorem State.setRunState_pattern (r : RunState) : (s.setRunState r).pattern = s.pattern := rfl
@[simp] theorem State.setRunState_pitch (r : RunState) : (s.setRunState r).pitch = s.pitch := rfl
@[simp] theorem State.setRunState_phase (r : RunState) : (s.setRunState r).phase = s.phase := rfl
@[simp] theorem State.setRunState_cpuState (r : RunState) : (s.setRunState r).cpuState = s.cpuState := rfl
@[simp] theorem State.setRunState_flags (r : RunState) : (s.setRunState r).flags = s.flags := rfl
@[simp] theorem State.setRunState_accCpu (r : RunState) : (s.setRunState r).accCpu = s.accCpu := rfl
@[simp] theorem State.setRunState_accTimer (r : RunState) : (s.setRunState r).accTimer = s.accTimer := rfl
@[simp] theorem State.setRunState_accPresent (r : RunState) : (s.setRunState r).accPresent = s.accPresent := rfl
@[simp] theorem State.setRunState_lastNow (r : RunState) : (s.setRunState r).lastNow = s.lastNow := rfl
@[simp] theorem State.setRunState_cpuTicks (r : RunState) : (s.setRunState r).cpuTicks = s.cpuTicks := rfl
@[simp] theorem State.setRunState_runState (r : RunState) : (s.setRunState r).runState = r := rfl
@[simp] theorem State.setRunState_fault (r : RunState) : (s.setRunState r).fault = s.fault := rfl
@[simp] theorem State.setRunState_cfg (r : RunState) : (s.setRunState r).cfg = s.cfg := rfl
@[simp] theorem State.setRunState_turn (r : RunState) : (s.setRunState r).turn = s.turn := rfl
@[simp] theorem State.setRunState_draws (r : RunState) : (s.setRunState r).draws = s.draws := rfl
@[simp] theorem State.setRunState_inputsRead (r : RunState) : (s.setRunState r).inputsRead = s.inputsRead := rfl
@[simp] theorem State.setRunState_feed (r : RunState) : (s.setRunState r).feed = s.feed := rfl
@[simp] theorem State.setRunState_port (r : RunState) : (s.setRunState r).port = s.port := rfl
@[simp] theorem State.setRunState_out (r : RunState) : (s.setRunState r).out = s.out := rfl

/-! ### `clearAccCpu` -/

@[simp] theorem State.clearAccCpu_v : s.clearAccCpu.v = s.v := rfl
@[simp] theorem State.clearAccCpu_regI : s.clearAccCpu.regI = s.regI := rfl
@[simp] theorem State.clearAccCpu_pc : s.clearAccCpu.pc = s.pc := rfl
@[simp] theorem State.clearAccCpu_stack : s.clearAccCpu.stack = s.stack := rfl
@[simp] theorem State.clearAccCpu_sp : s.clearAccCpu.sp = s.sp := rfl
@[simp] theorem State.clearAccCpu_mem : s.clearAccCpu.mem = s.mem := rfl
@[simp] theorem State.clearAccCpu_keys : s.clearAccCpu.keys = s.keys := rfl
@[simp] theorem State.clearAccCpu_delay : s.clearAccCpu.delay = s.delay := rfl
@[simp] theorem State.clearAccCpu_sound : s.clearAccCpu.sound = s.sound := rfl
@[simp] theorem State.clearAccCpu_mode : s.clearAccCpu.mode = s.mode := rfl
@[simp] theorem State.clearAccCpu_modeForced : s.clearAccCpu.modeForced = s.modeForced := rfl
@[simp] theorem State.clearAccCpu_plane0 : s.clearAccCpu.plane0 = s.plane0 := rfl
@[simp] theorem State.clearAccCpu_plane1 : s.clearAccCpu.plane1 = s.plane1 := rfl
@[simp] theorem State.clearAccCpu_planesSel : s.clearAccCpu.planesSel = s.planesSel := rfl
@[simp] theorem State.clearAccCpu_hires : s.clearAccCpu.hires = s.hires := rfl
@[simp] theorem State.clearAccCpu_pattern : s.clearAccCpu.pattern = s.pattern := rfl
@[simp] theorem State.clearAccCpu_pitch : s.clearAccCpu.pitch = s.pitch := rfl
@[simp] theorem State.clearAccCpu_phase : s.clearAccCpu.phase = s.phase := rfl
@[simp] theorem State.clearAccCpu_cpuState : s.clearAccCpu.cpuState = s.cpuState := rfl
@[simp] theorem State.clearAccCpu_flags : s.clearAccCpu.flags = s.flags := rfl
@[simp] theorem State.clearAccCpu_accCpu : s.clearAccCpu.accCpu = .zero := rfl
@[simp] theorem State.clearAccCpu_accTimer : s.clearAccCpu.accTimer = s.accTimer := rfl
@[simp] theorem State.clearAccCpu_accPresent : s.clearAccCpu.accPresent = s.accPresent := rfl
@[simp] theorem State.clearAccCpu_lastNow : s.clearAccCpu.lastNow = s.lastNow := rfl
@[simp] theorem State.clearAccCpu_cpuTicks : s.clearAccCpu.cpuTicks = s.cpuTicks := rfl
@[simp] theorem State.clearAccCpu_runState : s.clearAccCpu.runState = s.runState := rfl
@[simp] theorem State.clearAccCpu_fault : s.clearAccCpu.fault = s.fault := rfl
@[simp] theorem State.clearAccCpu_cfg : s.clearAccCpu.cfg = s.cfg := rfl
@[simp] theorem State.clearAccCpu_turn : s.clearAccCpu.turn = s.turn := rfl
@[simp] theorem State.clearAccCpu_draws : s.clearAccCpu.draws = s.draws := rfl
@[simp] theorem State.clearAccCpu_inputsRead : s.clearAccCpu.inputsRead = s.inputsRead := rfl
@[simp] theorem State.clearAccCpu_feed : s.clearAccCpu.feed = s.feed := rfl
@[simp] theorem State.clearAccCpu_port : s.clearAccCpu.port = s.port := rfl
@[simp] theorem State.clearAccCpu_out : s.clearAccCpu.out = s.out := rfl

/-! ### `sample` -/

@[simp] theorem State.sample_v (dt : Seconds) : (s.sample dt).v = s.v := rfl
@[simp] theorem State.sample_regI (dt : Seconds) : (s.sample dt).regI = s.regI := rfl
@[simp] theorem State.sample_pc (dt : Seconds) : (s.sample dt).pc = s.pc := rfl
@[simp] theorem State.sample_stack (dt : Seconds) : (s.sample dt).stack = s.stack := rfl
@[simp] theorem State.sample_sp (dt : Seconds) : (s.sample dt).sp = s.sp := rfl
@[simp] theorem State.sample_mem (dt : Seconds) : (s.sample dt).mem = s.mem := rfl
@[simp] theorem State.sample_keys (dt : Seconds) : (s.sample dt).keys = s.port.keys := rfl
@[simp] theorem State.sample_delay (dt : Seconds) : (s.sample dt).delay = s.delay := rfl
@[simp] theorem State.sample_sound (dt : Seconds) : (s.sample dt).sound = s.sound := rfl
@[simp] theorem State.sample_mode (dt : Seconds) : (s.sample dt).mode = s.mode := rfl
@[simp] theorem State.sample_modeForced (dt : Seconds) : (s.sample dt).modeForced = s.modeForced := rfl
@[simp] theorem State.sample_plane0 (dt : Seconds) : (s.sample dt).plane0 = s.plane0 := rfl
@[simp] theorem State.sample_plane1 (dt : Seconds) : (s.sample dt).plane1 = s.plane1 := rfl
@[simp] theorem State.sample_planesSel (dt : Seconds) : (s.sample dt).planesSel = s.planesSel := rfl
@[simp] theorem State.sample_hires (dt : Seconds) : (s.sample dt).hires = s.hires := rfl
@[simp] theorem State.sample_pattern (dt : Seconds) : (s.sample dt).pattern = s.pattern := rfl
@[simp] theorem State.sample_pitch (dt : Seconds) : (s.sample dt).pitch = s.pitch := rfl
@[simp] theorem State.sample_phase (dt : Seconds) : (s.sample dt).phase = s.phase := rfl
@[simp] theorem State.sample_cpuState (dt : Seconds) : (s.sample dt).cpuState = s.cpuState := rfl
@[simp] theorem State.sample_flags (dt : Seconds) : (s.sample dt).flags = s.flags := rfl
@[simp] theorem State.sample_accCpu (dt : Seconds) : (s.sample dt).accCpu = s.accCpu.add dt := rfl
@[simp] theorem State.sample_accTimer (dt : Seconds) : (s.sample dt).accTimer = s.accTimer.add dt := rfl
@[simp] theorem State.sample_accPresent (dt : Seconds) : (s.sample dt).accPresent = s.accPresent.add dt := rfl
@[simp] theorem State.sample_lastNow (dt : Seconds) : (s.sample dt).lastNow = s.lastNow.add dt := rfl
@[simp] theorem State.sample_cpuTicks (dt : Seconds) : (s.sample dt).cpuTicks = s.cpuTicks := rfl
@[simp] theorem State.sample_runState (dt : Seconds) : (s.sample dt).runState = s.runState := rfl
@[simp] theorem State.sample_fault (dt : Seconds) : (s.sample dt).fault = s.fault := rfl
@[simp] theorem State.sample_cfg (dt : Seconds) : (s.sample dt).cfg = s.cfg := rfl
@[simp] theorem State.sample_turn (dt : Seconds) : (s.sample dt).turn = s.turn := rfl
@[simp] theorem State.sample_draws (dt : Seconds) : (s.sample dt).draws = s.draws := rfl
@[simp] theorem State.sample_inputsRead (dt : Seconds) : (s.sample dt).inputsRead = s.inputsRead := rfl
@[simp] theorem State.sample_feed (dt : Seconds) : (s.sample dt).feed = s.feed := rfl
@[simp] theorem State.sample_port (dt : Seconds) : (s.sample dt).port = s.port := rfl
@[simp] theorem State.sample_out (dt : Seconds) : (s.sample dt).out = s.out := rfl

/-! ### `takeInput` -/

@[simp] theorem State.takeInput_v : s.takeInput.v = s.v := rfl
@[simp] theorem State.takeInput_regI : s.takeInput.regI = s.regI := rfl
@[simp] theorem State.takeInput_pc : s.takeInput.pc = s.pc := rfl
@[simp] theorem State.takeInput_stack : s.takeInput.stack = s.stack := rfl
@[simp] theorem State.takeInput_sp : s.takeInput.sp = s.sp := rfl
@[simp] theorem State.takeInput_mem : s.takeInput.mem = s.mem := rfl
@[simp] theorem State.takeInput_keys : s.takeInput.keys = s.keys := rfl
@[simp] theorem State.takeInput_delay : s.takeInput.delay = s.delay := rfl
@[simp] theorem State.takeInput_sound : s.takeInput.sound = s.sound := rfl
@[simp] theorem State.takeInput_mode : s.takeInput.mode = s.mode := rfl
@[simp] theorem State.takeInput_modeForced : s.takeInput.modeForced = s.modeForced := rfl
@[simp] theorem State.takeInput_plane0 : s.takeInput.plane0 = s.plane0 := rfl
@[simp] theorem State.takeInput_plane1 : s.takeInput.plane1 = s.plane1 := rfl
@[simp] theorem State.takeInput_planesSel : s.takeInput.planesSel = s.planesSel := rfl
@[simp] theorem State.takeInput_hires : s.takeInput.hires = s.hires := rfl
@[simp] theorem State.takeInput_pattern : s.takeInput.pattern = s.pattern := rfl
@[simp] theorem State.takeInput_pitch : s.takeInput.pitch = s.pitch := rfl
@[simp] theorem State.takeInput_phase : s.takeInput.phase = s.phase := rfl
@[simp] theorem State.takeInput_cpuState : s.takeInput.cpuState = s.cpuState := rfl
@[simp] theorem State.takeInput_flags : s.takeInput.flags = s.flags := rfl
@[simp] theorem State.takeInput_accCpu : s.takeInput.accCpu = s.accCpu := rfl
@[simp] theorem State.takeInput_accTimer : s.takeInput.accTimer = s.accTimer := rfl
@[simp] theorem State.takeInput_accPresent : s.takeInput.accPresent = s.accPresent := rfl
@[simp] theorem State.takeInput_lastNow : s.takeInput.lastNow = s.lastNow := rfl
@[simp] theorem State.takeInput_cpuTicks : s.takeInput.cpuTicks = s.cpuTicks := rfl
@[simp] theorem State.takeInput_runState : s.takeInput.runState = s.runState := rfl
@[simp] theorem State.takeInput_fault : s.takeInput.fault = s.fault := rfl
@[simp] theorem State.takeInput_cfg : s.takeInput.cfg = s.cfg := rfl
@[simp] theorem State.takeInput_turn : s.takeInput.turn = s.turn := rfl
@[simp] theorem State.takeInput_draws : s.takeInput.draws = s.draws := rfl
@[simp] theorem State.takeInput_inputsRead : s.takeInput.inputsRead = s.inputsRead + 1 := rfl
@[simp] theorem State.takeInput_feed : s.takeInput.feed = s.feed.tail := rfl
@[simp] theorem State.takeInput_port : s.takeInput.port = { s.nextInput with cancel := s.port.cancel || s.nextInput.cancel } := rfl
@[simp] theorem State.takeInput_out : s.takeInput.out = s.out := rfl

/-! ### `timerTick` -/

@[simp] theorem State.timerTick_v : s.timerTick.v = s.v := rfl
@[simp] theorem State.timerTick_regI : s.timerTick.regI = s.regI := rfl
@[simp] theorem State.timerTick_pc : s.timerTick.pc = s.pc := rfl
@[simp] theorem State.timerTick_stack : s.timerTick.stack = s.stack := rfl
@[simp] theorem State.timerTick_sp : s.timerTick.sp = s.sp := rfl
@[simp] theorem State.timerTick_mem : s.timerTick.mem = s.mem := rfl
@[simp] theorem State.timerTick_keys : s.timerTick.keys = s.keys := rfl
@[simp] theorem State.timerTick_delay : s.timerTick.delay = countDown s.delay := rfl
@[simp] theorem State.timerTick_sound : s.timerTick.sound = countDown s.sound := rfl
@[simp] theorem State.timerTick_mode : s.timerTick.mode = s.mode := rfl
@[simp] theorem State.timerTick_modeForced : s.timerTick.modeForced = s.modeForced := rfl
@[simp] theorem State.timerTick_plane0 : s.timerTick.plane0 = s.plane0 := rfl
@[simp] theorem State.timerTick_plane1 : s.timerTick.plane1 = s.plane1 := rfl
@[simp] theorem State.timerTick_planesSel : s.timerTick.planesSel = s.planesSel := rfl
@[simp] theorem State.timerTick_hires : s.timerTick.hires = s.hires := rfl
@[simp] theorem State.timerTick_pattern : s.timerTick.pattern = s.pattern := rfl
@[simp] theorem State.timerTick_pitch : s.timerTick.pitch = s.pitch := rfl
@[simp] theorem State.timerTick_phase : s.timerTick.phase = s.phase := rfl
@[simp] theorem State.timerTick_cpuState : s.timerTick.cpuState = s.cpuState := rfl
@[simp] theorem State.timerTick_flags : s.timerTick.flags = s.flags := rfl
@[simp] theorem State.timerTick_accCpu : s.timerTick.accCpu = s.accCpu := rfl
@[simp] theorem State.timerTick_accTimer : s.timerTick.accTimer = s.accTimer := rfl
@[simp] theorem State.timerTick_accPresent : s.timerTick.accPresent = s.accPresent := rfl
@[simp] theorem State.timerTick_lastNow : s.timerTick.lastNow = s.lastNow := rfl
@[simp] theorem State.timerTick_cpuTicks : s.timerTick.cpuTicks = s.cpuTicks := rfl
@[simp] theorem State.timerTick_runState : s.timerTick.runState = s.runState := rfl
@[simp] theorem State.timerTick_fault : s.timerTick.fault = s.fault := rfl
@[simp] theorem State.timerTick_cfg : s.timerTick.cfg = s.cfg := rfl
@[simp] theorem State.timerTick_turn : s.timerTick.turn = s.turn := rfl
@[simp] theorem State.timerTick_draws : s.timerTick.draws = s.draws := rfl
@[simp] theorem State.timerTick_inputsRead : s.timerTick.inputsRead = s.inputsRead := rfl
@[simp] theorem State.timerTick_feed : s.timerTick.feed = s.feed := rfl
@[simp] theorem State.timerTick_port : s.timerTick.port = s.port := rfl
@[simp] theorem State.timerTick_out : s.timerTick.out = s.out := rfl

/-! ### `showFrame` -/

@[simp] theorem State.showFrame_v : s.showFrame.v = s.v := rfl
@[simp] theorem State.showFrame_regI : s.showFrame.regI = s.regI := rfl
@[simp] theorem State.showFrame_pc : s.showFrame.pc = s.pc := rfl
@[simp] theorem State.showFrame_stack : s.showFrame.stack = s.stack := rfl
@[simp] theorem State.showFrame_sp : s.showFrame.sp = s.sp := rfl
@[simp] theorem State.showFrame_mem : s.showFrame.mem = s.mem := rfl
@[simp] theorem State.showFrame_keys : s.showFrame.keys = s.keys := rfl
@[simp] theorem State.showFrame_delay : s.showFrame.delay = s.delay := rfl
@[simp] theorem State.showFrame_sound : s.showFrame.sound = s.sound := rfl
@[simp] theorem State.showFrame_mode : s.showFrame.mode = s.mode := rfl
@[simp] theorem State.showFrame_modeForced : s.showFrame.modeForced = s.modeForced := rfl
@[simp] theorem State.showFrame_plane0 : s.showFrame.plane0 = s.plane0 := rfl
@[simp] theorem State.showFrame_plane1 : s.showFrame.plane1 = s.plane1 := rfl
@[simp] theorem State.showFrame_planesSel : s.showFrame.planesSel = s.planesSel := rfl
@[simp] theorem State.showFrame_hires : s.showFrame.hires = s.hires := rfl
@[simp] theorem State.showFrame_pattern : s.showFrame.pattern = s.pattern := rfl
@[simp] theorem State.showFrame_pitch : s.showFrame.pitch = s.pitch := rfl
@[simp] theorem State.showFrame_phase : s.showFrame.phase = s.phase := rfl
@[simp] theorem State.showFrame_cpuState : s.showFrame.cpuState = s.cpuState := rfl
@[simp] theorem State.showFrame_flags : s.showFrame.flags = s.flags := rfl
@[simp] theorem State.showFrame_accCpu : s.showFrame.accCpu = s.accCpu := rfl
@[simp] theorem State.showFrame_accTimer : s.showFrame.accTimer = s.accTimer := rfl
@[simp] theorem State.showFrame_accPresent : s.showFrame.accPresent = s.accPresent := rfl
@[simp] theorem State.showFrame_lastNow : s.showFrame.lastNow = s.lastNow := rfl
@[simp] theorem State.showFrame_cpuTicks : s.showFrame.cpuTicks = s.cpuTicks := rfl
@[simp] theorem State.showFrame_runState : s.showFrame.runState = s.runState := rfl
@[simp] theorem State.showFrame_fault : s.showFrame.fault = s.fault := rfl
@[simp] theorem State.showFrame_cfg : s.showFrame.cfg = s.cfg := rfl
@[simp] theorem State.showFrame_turn : s.showFrame.turn = s.turn := rfl
@[simp] theorem State.showFrame_draws : s.showFrame.draws = s.draws := rfl
@[simp] theorem State.showFrame_inputsRead : s.showFrame.inputsRead = s.inputsRead := rfl
@[simp] theorem State.showFrame_feed : s.showFrame.feed = s.feed := rfl
@[simp] theorem State.showFrame_port : s.showFrame.port = s.port := rfl
@[simp] theorem State.showFrame_out : s.showFrame.out = { s.out with frame := some (composeFrame s.plane0 s.plane1), frames := s.out.frames + 1 } := rfl

/-! ### `setBitwise`: the fields it never changes -/

@[simp] theorem State.setBitwise_regI (x : Nibble) (r : Byte) : (s.setBitwise x r).regI = s.regI := by unfold State.setBitwise; split <;> rfl
@[simp] theorem State.setBitwise_pc (x : Nibble) (r : Byte) : (s.setBitwise x r).pc = s.pc := by unfold State.setBitwise; split <;> rfl
@[simp] theorem State.setBitwise_stack (x : Nibble) (r : Byte) : (s.setBitwise x r).stack = s.stack := by unfold State.setBitwise; split <;> rfl
@[simp] theorem State.setBitwise_sp (x : Nibble) (r : Byte) : (s.setBitwise x r).sp = s.sp := by unfold State.setBitwise; split <;> rfl
@[simp] theorem State.setBitwise_mem (x : Nibble) (r : Byte) : (s.setBitwise x r).mem = s.mem := by unfold State.setBitwise; split <;> rfl
@[simp] theorem State.setBitwise_keys (x : Nibble) (r : Byte) : (s.setBitwise x r).keys = s.keys := by unfold State.setBitwise; split <;> rfl
@[simp] theorem State.setBitwise_delay (x : Nibble) (r : Byte) : (s.setBitwise x r).delay = s.delay := by unfold State.setBitwise; split <;> rfl
@[simp] theorem State.setBitwise_sound (x : Nibble) (r : Byte) : (s.setBitwise x r).sound = s.sound := by unfold State.setBitwise; split <;> rfl
@[simp] theorem State.setBitwise_mode (x : Nibble) (r : Byte) : (s.setBitwise x r).mode = s.mode := by unfold State.setBitwise; split <;> rfl
@[simp] theorem State.setBitwise_modeForced (x : Nibble) (r : Byte) : (s.setBitwise x r).modeForced = s.modeForced := by unfold State.setBitwise; split <;> rfl
@[simp] theorem State.setBitwise_plane0 (x : Nibble) (r : Byte) : (s.setBitwise x r).plane0 = s.plane0 := by unfold State.setBitwise; split <;> rfl
@[simp] theorem State.setBitwise_plane1 (x : Nibble) (r : Byte) : (s.setBitwise x r).plane1 = s.plane1 := by unfold State.setBitwise; split <;> rfl
@[simp] theorem State.setBitwise_planesSel (x : Nibble) (r : Byte) : (s.setBitwise x r).planesSel = s.planesSel := by unfold State.setBitwise; split <;> rfl
@[simp] theorem State.setBitwise_hires (x : Nibble) (r : Byte) : (s.setBitwise x r).hires = s.hires := by unfold State.setBitwise; split <;> rfl
@[simp] theorem State.setBitwise_pattern (x : Nibble) (r : Byte) : (s.setBitwise x r).pattern = s.pattern := by unfold State.setBitwise; split <;> rfl
@[simp] theorem State.setBitwise_pitch (x : Nibble) (r : Byte) : (s.setBitwise x r).pitch = s.pitch := by unfold State.setBitwise; split <;> rfl
@[simp] theorem State.setBitwise_phase (x : Nibble) (r : Byte) : (s.setBitwise x r).phase = s.phase := by unfold State.setBitwise; split <;> rfl
@[simp] theorem State.setBitwise_cpuState (x : Nibble) (r : Byte) : (s.setBitwise x r).cpuState = s.cpuState := by unfold State.setBitwise; split <;> rfl
@[simp] theorem State.setBitwise_flags (x : Nibble) (r : Byte) : (s.setBitwise x r).flags = s.flags := by unfold State.setBitwise; split <;> rfl
@[simp] theorem State.setBitwise_accCpu (x : Nibble) (r : Byte) : (s.setBitwise x r).accCpu = s.accCpu := by unfold State.setBitwise; split <;> rfl
@[simp] theorem State.setBitwise_accTimer (x : Nibble) (r : Byte) : (s.setBitwise x r).accTimer = s.accTimer := by unfold State.setBitwise; split <;> rfl
@[simp] theorem State.setBitwise_accPresent (x : Nibble) (r : Byte) : (s.setBitwise x r).accPresent = s.accPresent := by unfold State.setBitwise; split <;> rfl
@[simp] theorem State.setBitwise_lastNow (x : Nibble) (r : Byte) : (s.setBitwise x r).lastNow = s.lastNow := by unfold State.setBitwise; split <;> rfl
@[simp] theorem State.setBitwise_cpuTicks (x : Nibble) (r : Byte) : (s.setBitwise x r).cpuTicks = s.cpuTicks := by unfold State.setBitwise; split <;> rfl
@[simp] theorem State.setBitwise_runState (x : Nibble) (r : Byte) : (s.setBitwise x r).runState = s.runState := by unfold State.setBitwise; split <;> rfl
@[simp] theorem State.setBitwise_fault (x : Nibble) (r : Byte) : (s.setBitwise x r).fault = s.fault := by unfold State.setBitwise; split <;> rfl
@[simp] theorem State.setBitwise_cfg (x : Nibble) (r : Byte) : (s.setBitwise x r).cfg = s.cfg := by unfold State.setBitwise; split <;> rfl
@[simp] theorem State.setBitwise_turn (x : Nibble) (r : Byte) : (s.setBitwise x r).turn = s.turn := by unfold State.setBitwise; split <;> rfl
@[simp] theorem State.setBitwise_draws (x : Nibble) (r : Byte) : (s.setBitwise x r).draws = s.draws := by unfold State.setBitwise; split <;> rfl
@[simp] theorem State.setBitwise_inputsRead (x : Nibble) (r : Byte) : (s.setBitwise x r).inputsRead = s.inputsRead := by unfold State.setBitwise; split <;> rfl
@[simp] theorem State.setBitwise_feed (x : Nibble) (r : Byte) : (s.setBitwise x r).feed = s.feed := by unfold State.setBitwise; split <;> rfl
@[simp] theorem State.setBitwise_port (x : Nibble) (r : Byte) : (s.setBitwise x r).port = s.port := by unfold State.setBitwise; split <;> rfl
@[simp] theorem State.setBitwise_out (x : Nibble) (r : Byte) : (s.setBitwise x r).out = s.out := by unfold State.setBitwise; split <;> rfl

/-! ### `incrementI`: the fields it never changes -/

@[simp] theorem State.incrementI_v (x : Nibble) : (s.incrementI x).v = s.v := by unfold State.incrementI; split <;> rfl
@[simp] theorem State.incrementI_pc (x : Nibble) : (s.incrementI x).pc = s.pc := by unfold State.incrementI; split <;> rfl
@[simp] theorem State.incrementI_stack (x : Nibble) : (s.incrementI x).stack = s.stack := by unfold State.incrementI; split <;> rfl
@[simp] theorem State.incrementI_sp (x : Nibble) : (s.incrementI x).sp = s.sp := by unfold State.incrementI; split <;> rfl
@[simp] theorem State.incrementI_mem (x : Nibble) : (s.incrementI x).mem = s.mem := by unfold State.incrementI; split <;> rfl
@[simp] theorem State.incrementI_keys (x : Nibble) : (s.incrementI x).keys = s.keys := by unfold State.incrementI; split <;> rfl
@[simp] theorem State.incrementI_delay (x : Nibble) : (s.incrementI x).delay = s.delay := by unfold State.incrementI; split <;> rfl
@[simp] theorem State.incrementI_sound (x : Nibble) : (s.incrementI x).sound = s.sound := by unfold State.incrementI; split <;> rfl
@[simp] theorem State.incrementI_mode (x : Nibble) : (s.incrementI x).mode = s.mode := by unfold State.incrementI; split <;> rfl
@[simp] theorem State.incrementI_modeForced (x : Nibble) : (s.incrementI x).modeForced = s.modeForced := by unfold State.incrementI; split <;> rfl
@[simp] theorem State.incrementI_plane0 (x : Nibble) : (s.incrementI x).plane0 = s.plane0 := by unfold State.incrementI; split <;> rfl
@[simp] theorem State.incrementI_plane1 (x : Nibble) : (s.incrementI x).plane1 = s.plane1 := by unfold State.incrementI; split <;> rfl
@[simp] theorem State.incrementI_planesSel (x : Nibble) : (s.incrementI x).planesSel = s.planesSel := by unfold State.incrementI; split <;> rfl
@[simp] theorem State.incrementI_hires (x : Nibble) : (s.incrementI x).hires = s.hires := by unfold State.incrementI; split <;> rfl
@[simp] theorem State.incrementI_pattern (x : Nibble) : (s.incrementI x).pattern = s.pattern := by unfold State.incrementI; split <;> rfl
@[simp] theorem State.incrementI_pitch (x : Nibble) : (s.incrementI x).pitch = s.pitch := by unfold State.incrementI; split <;> rfl
@[simp] theorem State.incrementI_phase (x : Nibble) : (s.incrementI x).phase = s.phase := by unfold State.incrementI; split <;> rfl
@[simp] theorem State.incrementI_cpuState (x : Nibble) : (s.incrementI x).cpuState = s.cpuState := by unfold State.incrementI; split <;> rfl
@[simp] theorem State.incrementI_flags (x : Nibble) : (s.incrementI x).flags = s.flags := by unfold State.incrementI; split <;> rfl
@[simp] theorem State.incrementI_accCpu (x : Nibble) : (s.incrementI x).accCpu = s.accCpu := by unfold State.incrementI; split <;> rfl
@[simp] theorem State.incrementI_accTimer (x : Nibble) : (s.incrementI x).accTimer = s.accTimer := by unfold State.incrementI; split <;> rfl
@[simp] theorem State.incrementI_accPresent (x : Nibble) : (s.incrementI x).accPresent = s.accPresent := by unfold State.incrementI; split <;> rfl
@[simp] theorem State.incrementI_lastNow (x : Nibble) : (s.incrementI x).lastNow = s.lastNow := by unfold State.incrementI; split <;> rfl
@[simp] theorem State.incrementI_cpuTicks (x : Nibble) : (s.incrementI x).cpuTicks = s.cpuTicks := by unfold State.incrementI; split <;> rfl
@[simp] theorem State.incrementI_runState (x : Nibble) : (s.incrementI x).runState = s.runState := by unfold State.incrementI; split <;> rfl
@[simp] theorem State.incrementI_fault (x : Nibble) : (s.incrementI x).fault = s.fault := by unfold State.incrementI; split <;> rfl
@[simp] theorem State.incrementI_cfg (x : Nibble) : (s.incrementI x).cfg = s.cfg := by unfold State.incrementI; split <;> rfl
@[simp] theorem State.incrementI_turn (x : Nibble) : (s.incrementI x).turn = s.turn := by unfold State.incrementI; split <;> rfl
@[simp] theorem State.incrementI_draws (x : Nibble) : (s.incrementI x).draws = s.draws := by unfold State.incrementI; split <;> rfl
@[simp] theorem State.incrementI_inputsRead (x : Nibble) : (s.incrementI x).inputsRead = s.inputsRead := by unfold State.incrementI; split <;> rfl
@[simp] theorem State.incrementI_feed (x : Nibble) : (s.incrementI x).feed = s.feed := by unfold State.incrementI; split <;> rfl
@[simp] theorem State.incrementI_port (x : Nibble) : (s.incrementI x).port = s.port := by unfold State.incrementI; split <;> rfl
@[simp] theorem State.incrementI_out (x : Nibble) : (s.incrementI x).out = s.out := by unfold State.incrementI; split <;> rfl

end Sys2Proof.Machine
end

