-- ==== Sys2Proof/Laws/Memory.lean ====
section
/-! SUPPORT. The laws of memory and of the bus: read after write, the canonical form is kept by every memory operation, and what
block reads and block stores can do (spec R62, R63, R72, R77). -/

namespace Sys2Proof.Machine

/-! ### Cells -/

theorem Memory.get_eq_resetByte {c : Cfg} {m : Memory} {a : Nat} (h : ∀ p ∈ m, p.1 ≠ a) :
    Memory.get c m a = resetByte c a := by
  induction m with
  | nil => rfl
  | cons p m ih =>
    obtain ⟨k, b⟩ := p
    have hk : k ≠ a := h (k, b) (by simp)
    rw [Memory.get, if_neg (Ne.symm hk)]
    exact ih fun q hq => h q (by simp [hq])

/-- A put leaves every other address alone. -/
theorem Memory.get_put_other (c : Cfg) (m : Memory) {a a' : Nat} (b : Byte) (h : a' ≠ a) :
    Memory.get c (Memory.put c m a b) a' = Memory.get c m a' := by
  induction m with
  | nil => by_cases hb : b = resetByte c a <;> simp [Memory.put, Memory.get, hb, h]
  | cons p m ih =>
    obtain ⟨k, v⟩ := p
    rw [Memory.put]
    split
    · split <;> simp [Memory.get, h]
    · split
      · rename_i hak
        subst hak
        split <;> simp [Memory.get, h]
      · simp only [Memory.get, ih]

/-- A put is read back. -/
theorem Memory.get_put_same {c : Cfg} {m : Memory} (a : Nat) (b : Byte) (hm : Memory.wf c m) :
    Memory.get c (Memory.put c m a b) a = b := by
  induction m with
  | nil => by_cases hb : b = resetByte c a <;> simp [Memory.put, Memory.get, hb]
  | cons p m ih =>
    obtain ⟨k, v⟩ := p
    obtain ⟨hs, hv⟩ := hm
    rw [List.pairwise_cons] at hs
    rw [Memory.put]
    split
    · rename_i hak
      split
      · rename_i hb
        rw [hb]
        refine Memory.get_eq_resetByte fun q hq => ?_
        rcases List.mem_cons.mp hq with rfl | hq
        · exact Nat.ne_of_gt hak
        · have := hs.1 q hq
          simp only at this
          omega
      · simp [Memory.get]
    · split
      · rename_i hak
        subst hak
        split
        · rename_i hb
          rw [hb]
          refine Memory.get_eq_resetByte fun q hq => ?_
          have := hs.1 q hq
          simp only at this
          omega
        · simp [Memory.get]
      · rename_i h1 h2
        rw [Memory.get, if_neg h2]
        exact ih ⟨hs.2, fun q hq => hv q (by simp [hq])⟩

/-- A put lists no address but the one it writes and those already listed. -/
theorem Memory.mem_put {c : Cfg} {m : Memory} {a : Nat} {b : Byte} {q : Host.Cell} (h : q ∈ Memory.put c m a b) :
    q ∈ m ∨ (q = (a, b) ∧ b ≠ resetByte c a) := by
  induction m with
  | nil =>
    by_cases hb : b = resetByte c a <;> simp [Memory.put, hb] at h
    exact .inr ⟨h, hb⟩
  | cons p m ih =>
    obtain ⟨k, v⟩ := p
    rw [Memory.put] at h
    split at h
    · split at h
      · exact .inl h
      · rcases List.mem_cons.mp h with rfl | h
        · exact .inr ⟨rfl, ‹_›⟩
        · exact .inl h
    · split at h
      · split at h
        · exact .inl (by simp [h])
        · rcases List.mem_cons.mp h with rfl | h
          · exact .inr ⟨rfl, ‹_›⟩
          · exact .inl (by simp [h])
      · rcases List.mem_cons.mp h with rfl | h
        · exact .inl (by simp)
        · exact (ih h).imp (fun h => by simp [h]) id

/-- A put keeps the canonical form. -/
theorem Memory.put_wf {c : Cfg} {m : Memory} (a : Nat) (b : Byte) (hm : Memory.wf c m) : Memory.wf c (Memory.put c m a b) := by
  refine ⟨?_, fun q hq => ?_⟩
  · obtain ⟨hs, -⟩ := hm
    induction m with
    | nil => by_cases hb : b = resetByte c a <;> simp [Memory.put, hb]
    | cons p m ih =>
      obtain ⟨k, v⟩ := p
      have hs' := List.pairwise_cons.mp hs
      rw [Memory.put]
      split
      · rename_i hak
        split
        · exact hs
        · refine List.pairwise_cons.mpr ⟨fun q hq => ?_, hs⟩
          rcases List.mem_cons.mp hq with rfl | hq
          · exact hak
          · exact Nat.lt_trans hak (hs'.1 q hq)
      · split
        · rename_i hak
          subst hak
          split
          · exact hs'.2
          · exact List.pairwise_cons.mpr ⟨fun q hq => hs'.1 q hq, hs'.2⟩
        · rename_i h1 h2
          refine List.pairwise_cons.mpr ⟨fun q hq => ?_, ih hs'.2⟩
          rcases Memory.mem_put hq with hq | ⟨rfl, -⟩
          · exact hs'.1 q hq
          · show k < a
            omega
  · rcases Memory.mem_put hq with hq | ⟨rfl, hb⟩
    · exact hm.2 q hq
    · exact hb

theorem Memory.nil_wf (c : Cfg) : Memory.wf c [] := by simp [Memory.wf]

/-! ### Single accesses -/

theorem busAllows_iff (a : Nat) : busAllows a = true ↔ 0x200 ≤ a ∧ a < 0x1000 := by simp [busAllows]

theorem State.byteAt_congr {s t : State} (hm : t.mem = s.mem) (hc : t.cfg = s.cfg) (a : Nat) : t.byteAt a = s.byteAt a := by
  simp [State.byteAt, hm, hc]

theorem State.byteAt_poke_other (s : State) {a a' : Nat} (b : Byte) (h : a' ≠ a) : (s.poke a b).byteAt a' = s.byteAt a' :=
  Memory.get_put_other s.cfg s.mem b h

theorem State.byteAt_poke_same {s : State} (a : Nat) (b : Byte) (h : Memory.wf s.cfg s.mem) : (s.poke a b).byteAt a = b :=
  Memory.get_put_same a b h

theorem State.poke_wf {s : State} (a : Nat) (b : Byte) (h : Memory.wf s.cfg s.mem) :
    Memory.wf (s.poke a b).cfg (s.poke a b).mem :=
  Memory.put_wf a b h

theorem State.busRead_eq_some_iff {s : State} {a : Nat} {b : Byte} :
    s.busRead a = some b ↔ busAllows a = true ∧ s.byteAt a = b := by
  by_cases h : busAllows a <;> simp [State.busRead, h]

theorem State.busRead_eq_none_iff {s : State} {a : Nat} : s.busRead a = none ↔ busAllows a = false := by
  by_cases h : busAllows a <;> simp [State.busRead, h]

theorem State.busWrite_eq_some_iff {s t : State} {a : Nat} {b : Byte} :
    s.busWrite a b = some t ↔ busAllows a = true ∧ t = s.poke a b := by
  by_cases h : busAllows a <;> simp [State.busWrite, h, eq_comm]

theorem State.busWrite_eq_none_iff {s : State} {a : Nat} {b : Byte} : s.busWrite a b = none ↔ busAllows a = false := by
  by_cases h : busAllows a <;> simp [State.busWrite, h]

/-- A read depends on memory and its reset contents only. -/
theorem State.busRead_congr {s t : State} (hm : t.mem = s.mem) (hc : t.cfg = s.cfg) (a : Nat) : t.busRead a = s.busRead a := by
  simp [State.busRead, State.byteAt_congr hm hc]

/-! ### Block reads -/

theorem State.readWord_congr {s t : State} (hm : t.mem = s.mem) (hc : t.cfg = s.cfg) (a : Nat) :
    t.readWord a = s.readWord a := by
  simp [State.readWord, State.busRead_congr hm hc]

theorem State.readBytes_congr {s t : State} (hm : t.mem = s.mem) (hc : t.cfg = s.cfg) (a n : Nat) :
    t.readBytes a n = s.readBytes a n := by
  induction n generalizing a with
  | zero => rfl
  | succ n ih => simp [State.readBytes, State.busRead_congr hm hc, ih]

/-- A word is read when both its bytes are in program space, and then it is the two bytes, the lower address first. -/
theorem State.readWord_ok {s : State} {a : Nat} (h0 : busAllows a = true) (h1 : busAllows (a + 1) = true) :
    s.readWord a = .ok (s.byteAt a ++ s.byteAt (a + 1)) := by
  simp [State.readWord, State.busRead, h0, h1]

/-- A block is read when all its bytes are in program space, and then it is those bytes in order. -/
theorem State.readBytes_ok {s : State} {a n : Nat} (h : ∀ k < n, busAllows (a + k) = true) :
    s.readBytes a n = .ok ((List.range n).map fun k => s.byteAt (a + k)) := by
  induction n generalizing a with
  | zero => rfl
  | succ n ih =>
    have h0 : busAllows a = true := h 0 (by omega)
    have ht : ∀ k < n, busAllows (a + 1 + k) = true := fun k hk => by
      have := h (k + 1) (by omega)
      rwa [Nat.add_right_comm, Nat.add_assoc]
    simp only [State.readBytes, State.busRead, h0, if_true, ih ht, List.range_succ_eq_map, List.map_cons, List.map_map,
      Nat.add_zero]
    congr 2
    refine List.map_congr_left fun k _ => ?_
    simp [Nat.add_comm, Nat.add_left_comm]

/-- A block read that fails, fails at the first address outside program space. -/
theorem State.readBytes_error {s : State} {a n e : Nat} (h : s.readBytes a n = .error e) :
    ∃ k < n, e = a + k ∧ busAllows e = false ∧ ∀ j < k, busAllows (a + j) = true := by
  induction n generalizing a with
  | zero => simp [State.readBytes] at h
  | succ n ih =>
    rw [State.readBytes] at h
    split at h
    · rename_i hr
      cases h
      exact ⟨0, by omega, rfl, State.busRead_eq_none_iff.mp hr, by omega⟩
    · rename_i b hr
      split at h
      · rename_i e' he
        cases h
        obtain ⟨k, hk, rfl, hf, hj⟩ := ih he
        refine ⟨k + 1, by omega, by omega, hf, fun j hjk => ?_⟩
        rcases j with _ | j
        · exact (State.busRead_eq_some_iff.mp hr).1
        · have := hj j (by omega)
          rwa [Nat.add_right_comm, Nat.add_assoc] at this
      · cases h

/-- A block read whose byte `j` is the first outside program space fails there (R72). -/
theorem State.readBytes_stops {s : State} {a n j : Nat} (hj : j < n) (h : ∀ k < j, busAllows (a + k) = true) (h' : busAllows (a + j) = false) : s.readBytes a n = .error (a + j) := by
  rcases hr : s.readBytes a n with e | b
  · obtain ⟨k, hk, rfl, hf, hl⟩ := State.readBytes_error hr
    have : k = j := by
      rcases Nat.lt_trichotomy k j with h1 | h1 | h1
      · rw [h k h1] at hf; cases hf
      · exact h1
      · rw [hl j h1] at h'; cases h'
    rw [this]
  · exfalso
    induction n generalizing a j b with
    | zero => omega
    | succ n ih =>
      rw [State.readBytes] at hr
      split at hr
      · cases hr
      · split at hr
        · cases hr
        · rename_i hb _ _ h2
          rcases j with _ | j
          · have := (State.busRead_eq_some_iff.mp hb).1; simp [this] at h'
          · exact ih (j := j) (by omega) (fun k hk => by have := h (k+1) (by omega); rwa [Nat.add_right_comm, Nat.add_assoc]) (by rwa [Nat.add_right_comm, Nat.add_assoc]) _ h2

/-! ### Block stores -/

/-- A block store changes memory only. -/
theorem State.storeBytes_frame (s : State) (a : Nat) (bs : List Byte) :
    (s.storeBytes a bs).1 = { s with mem := (s.storeBytes a bs).1.mem } := by
  induction bs generalizing s a with
  | nil => rfl
  | cons b bs ih =>
    rw [State.storeBytes]
    split
    · rfl
    · rename_i t ht
      obtain ⟨-, rfl⟩ := State.busWrite_eq_some_iff.mp ht
      exact ih (s.poke a b) (a + 1)

theorem State.storeBytes_cfg (s : State) (a : Nat) (bs : List Byte) : (s.storeBytes a bs).1.cfg = s.cfg := by
  rw [State.storeBytes_frame]

/-- A block store keeps the canonical form. -/
theorem State.storeBytes_wf {s : State} (a : Nat) (bs : List Byte) (h : Memory.wf s.cfg s.mem) :
    Memory.wf (s.storeBytes a bs).1.cfg (s.storeBytes a bs).1.mem := by
  induction bs generalizing s a with
  | nil => exact h
  | cons b bs ih =>
    rw [State.storeBytes]
    split
    · exact h
    · rename_i t ht
      obtain ⟨-, rfl⟩ := State.busWrite_eq_some_iff.mp ht
      exact ih (a + 1) (State.poke_wf a b h)

/-- A block store leaves every byte outside the block alone, whether it fails or not. -/
theorem State.storeBytes_other (s : State) (a : Nat) (bs : List Byte) {a' : Nat} (h : a' < a ∨ a + bs.length ≤ a') :
    (s.storeBytes a bs).1.byteAt a' = s.byteAt a' := by
  induction bs generalizing s a with
  | nil => rfl
  | cons b bs ih =>
    rw [State.storeBytes]
    split
    · rfl
    · rename_i t ht
      obtain ⟨-, rfl⟩ := State.busWrite_eq_some_iff.mp ht
      simp only [List.length_cons] at h
      show ((s.poke a b).storeBytes (a + 1) bs).1.byteAt a' = s.byteAt a'
      rw [ih (s.poke a b) (a + 1) (by omega), State.byteAt_poke_other s b (by omega)]

/-- A block store whose addresses are all in program space succeeds. -/
theorem State.storeBytes_ok {s : State} {a : Nat} {bs : List Byte} (h : ∀ k < bs.length, busAllows (a + k) = true) :
    (s.storeBytes a bs).2 = none := by
  induction bs generalizing s a with
  | nil => rfl
  | cons b bs ih =>
    have h0 : busAllows a = true := h 0 (by simp)
    simp only [State.storeBytes, State.busWrite, h0, if_true]
    refine ih fun k hk => ?_
    have := h (k + 1) (by simp; omega)
    rwa [Nat.add_right_comm, Nat.add_assoc]

/-- A block store that succeeds is read back, byte for byte. -/
theorem State.storeBytes_same {s : State} {a : Nat} {bs : List Byte} (hm : Memory.wf s.cfg s.mem)
    (h : ∀ k < bs.length, busAllows (a + k) = true) (k : Nat) (hk : k < bs.length) :
    (s.storeBytes a bs).1.byteAt (a + k) = bs[k] := by
  induction bs generalizing s a k with
  | nil => simp at hk
  | cons b bs ih =>
    have h0 : busAllows a = true := h 0 (by simp)
    have ht : ∀ k < bs.length, busAllows (a + 1 + k) = true := fun k hk => by
      have := h (k + 1) (by simp; omega)
      rwa [Nat.add_right_comm, Nat.add_assoc]
    simp only [State.storeBytes, State.busWrite, h0, if_true]
    rcases k with _ | k
    · show ((s.poke a b).storeBytes (a + 1) bs).1.byteAt a = b
      rw [State.storeBytes_other _ _ _ (by omega), State.byteAt_poke_same a b hm]
    · have := ih (s := s.poke a b) (State.poke_wf a b hm) ht k (by simpa using hk)
      rw [show a + (k + 1) = a + 1 + k by omega, this]
      rfl

/-- A block store that fails, fails at the first address outside program space. -/
theorem State.storeBytes_error {s : State} {a e : Nat} {bs : List Byte} (h : (s.storeBytes a bs).2 = some e) :
    ∃ k < bs.length, e = a + k ∧ busAllows e = false ∧ ∀ j < k, busAllows (a + j) = true := by
  induction bs generalizing s a with
  | nil => simp [State.storeBytes] at h
  | cons b bs ih =>
    rw [State.storeBytes] at h
    split at h
    · rename_i hw
      cases h
      exact ⟨0, by simp, rfl, State.busWrite_eq_none_iff.mp hw, by omega⟩
    · rename_i t ht
      obtain ⟨h0, rfl⟩ := State.busWrite_eq_some_iff.mp ht
      obtain ⟨k, hk, rfl, hf, hj⟩ := ih h
      refine ⟨k + 1, by simpa using hk, by omega, hf, fun j hjk => ?_⟩
      rcases j with _ | j
      · exact h0
      · have := hj j (by omega)
        rwa [Nat.add_right_comm, Nat.add_assoc] at this

/-- A block store whose byte `j` is the first outside program space stores the bytes before it and no other (R72). -/
theorem State.storeBytes_stops {s : State} {a j : Nat} {bs : List Byte} (hm : Memory.wf s.cfg s.mem) (hj : j < bs.length)
    (h : ∀ k < j, busAllows (a + k) = true) (h' : busAllows (a + j) = false) :
    (s.storeBytes a bs).2 = some (a + j) ∧ (∀ k (hk : k < j), (s.storeBytes a bs).1.byteAt (a + k) = bs[k]) ∧
    (∀ b, b < a ∨ a + j ≤ b → (s.storeBytes a bs).1.byteAt b = s.byteAt b) := by
  induction bs generalizing s a j with
  | nil => simp at hj
  | cons b bs ih =>
    rcases j with _ | j
    · simp [State.storeBytes, State.busWrite, show busAllows a = false from h']
    · have h0 : busAllows a = true := h 0 (by omega)
      obtain ⟨i1, i2, i3⟩ := ih (s := s.poke a b) (a := a + 1) (j := j) (State.poke_wf a b hm) (by simpa using hj)
        (fun k hk => by have := h (k+1) (by omega); rwa [Nat.add_right_comm, Nat.add_assoc]) (by rwa [Nat.add_right_comm, Nat.add_assoc])
      simp only [State.storeBytes, State.busWrite, h0, if_true]
      refine ⟨by rw [i1]; congr 1; omega, fun k hk => ?_, fun c hc => ?_⟩
      · rcases k with _ | k
        · rw [i3 _ (by omega)]; exact State.byteAt_poke_same a b hm
        · rw [show a + (k+1) = a + 1 + k by omega, i2 k (by omega)]; rfl
      · rw [i3 c (by omega), State.byteAt_poke_other _ _ (by omega)]

/-- A block store leaves every byte outside program space alone. -/
theorem State.storeBytes_refused (s : State) (a : Nat) (bs : List Byte) {a' : Nat} (h : busAllows a' = false) :
    (s.storeBytes a bs).1.byteAt a' = s.byteAt a' := by
  induction bs generalizing s a with
  | nil => rfl
  | cons b bs ih =>
    rw [State.storeBytes]
    split
    · rfl
    · rename_i t ht
      obtain ⟨h0, rfl⟩ := State.busWrite_eq_some_iff.mp ht
      exact (ih (s.poke a b) (a + 1)).trans (State.byteAt_poke_other s b (by rintro rfl; simp [h] at h0))

/-- The bytes a block store listed are in program space, if those listed before are. -/
theorem State.storeBytes_inProgram {s : State} (a : Nat) (bs : List Byte)
    (h : ∀ p ∈ s.mem, busAllows p.1 = true) : ∀ p ∈ (s.storeBytes a bs).1.mem, busAllows p.1 = true := by
  induction bs generalizing s a with
  | nil => exact h
  | cons b bs ih =>
    rw [State.storeBytes]
    split
    · exact h
    · rename_i t ht
      obtain ⟨h0, rfl⟩ := State.busWrite_eq_some_iff.mp ht
      refine ih (a + 1) fun p hp => ?_
      rcases Memory.mem_put hp with hp | ⟨rfl, -⟩
      · exact h p hp
      · exact h0

end Sys2Proof.Machine
end

