-- ==== Sys2Proof/Laws/Ops.lean ====
section
/-! SUPPORT. What each shared operation over registers, the stack, the quirks and the skip can do, said once. -/

namespace Sys2Proof.Machine

/-! ### Registers -/

/-- `V[y]` after `V[x] <- b` (spec R21). -/
@[simp] theorem State.getV_setV (s : State) (x y : Nibble) (b : Byte) :
    (s.setV x b).getV y = if y = x then b else s.getV y := by
  simp only [State.getV, State.setV, Vector.getElem_set, BitVec.toNat_eq]
  by_cases h : x.toNat = y.toNat
  · simp [h]
  · simp [h, Ne.symm h]

@[simp] theorem State.getV_setPc (s : State) (w : Word) (y : Nibble) : (s.setPc w).getV y = s.getV y := rfl
@[simp] theorem State.getV_advance (s : State) (y : Nibble) : s.advance.getV y = s.getV y := rfl
@[simp] theorem State.getV_promote (s : State) (g : Gen) (y : Nibble) : (s.promote g).getV y = s.getV y := rfl
@[simp] theorem State.getV_countDraw (s : State) (y : Nibble) : s.countDraw.getV y = s.getV y := rfl
@[simp] theorem State.getV_setPlanes (s : State) (p q : Plane) (y : Nibble) : (s.setPlanes p q).getV y = s.getV y := rfl

/-- `VF` gets the flag, every other register is as it was (R22). -/
@[simp] theorem State.getV_setFlag (s : State) (f : Bool) (y : Nibble) :
    (s.setFlag f).getV y = if y = flagReg then flagByte f else s.getV y := by
  rw [State.setFlag, State.getV_setV]

/-- The result to `V[x]`, then the flag to `VF`, so that the flag wins when x is F (R183). -/
@[simp] theorem State.getV_setWithFlag (s : State) (x y : Nibble) (r : Byte) (f : Bool) :
    (s.setWithFlag x r f).getV y = if y = flagReg then flagByte f else if y = x then r else s.getV y := by
  rw [State.setWithFlag, State.getV_setFlag, State.getV_setV]

/-- Two vectors of registers are equal when every register is. -/
theorem State.v_eq_of_getV {s t : State} (h : ∀ x, t.getV x = s.getV x) : t.v = s.v := by
  refine Vector.ext fun i hi => ?_
  have := h (BitVec.ofNat 4 i)
  simpa [State.getV, Nat.mod_eq_of_lt hi] using this

/-- The low digit of a byte, when it is one (R309). -/
theorem State.digit_eq_some_iff {s : State} {x k : Nibble} : s.digit x = some k ↔ (s.getV x).toNat = k.toNat := by
  unfold State.digit
  have hk := k.isLt
  split
  · rename_i h
    simp only [Option.some.injEq, BitVec.toNat_eq, BitVec.toNat_setWidth]
    omega
  · simp only [reduceCtorEq, false_iff]
    omega

theorem State.digit_eq_none_iff {s : State} {x : Nibble} : s.digit x = none ↔ 15 < (s.getV x).toNat := by
  unfold State.digit
  split <;> simp <;> omega

/-! ### The return stack -/

/-- `Push` succeeds below 16 entries, and then writes the entry at the old `SP` (R31). -/
theorem State.push_of_lt {s : State} (w : Word) (h : s.sp.val < 16) :
    s.push w = some { s with stack := s.stack.set s.sp.val w h, sp := ⟨s.sp.val + 1, by omega⟩ } := by
  rw [State.push, dif_pos h]

theorem State.push_of_full {s : State} (w : Word) (h : s.sp.val = 16) : s.push w = none := by
  rw [State.push, dif_neg (by omega)]

/-- `Pop` succeeds above 0 entries, and leaves the stack's entries as they are (R30, R32). -/
theorem State.pop_of_pos {s : State} (h : 0 < s.sp.val) :
    s.pop = some (s.stack[s.sp.val - 1]'(by omega), { s with sp := ⟨s.sp.val - 1, by omega⟩ }) := by
  rw [State.pop, dif_neg (by omega)]

theorem State.pop_of_empty {s : State} (h : s.sp.val = 0) : s.pop = none := by
  rw [State.pop, dif_pos h]

/-! ### Skips -/

/-- Everything a conditional skip can answer (R150). -/
theorem State.skipIf_cases (s : State) (c : Bool) :
    (c = false ∧ s.skipIf c = .next s.advance) ∨
    (∃ w, c = true ∧ s.readWord (s.pc.toNat + 2) = .ok w ∧
      s.skipIf c = .next (s.setPc (s.pc + (if w = 0xF000 then 6 else 4)))) ∨
    (∃ a, c = true ∧ s.readWord (s.pc.toNat + 2) = .error a ∧ s.skipIf c = s.trap (.memoryAccess a .read)) := by
  unfold State.skipIf
  cases c
  · exact .inl ⟨rfl, rfl⟩
  · rcases h : s.readWord (s.pc.toNat + 2) with a | w
    · exact .inr (.inr ⟨a, rfl, rfl, by simp⟩)
    · exact .inr (.inl ⟨w, rfl, rfl, by simp⟩)

/-! ### Promotion -/

/-- Promotion never lowers the mode (R123, R132). -/
theorem modeRank_promoteMode (forced : Bool) (g : Gen) (m : Mode) : modeRank m ≤ modeRank (promoteMode forced g m) := by
  cases forced <;> cases g <;> cases m <;> decide

theorem promoteMode_forced (g : Gen) (m : Mode) : promoteMode true g m = m := rfl

theorem promoteMode_base (forced : Bool) (m : Mode) : promoteMode forced .base m = m := by
  cases forced <;> cases m <;> rfl

/-! ### Block loads and the flag store -/

/-- A block load changes the registers only. -/
theorem State.loadFrom_frame (s : State) (a k n : Nat) : (s.loadFrom a k n).1 = { s with v := (s.loadFrom a k n).1.v } := by
  induction n generalizing s k with
  | zero => rfl
  | succ n ih =>
    rw [State.loadFrom]
    split
    · rfl
    · rename_i b hb
      exact ih (s.setV (BitVec.ofNat 4 k) b) (k + 1)

/-- A block load whose addresses are all in program space succeeds. -/
theorem State.loadFrom_ok {s : State} {a k n : Nat} (h : ∀ j < n, busAllows (a + (k + j)) = true) :
    (s.loadFrom a k n).2 = none := by
  induction n generalizing s k with
  | zero => rfl
  | succ n ih =>
    have h0 : busAllows (a + k) = true := h 0 (by omega)
    simp only [State.loadFrom, State.busRead, h0, if_true]
    refine ih fun j hj => ?_
    have := h (j + 1) (by omega)
    rwa [show k + (j + 1) = k + 1 + j by omega] at this

/-- The registers after a block load that succeeds (R207). -/
theorem State.getV_loadFrom {s : State} {a k n : Nat} (h : ∀ j < n, busAllows (a + (k + j)) = true) (hk : k + n ≤ 16)
    (y : Nibble) :
    (s.loadFrom a k n).1.getV y =
      if k ≤ y.toNat ∧ y.toNat < k + n then s.byteAt (a + y.toNat) else s.getV y := by
  induction n generalizing s k with
  | zero =>
    rw [if_neg (by omega)]
    rfl
  | succ n ih =>
    have h0 : busAllows (a + k) = true := h 0 (by omega)
    have ht : ∀ j < n, busAllows (a + (k + 1 + j)) = true := fun j hj => by
      have := h (j + 1) (by omega)
      rwa [show k + (j + 1) = k + 1 + j by omega] at this
    simp only [State.loadFrom, State.busRead, h0, if_true]
    rw [ih ht (by omega), State.getV_setV]
    have hkn : (BitVec.ofNat 4 k).toNat = k := by
      rw [BitVec.toNat_ofNat]
      omega
    have hy : (y = BitVec.ofNat 4 k) ↔ y.toNat = k := by rw [BitVec.toNat_eq, hkn]
    simp only [hy]
    have hb : (s.setV (BitVec.ofNat 4 k) (s.byteAt (a + k))).byteAt (a + y.toNat) = s.byteAt (a + y.toNat) := rfl
    rw [hb]
    by_cases hc : y.toNat = k
    · rw [if_neg (by omega), if_pos hc, if_pos (by omega), hc]
    · rw [if_neg hc]
      congr 1
      simp only [eq_iff_iff]
      omega

/-- A block load whose byte `j` is the first outside program space loads the registers before it and no other (R72). -/
theorem State.loadFrom_stops {s : State} {a k n j : Nat} (hj : j < n) (hk : k + n ≤ 16)
    (h : ∀ i < j, busAllows (a + (k + i)) = true) (h' : busAllows (a + (k + j)) = false) :
    (s.loadFrom a k n).2 = some (a + (k + j)) ∧
    ∀ z : Nibble, (s.loadFrom a k n).1.getV z = if k ≤ z.toNat ∧ z.toNat < k + j then s.byteAt (a + z.toNat) else s.getV z := by
  induction n generalizing s k j with
  | zero => omega
  | succ n ih =>
    rcases j with _ | j
    · have : busAllows (a + k) = false := h'
      simp [State.loadFrom, State.busRead, this]
    · have h0 : busAllows (a + k) = true := h 0 (by omega)
      obtain ⟨i1, i2⟩ := ih (s := s.setV (BitVec.ofNat 4 k) (s.byteAt (a+k))) (k := k+1) (j := j) (by omega) (by omega)
        (fun i hi => by have := h (i+1) (by omega); rwa [show k + (i+1) = k + 1 + i by omega] at this) (by rwa [show k + (j+1) = k + 1 + j by omega] at h')
      simp only [State.loadFrom, State.busRead, h0, if_true]
      refine ⟨by rw [i1]; congr 1; omega, fun z => ?_⟩
      rw [i2, State.getV_setV]
      have hkn : (BitVec.ofNat 4 k).toNat = k := by rw [BitVec.toNat_ofNat]; omega
      have hy : (z = BitVec.ofNat 4 k) ↔ z.toNat = k := by rw [BitVec.toNat_eq, hkn]
      simp only [hy]
      have hb : (s.setV (BitVec.ofNat 4 k) (s.byteAt (a + k))).byteAt (a + z.toNat) = s.byteAt (a + z.toNat) := rfl
      rw [hb]
      by_cases hc : z.toNat = k
      · rw [if_neg (by omega), if_pos hc, if_pos (by omega), hc]
      · rw [if_neg hc]; congr 1; simp only [eq_iff_iff]; omega

/-- A byte of an overlay (R208, R209). -/
theorem overlay_getElem (x : Nibble) (a b : Vector Byte 16) (k : Nat) (hk : k < 16) :
    (overlay x a b)[k] = if k ≤ x.toNat then a[k] else b[k] := by
  simp [overlay]

end Sys2Proof.Machine
end

