-- ==== Sys2Proof/Laws/Display.lean ====
section
/-! SUPPORT. What the compositor's operations do to a cell: inverting, scrolling, drawing (spec R224, R232, R233). -/

namespace Sys2Proof.Machine

theorem Plane.lit_eq_false_of_row {p : Plane} {py : Nat} (px : Nat) (h : 64 ≤ py) : p.lit py px = false := by
  simp [Plane.lit, Vector.getElem?_eq_none (show 64 ≤ py from h)]

theorem Plane.lit_eq {p : Plane} {py : Nat} (px : Nat) (h : py < 64) : p.lit py px = p[py].getLsbD px := by
  simp [Plane.lit, h]

/-- Two planes are equal when every cell of the grid is. -/
theorem Plane.ext_lit {p q : Plane} (h : ∀ py px, py < 64 → px < 128 → p.lit py px = q.lit py px) : p = q := by
  refine Vector.ext fun i hi => ?_
  refine BitVec.eq_of_getLsbD_eq fun j hj => ?_
  have := h i j hi hj
  rwa [Plane.lit_eq j hi, Plane.lit_eq j hi] at this

/-- Inverting a cell of the grid inverts it and no other. -/
theorem Plane.lit_flip (p : Plane) {py px : Nat} (hy : py < 64) (hx : px < 128) (qy qx : Nat) :
    (p.flip py px).lit qy qx = (p.lit qy qx ^^ (decide (qy = py) && decide (qx = px))) := by
  by_cases hq : qy < 64
  · have h1 : (1#128 <<< px).getLsbD qx = decide (qx = px) := by
      rw [BitVec.getLsbD_shiftLeft]
      by_cases hqx : qx = px
      · simp [hqx, hx]
      · by_cases hlt : qx < px
        · simp [hlt, hqx]
        · have : qx - px ≠ 0 := by omega
          simp [hqx, BitVec.getLsbD_one, this]
    by_cases hqy : qy = py
    · subst hqy
      simp only [Plane.flip, dif_pos hq, Plane.lit_eq _ hq, Vector.getElem_set_self, BitVec.getLsbD_xor, h1]
      simp
    · simp [Plane.flip, dif_pos hy, Plane.lit_eq _ hq, Vector.getElem_set_ne _ _ (Ne.symm hqy), hqy]
  · have hne : qy ≠ py := by omega
    rw [Plane.lit_eq_false_of_row _ (by omega), Plane.lit_eq_false_of_row _ (by omega)]
    simp [hne]

/-- Drawing is: every cell inverted as often as it is listed. -/
theorem drawCells_lit (cs : List (Nat × Nat)) (a : Plane × Bool) (h : ∀ c ∈ cs, c.1 < 64 ∧ c.2 < 128) (qy qx : Nat) :
    (drawCells cs a).1.lit qy qx = (a.1.lit qy qx ^^ decide (cs.count (qy, qx) % 2 = 1)) := by
  induction cs generalizing a with
  | nil => simp [drawCells]
  | cons c cs ih =>
    obtain ⟨p, coll⟩ := a
    obtain ⟨py, px⟩ := c
    have hc := h (py, px) (by simp)
    rw [drawCells, ih _ fun c hc => h c (by simp [hc]), Plane.lit_flip p hc.1 hc.2]
    by_cases he : (py, px) = (qy, qx)
    · obtain ⟨rfl, rfl⟩ := Prod.mk.inj he
      rw [List.count_cons_self]
      rcases Nat.mod_two_eq_zero_or_one (cs.count (py, px)) with h2 | h2
      · have h3 : (cs.count (py, px) + 1) % 2 = 1 := by omega
        simp [h2, h3]
      · have h3 : (cs.count (py, px) + 1) % 2 = 0 := by omega
        simp [h2, h3]
    · have hne : ¬(qy = py ∧ qx = px) := fun hh => he (by simp [hh.1, hh.2])
      rw [List.count_cons_of_ne he]
      have : (decide (qy = py) && decide (qx = px)) = false := by simpa using hne
      rw [this]
      simp

/-- A scroll moves the picture down: row `py` shows what stood `d` rows above it (R224). -/
theorem Plane.lit_scroll_down (p : Plane) (d : Nat) {py : Nat} (px : Nat) (h : py < 64) :
    (p.scroll .down d).lit py px = (decide (d ≤ py) && p.lit (py - d) px) := by
  rw [Plane.lit_eq px h, Plane.lit_eq px (show py - d < 64 by omega)]
  by_cases hd : d ≤ py <;> simp [Plane.scroll, hd]

theorem Plane.lit_scroll_up (p : Plane) (d : Nat) {py : Nat} (px : Nat) (h : py < 64) :
    (p.scroll .up d).lit py px = (decide (py + d ≤ 63) && p.lit (py + d) px) := by
  rw [Plane.lit_eq px h]
  by_cases hd : py + d ≤ 63
  · rw [Plane.lit_eq px (show py + d < 64 by omega)]
    simp [Plane.scroll, hd]
  · simp [Plane.scroll, hd]

theorem Plane.lit_scroll_right (p : Plane) (d : Nat) {py px : Nat} (h : py < 64) (hx : px < 128) :
    (p.scroll .right d).lit py px = (decide (d ≤ px) && p.lit py (px - d)) := by
  rw [Plane.lit_eq px h, Plane.lit_eq (px - d) h]
  by_cases hd : d ≤ px
  · have : ¬ px < d := by omega
    simp [Plane.scroll, hd, hx, this]
    exact (BitVec.getLsbD_eq_getElem _).symm
  · have : px < d := by omega
    simp [Plane.scroll, hd, this]

theorem Plane.lit_scroll_left (p : Plane) (d : Nat) {py : Nat} (px : Nat) (h : py < 64) :
    (p.scroll .left d).lit py px = p.lit py (px + d) := by
  rw [Plane.lit_eq px h, Plane.lit_eq (px + d) h]
  simp [Plane.scroll, Nat.add_comm]

/-- A draw into a plane leaves it alone where it is not selected, and then reports nothing. -/
theorem drawPlane_unselected (cs : List (Nat × Nat)) (p : Plane) : drawPlane false cs p = (p, false) := rfl

theorem drawPlane_selected (cs : List (Nat × Nat)) (p : Plane) : drawPlane true cs p = drawCells cs (p, false) := rfl

/-! ### Sprites -/

/-- The cells of a logical pixel are those whose coordinates, divided by the scale, are the pixel's (R221). -/
theorem mem_blockCells {s lx ly : Nat} (hs : 0 < s) (c : Nat × Nat) :
    c ∈ blockCells s lx ly ↔ c.1 / s = ly ∧ c.2 / s = lx := by
  obtain ⟨qy, qx⟩ := c
  simp only [blockCells, List.mem_flatMap, List.mem_map, List.mem_range, Prod.mk.injEq]
  constructor
  · rintro ⟨dy, hy, dx, hx, rfl, rfl⟩
    exact ⟨by rw [Nat.mul_add_div hs, Nat.div_eq_of_lt hy]; rfl, by rw [Nat.mul_add_div hs, Nat.div_eq_of_lt hx]; rfl⟩
  · rintro ⟨rfl, rfl⟩
    exact ⟨qy % s, Nat.mod_lt _ hs, qx % s, Nat.mod_lt _ hs, Nat.div_add_mod _ _, Nat.div_add_mod _ _⟩

theorem nodup_blockCells {s lx ly : Nat} : (blockCells s lx ly).Nodup := by
  refine List.nodup_flatMap.mpr ⟨fun dy _ => ?_, ?_⟩
  · exact List.Nodup.map (fun a b h => by simp only [Prod.mk.injEq] at h; omega) List.nodup_range
  · refine List.nodup_range.imp_of_mem ?_
    intro a b _ _ hab
    simp only [Function.onFun, List.disjoint_left, List.mem_map, not_exists, not_and]
    rintro c ⟨x, _, rfl⟩ y _ h
    simp only [Prod.mk.injEq] at h; omega

/-- Where a sprite's cells are (R232, R234). -/
theorem mem_spriteCells {k : Canvas} (hs : 0 < k.scale) (bytes : List Byte) (cols rows : Nat) (q : Nat × Nat) :
    q ∈ spriteCells k bytes cols rows ↔ ∃ r < rows, ∃ c < cols, spriteBit bytes cols r c = true ∧
      (k.clip = true → k.x0 + c < k.width ∧ k.y0 + r < k.height) ∧
      q.1 / k.scale = (k.y0 + r) % k.height ∧ q.2 / k.scale = (k.x0 + c) % k.width := by
  simp only [spriteCells, List.mem_flatMap, List.mem_range]
  refine exists_congr fun r => and_congr_right fun _ => exists_congr fun c => and_congr_right fun _ => ?_
  by_cases hb : spriteBit bytes cols r c
  · by_cases hc : k.clip && (decide (k.width ≤ k.x0 + c) || decide (k.height ≤ k.y0 + r))
    · simp only [hb, hc, if_true, List.not_mem_nil, true_and, false_iff]
      rintro ⟨h, -⟩
      simp only [Bool.and_eq_true, Bool.or_eq_true, decide_eq_true_eq] at hc
      have := h hc.1; omega
    · simp only [hb, hc, if_true, true_and, Bool.false_eq_true, if_false, mem_blockCells hs]
      refine ⟨fun h => ⟨fun hk => ?_, h⟩, fun h => h.2⟩
      simp only [Bool.and_eq_true, Bool.or_eq_true, decide_eq_true_eq, not_and, not_or, not_le] at hc
      exact hc hk
  · simp [hb]

/-- A sprite no larger than the grid falls on no cell twice. -/
theorem nodup_spriteCells {k : Canvas} (hs : 0 < k.scale) (bytes : List Byte) {cols rows : Nat} (hc : cols ≤ k.width)
    (hr : rows ≤ k.height) : (spriteCells k bytes cols rows).Nodup := by
  have mod_inj : ∀ {m a b x : Nat}, a < m → b < m → (x + a) % m = (x + b) % m → a = b := by
    intro m a b x ha hb h
    have := Nat.ModEq.add_left_cancel' x (show x + a ≡ x + b [MOD m] from h)
    rwa [Nat.ModEq, Nat.mod_eq_of_lt ha, Nat.mod_eq_of_lt hb] at this
  refine List.nodup_flatMap.mpr ⟨fun r _ => List.nodup_flatMap.mpr ⟨fun c _ => ?_, ?_⟩, ?_⟩
  · split
    · split
      · exact List.nodup_nil
      · exact nodup_blockCells
    · exact List.nodup_nil
  · refine List.nodup_range.imp_of_mem fun {a b} ha hb hab => ?_
    rw [List.mem_range] at ha hb
    rw [Function.onFun, List.disjoint_left]
    intro q hq hq'
    split at hq
    · split at hq
      · cases hq
      · split at hq'
        · split at hq'
          · cases hq'
          · rw [mem_blockCells hs] at hq hq'
            exact hab (mod_inj (by omega) (by omega) (hq.2.symm.trans hq'.2))
        · cases hq'
    · cases hq
  · refine List.nodup_range.imp_of_mem fun {a b} ha hb hab => ?_
    rw [List.mem_range] at ha hb
    rw [Function.onFun, List.disjoint_left]
    intro q hq hq'
    obtain ⟨c, -, hq⟩ := List.mem_flatMap.mp hq
    obtain ⟨c', -, hq'⟩ := List.mem_flatMap.mp hq'
    split at hq
    · split at hq
      · cases hq
      · split at hq'
        · split at hq'
          · cases hq'
          · rw [mem_blockCells hs] at hq hq'
            exact hab (mod_inj (by omega) (by omega) (hq.1.symm.trans hq'.1))
        · cases hq'
    · cases hq

/-- Drawing cells of which none is listed twice reports a collision exactly if one of them was lit (R233). -/
theorem drawCells_collision (cs : List (Nat × Nat)) (a : Plane × Bool) (h : ∀ c ∈ cs, c.1 < 64 ∧ c.2 < 128)
    (hn : cs.Nodup) : (drawCells cs a).2 = true ↔ a.2 = true ∨ ∃ c ∈ cs, a.1.lit c.1 c.2 = true := by
  induction cs generalizing a with
  | nil => simp [drawCells]
  | cons c cs ih =>
    obtain ⟨p, coll⟩ := a
    obtain ⟨py, px⟩ := c
    have hc := h (py, px) (by simp)
    obtain ⟨hni, hn⟩ := List.nodup_cons.mp hn
    rw [drawCells, ih _ (fun c hc => h c (by simp [hc])) hn]
    have : ∀ c ∈ cs, (p.flip py px).lit c.1 c.2 = p.lit c.1 c.2 := by
      intro c hcs
      rw [Plane.lit_flip p hc.1 hc.2]
      have : ¬(c.1 = py ∧ c.2 = px) := fun h => hni (by rw [← h.1, ← h.2]; exact hcs)
      simp only [not_and] at this
      by_cases h1 : c.1 = py <;> simp_all
    simp only [Bool.or_eq_true, List.mem_cons, exists_eq_or_imp]
    constructor
    · rintro ((h | h) | ⟨c, hcs, h⟩)
      · exact .inl h
      · exact .inr (.inl h)
      · exact .inr (.inr ⟨c, hcs, by rwa [this c hcs] at h⟩)
    · rintro (h | h | ⟨c, hcs, h⟩)
      · exact .inl (.inl h)
      · exact .inl (.inr h)
      · exact .inr ⟨c, hcs, by rwa [this c hcs]⟩

/-- Drawing cells of which none is listed twice inverts exactly the listed cells. -/
theorem drawCells_inverts (cs : List (Nat × Nat)) (a : Plane × Bool) (h : ∀ c ∈ cs, c.1 < 64 ∧ c.2 < 128)
    (hn : cs.Nodup) (qy qx : Nat) : (drawCells cs a).1.lit qy qx = (a.1.lit qy qx ^^ decide ((qy, qx) ∈ cs)) := by
  rw [drawCells_lit cs a h]
  by_cases hm : (qy, qx) ∈ cs
  · simp [hm, List.count_eq_one_of_mem hn hm]
  · simp [hm, List.count_eq_zero_of_not_mem hm]

end Sys2Proof.Machine
end

