-- ==== Sys2Proof/Laws/Modes.lean ====
section
/-! SUPPORT. Promotion said in the terms of Sys2Proof/Safety.lean (spec R107, R123). -/

namespace Sys2Proof.Machine

/-- Promotion by a class writes the mode and nothing else. -/
theorem State.promote_eq (s : State) (g : Gen) : s.promote g = { s with mode := modeAfter g s } := by
  have : promoteMode s.modeForced g s.mode = modeAfter g s := by
    cases g <;> simp only [modeAfter, modeAfterS, modeAfterX] <;> cases s.modeForced <;> cases s.mode <;> rfl
  rw [State.promote, this]

/-- The state after the promotion of a row of class S. -/
theorem State.promote_superChip (s : State) : s.promote .superChip = { s with mode := modeAfterS s } := s.promote_eq .superChip

/-- The state after the promotion of a row of class X. -/
theorem State.promote_xoChip (s : State) : s.promote .xoChip = { s with mode := modeAfterX s } := s.promote_eq .xoChip

end Sys2Proof.Machine
end

