-- ==== Sys2Proof/Laws/Exec.lean ====
section
/-! SUPPORT. What every instruction leaves alone, and which instruction writes each of the other registers: one lemma about
`exec`, from which claims about a whole step follow without unfolding a meaning. -/

namespace Sys2Proof.Machine

/-- Everything an instruction leaves alone, field by field, and who writes each of the others. -/
structure ExecFrame (i : Instr) (s t : State) : Prop where
  same : t.keys = s.keys ∧ t.modeForced = s.modeForced ∧ t.phase = s.phase ∧ t.accCpu = s.accCpu ∧ t.accTimer = s.accTimer ∧
    t.accPresent = s.accPresent ∧ t.lastNow = s.lastNow ∧ t.cpuTicks = s.cpuTicks ∧ t.cfg = s.cfg ∧ t.turn = s.turn ∧
    t.inputsRead = s.inputsRead ∧ t.feed = s.feed ∧ t.port = s.port
  ended : (t.runState = s.runState ∧ t.fault = s.fault) ∨ (t.runState = .faulted ∧ t.fault.isSome = true ∧ t.pc = s.pc)
  mode : i.wf = true → t.mode = modeAfter i.gen s
  modeAny : t.mode = s.mode ∨ t.mode = modeAfterS s ∨ t.mode = modeAfterX s
  regI : t.regI = s.regI ∨ (∃ a, i = .ldI a) ∨ (∃ a, i = .ldILong a) ∨
    ∃ x, i = .addI x ∨ i = .ldFont x ∨ i = .ldBigFont x ∨ i = .storeRegs x ∨ i = .loadRegs x
  stack : t.stack = s.stack ∨ ∃ a, i = .call a
  sp : t.sp = s.sp ∨ i = .ret ∨ ∃ a, i = .call a
  planes : (∀ p, t.plane p = s.plane p) ∨ ((∀ p, s.selected p = false → t.plane p = s.plane p) ∧
    (i = .cls ∨ i = .scr ∨ i = .scl ∨ ∃ x y n, i = .scd n ∨ i = .scu n ∨ i = .drwBig x y ∨ i = .drw x y n))
  planesSel : t.planesSel = s.planesSel ∨ ∃ n, i = .plane n
  hires : t.hires = s.hires ∨ i = .low ∨ i = .high
  pattern : t.pattern = s.pattern ∨ i = .audio
  pitch : t.pitch = s.pitch ∨ ∃ x, i = .pitch x
  flags : t.flags = s.flags ∨ ∃ x, i = .saveFlags x
  delay : t.delay = s.delay ∨ ∃ x, i = .ldDtVx x ∧ t.delay = s.getV x
  sound : t.sound = s.sound ∨ ∃ x, i = .ldStVx x ∧ t.sound = s.getV x
  cpuState : t.cpuState = s.cpuState ∨ ∃ x, i = .ldVxKey x ∧ t = { s with cpuState := .awaitingKey x none }
  mem : t.mem = s.mem ∨ ∃ x bs, t.mem = (s.storeBytes s.base bs).1.mem ∧
    ((i = .bcd x ∧ bs.length = 3) ∨ (i = .storeRegs x ∧ bs.length = x.toNat + 1))

/-- The frame of an instruction that writes `V`, `PC` and the mode alone, or takes a fault. -/
theorem frame_of_eq {i : Instr} {s t : State} (e : t = { s with v := t.v, pc := t.pc, mode := t.mode, runState := t.runState, fault := t.fault})
   (ended : (t.runState = s.runState ∧ t.fault = s.fault) ∨ (t.runState = .faulted ∧ t.fault.isSome = true ∧ t.pc = s.pc))
   (mode : t.mode = modeAfter i.gen s) : ExecFrame i s t := by
  have hm : t.mode = s.mode ∨ t.mode = modeAfterS s ∨ t.mode = modeAfterX s := by
    rw [mode]; cases i.gen <;> simp [modeAfter]
  refine ⟨?_, ended, fun _ => mode, hm, .inl ?_, .inl ?_, .inl ?_, .inl ?_, .inl ?_, .inl ?_, .inl ?_, .inl ?_, .inl ?_, .inl ?_, .inl ?_, .inl ?_, .inl ?_⟩
  · rw [e]; exact ⟨rfl, rfl, rfl, rfl, rfl, rfl, rfl, rfl, rfl, rfl, rfl, rfl, rfl⟩
  all_goals first | (rw [e]; done) | (intro p; rw [e]; rfl)

/-- The frame of a conditional skip (R150). -/
theorem frame_skip {i : Instr} (hg : i.gen = .base) {s t : State} {c} (h : s.skipIf c = .next t) : ExecFrame i s t := by
  rcases s.skipIf_cases c with ⟨-, e⟩ | ⟨w, -, -, e⟩ | ⟨a, -, -, e⟩ <;> rw [e] at h <;> cases h
  · exact frame_of_eq rfl (.inl ⟨rfl, rfl⟩) (by rw [hg]; rfl)
  · exact frame_of_eq rfl (.inl ⟨rfl, rfl⟩) (by rw [hg]; rfl)
  · exact frame_of_eq rfl (.inr ⟨rfl, rfl, rfl⟩) (by rw [hg]; rfl)

/-- The frame of an instruction that maps the selected planes (R222). -/
theorem frame_selected {i : Instr} {s t : State} {m} (f : Plane → Plane) (e : t = ((({ s with mode := m} : State).onSelected f).advance)) (hm : m = modeAfter i.gen s) (hi : (i = .cls ∨ i = .scr ∨ i = .scl ∨ ∃ x y n, i = .scd n ∨ i = .scu n ∨ i = .drwBig x y ∨ i = .drw x y n)) : ExecFrame i s t := by
  subst e
  have hma : m = s.mode ∨ m = modeAfterS s ∨ m = modeAfterX s := by
    rw [hm]; cases i.gen <;> simp [modeAfter]
  refine ⟨⟨rfl, rfl, rfl, rfl, rfl, rfl, rfl, rfl, rfl, rfl, rfl, rfl, rfl⟩, .inl ⟨rfl, rfl⟩, fun _ => hm, hma, .inl rfl, .inl rfl, .inl rfl, .inr ⟨fun p hp => ?_, hi⟩, .inl rfl, .inl rfl, .inl rfl, .inl rfl, .inl rfl, .inl rfl, .inl rfl, .inl rfl, .inl rfl⟩
  fin_cases p
  · change s.planesSel.getLsbD 0 = false at hp
    show (if s.planesSel.getLsbD 0 then f s.plane0 else s.plane0) = s.plane0
    rw [hp]; rfl
  · change s.planesSel.getLsbD 1 = false at hp
    show (if s.planesSel.getLsbD 1 then f s.plane1 else s.plane1) = s.plane1
    rw [hp]; rfl
/-- The frame of a draw (R232). -/
theorem frame_draw {i : Instr} {s t : State} {m x y cols rows} (hm : m = modeAfter i.gen s) (h : ({ s with mode := m} : State).draw x y cols rows = .next t)
    (hi : (i = .cls ∨ i = .scr ∨ i = .scl ∨ ∃ x y n, i = .scd n ∨ i = .scu n ∨ i = .drwBig x y ∨ i = .drw x y n)) : ExecFrame i s t := by
  have hma : m = s.mode ∨ m = modeAfterS s ∨ m = modeAfterX s := by
    rw [hm]; cases i.gen <;> simp [modeAfter]
  unfold State.draw at h
  split at h
  · cases h; exact frame_of_eq rfl (.inr ⟨rfl, rfl, rfl⟩) hm
  · cases h
    refine ⟨⟨rfl, rfl, rfl, rfl, rfl, rfl, rfl, rfl, rfl, rfl, rfl, rfl, rfl⟩, .inl ⟨rfl, rfl⟩, fun _ => hm, hma, .inl rfl, .inl rfl, .inl rfl, .inr ⟨fun p hp => ?_, hi⟩, .inl rfl, .inl rfl, .inl rfl, .inl rfl, .inl rfl, .inl rfl, .inl rfl, .inl rfl, .inl rfl⟩
    fin_cases p
    · change s.planesSel.getLsbD 0 = false at hp
      show (drawPlane (s.planesSel.getLsbD 0) _ s.plane0).1 = s.plane0
      rw [hp]; rfl
    · change s.planesSel.getLsbD 1 = false at hp
      show (drawPlane (s.planesSel.getLsbD 1) _ s.plane1).1 = s.plane1
      rw [hp]; rfl

/-- The frame of an instruction that stores a block at `I` (R205, R206). -/
theorem frame_store {i : Instr} {s t u : State} {x bs o} (hp : s.storeBytes s.base bs = (u, o))
    (hi : ((i = .bcd x ∧ bs.length = 3) ∨ (i = .storeRegs x ∧ bs.length = x.toNat + 1)))
    (ht : t = { u with regI := t.regI, pc := t.pc, runState := t.runState, fault := t.fault })
    (he : (t.runState = s.runState ∧ t.fault = s.fault) ∨ (t.runState = .faulted ∧ t.fault.isSome = true ∧ t.pc = s.pc))
    (hI : t.regI = s.regI ∨ ∃ x, i = .storeRegs x) : ExecFrame i s t := by
  have hf := State.storeBytes_frame s s.base bs
  rw [hp] at hf
  have hmem : t.mem = (s.storeBytes s.base bs).1.mem := by rw [hp, ht]
  have hg : i.gen = .base := by rcases hi with ⟨rfl, -⟩ | ⟨rfl, -⟩ <;> rfl
  have hu : u = { s with mem := u.mem } := hf
  have e0 : t = { s with mem := u.mem, regI := t.regI, pc := t.pc, runState := t.runState, fault := t.fault } :=
    ht.trans (by conv_lhs => rw [hu])
  have hmm : t.mem = u.mem := by rw [ht]
  have e : t = { s with mem := t.mem, regI := t.regI, pc := t.pc, runState := t.runState, fault := t.fault } := by
    rw [hmm]; exact e0
  refine ⟨?_, he, fun _ => by rw [e, hg]; rfl, .inl (by rw [e]), hI.imp id (fun ⟨x, h⟩ => .inr (.inr ⟨x, by simp [h]⟩)), .inl (by rw [e]), .inl (by rw [e]), .inl (fun p => by rw [e]; rfl), .inl (by rw [e]), .inl (by rw [e]), .inl (by rw [e]), .inl (by rw [e]), .inl (by rw [e]), .inl (by rw [e]), .inl (by rw [e]), .inl (by rw [e]), .inr ⟨x, bs, hmem, hi⟩⟩
  rw [e]; exact ⟨rfl, rfl, rfl, rfl, rfl, rfl, rfl, rfl, rfl, rfl, rfl, rfl, rfl⟩

/-- The frame of an instruction that leaves memory, the planes and the run state alone. -/
theorem frame_one {i : Instr} {s t : State} {m} (hm : m = modeAfter i.gen s)
   (e : t = { s with v := t.v, pc := t.pc, mode := m, regI := t.regI, stack := t.stack, sp := t.sp, planesSel := t.planesSel, hires := t.hires, pattern := t.pattern, pitch := t.pitch, flags := t.flags, out := t.out, delay := t.delay, sound := t.sound, cpuState := t.cpuState, draws := t.draws })
   (regI : t.regI = s.regI ∨ (∃ a, i = .ldI a) ∨ (∃ a, i = .ldILong a) ∨
    ∃ x, i = .addI x ∨ i = .ldFont x ∨ i = .ldBigFont x ∨ i = .storeRegs x ∨ i = .loadRegs x)
   (stack : t.stack = s.stack ∨ ∃ a, i = .call a)
   (sp : t.sp = s.sp ∨ i = .ret ∨ ∃ a, i = .call a)
   (planesSel : t.planesSel = s.planesSel ∨ ∃ n, i = .plane n)
   (hires : t.hires = s.hires ∨ i = .low ∨ i = .high)
   (pattern : t.pattern = s.pattern ∨ i = .audio)
   (pitch : t.pitch = s.pitch ∨ ∃ x, i = .pitch x)
   (flags : t.flags = s.flags ∨ ∃ x, i = .saveFlags x)
   (delay : t.delay = s.delay ∨ ∃ x, i = .ldDtVx x ∧ t.delay = s.getV x)
   (sound : t.sound = s.sound ∨ ∃ x, i = .ldStVx x ∧ t.sound = s.getV x)
   (cpuState : t.cpuState = s.cpuState ∨ ∃ x, i = .ldVxKey x ∧ t = { s with cpuState := .awaitingKey x none }) : ExecFrame i s t := by
  have hma : m = s.mode ∨ m = modeAfterS s ∨ m = modeAfterX s := by
    rw [hm]; cases i.gen <;> simp [modeAfter]
  have hm2 : t.mode = m := by rw [e]
  refine ⟨?_, .inl ⟨by rw [e], by rw [e]⟩, fun _ => by rw [hm2]; exact hm, by rw [hm2]; exact hma, regI, stack, sp, .inl (fun p => by rw [e]; rfl), planesSel, hires, pattern, pitch, flags, delay, sound, cpuState, .inl (by rw [e])⟩
  rw [e]; exact ⟨rfl, rfl, rfl, rfl, rfl, rfl, rfl, rfl, rfl, rfl, rfl, rfl, rfl⟩

/-- Whatever instruction completes or faults with a next state, that state is framed as `ExecFrame` says. -/
theorem exec_frame (i : Instr) (s t : State) (h : exec i s = .next t) : ExecFrame i s t := by
  cases i
  case cls => cases h; exact frame_selected (m := s.mode) _ rfl rfl (by simp)
  case scr => exact frame_selected (m := modeAfterS s) (Plane.scroll .right (4 * s.scale)) (by cases h; rw [State.promote_superChip]; rfl) rfl (by simp)
  case scl => exact frame_selected (m := modeAfterS s) (Plane.scroll .left (4 * s.scale)) (by cases h; rw [State.promote_superChip]; rfl) rfl (by simp)
  case scd n => exact frame_selected (m := modeAfterS s) (Plane.scroll .down (n.toNat * s.scale)) (by cases h; rw [State.promote_superChip]; rfl) rfl (by simp)
  case scu n => exact frame_selected (m := modeAfterX s) (Plane.scroll .up (n.toNat * s.scale)) (by cases h; rw [State.promote_xoChip]; rfl) rfl (by simp)
  case seImm => exact frame_skip rfl h
  case sneImm => exact frame_skip rfl h
  case seReg => exact frame_skip rfl h
  case sneReg => exact frame_skip rfl h
  case skp =>
    simp only [exec, execSkp] at h; split at h
    · cases h; exact frame_of_eq rfl (.inr ⟨rfl, rfl, rfl⟩) rfl
    · exact frame_skip rfl h
  case sknp =>
    simp only [exec, execSknp] at h; split at h
    · cases h; exact frame_of_eq rfl (.inr ⟨rfl, rfl, rfl⟩) rfl
    · exact frame_skip rfl h
  case drw x y n => exact frame_draw (m := s.mode) rfl h (by simp)
  case drwBig x y => exact frame_draw (m := modeAfterS s) rfl (by simp only [exec, execDrwBig, State.promote_superChip] at h; exact h) (by simp)
  case jp => cases h; exact frame_of_eq rfl (.inl ⟨rfl, rfl⟩) rfl
  case jpV0 => cases h; exact frame_of_eq rfl (.inl ⟨rfl, rfl⟩) rfl
  case ldImm => cases h; exact frame_of_eq rfl (.inl ⟨rfl, rfl⟩) rfl
  case addImm => cases h; exact frame_of_eq rfl (.inl ⟨rfl, rfl⟩) rfl
  case ldReg => cases h; exact frame_of_eq rfl (.inl ⟨rfl, rfl⟩) rfl
  case orReg => cases h; unfold State.setBitwise; split <;> exact frame_of_eq rfl (.inl ⟨rfl, rfl⟩) rfl
  case andReg => cases h; unfold State.setBitwise; split <;> exact frame_of_eq rfl (.inl ⟨rfl, rfl⟩) rfl
  case xorReg => cases h; unfold State.setBitwise; split <;> exact frame_of_eq rfl (.inl ⟨rfl, rfl⟩) rfl
  case addReg => cases h; exact frame_of_eq rfl (.inl ⟨rfl, rfl⟩) rfl
  case subReg => cases h; exact frame_of_eq rfl (.inl ⟨rfl, rfl⟩) rfl
  case shr => cases h; exact frame_of_eq rfl (.inl ⟨rfl, rfl⟩) rfl
  case subn => cases h; exact frame_of_eq rfl (.inl ⟨rfl, rfl⟩) rfl
  case shl => cases h; exact frame_of_eq rfl (.inl ⟨rfl, rfl⟩) rfl
  case ldVxDt => cases h; exact frame_of_eq rfl (.inl ⟨rfl, rfl⟩) rfl
  case loadFlags x =>
    simp only [exec, execLoadFlags, State.promote_superChip] at h
    generalize overlay x s.flags s.v = w at h
    cases h
    exact frame_one (m := modeAfterS s) rfl rfl (.inl rfl) (.inl rfl) (.inl rfl) (.inl rfl) (.inl rfl) (.inl rfl) (.inl rfl) (.inl rfl) (.inl rfl) (.inl rfl) (.inl rfl)
  case bcd x =>
    simp only [exec, execBcd] at h
    generalize hp : s.storeBytes s.base (decimalDigits (s.getV x)) = p at h
    obtain ⟨u, o⟩ := p
    have hr : u.regI = s.regI ∧ u.runState = s.runState ∧ u.fault = s.fault ∧ u.pc = s.pc := by
      have hf := State.storeBytes_frame s s.base (decimalDigits (s.getV x)); rw [hp] at hf
      replace hf : u = { s with mem := u.mem } := hf
      refine ⟨?_, ?_, ?_, ?_⟩ <;> rw [hf]
    cases o <;> simp only at h <;> cases h
    · exact frame_store hp (.inl ⟨rfl, rfl⟩) rfl (.inl ⟨hr.2.1, hr.2.2.1⟩) (.inl hr.1)
    · exact frame_store hp (.inl ⟨rfl, rfl⟩) rfl (.inr ⟨rfl, rfl, hr.2.2.2⟩) (.inl hr.1)
  case storeRegs x =>
    simp only [exec, execStoreRegs] at h
    generalize hp : s.storeBytes s.base (s.regsTo x) = p at h
    obtain ⟨u, o⟩ := p
    have hr : u.regI = s.regI ∧ u.runState = s.runState ∧ u.fault = s.fault ∧ u.pc = s.pc := by
      have hf := State.storeBytes_frame s s.base (s.regsTo x); rw [hp] at hf
      replace hf : u = { s with mem := u.mem } := hf
      refine ⟨?_, ?_, ?_, ?_⟩ <;> rw [hf]
    have hl : (s.regsTo x).length = x.toNat + 1 := by simp [State.regsTo]
    cases o <;> simp only at h <;> cases h
    · unfold State.incrementI; split
      · exact frame_store hp (.inr ⟨rfl, hl⟩) rfl (.inl ⟨hr.2.1, hr.2.2.1⟩) (.inr ⟨x, rfl⟩)
      · exact frame_store hp (.inr ⟨rfl, hl⟩) rfl (.inl ⟨hr.2.1, hr.2.2.1⟩) (.inr ⟨x, rfl⟩)
    · exact frame_store hp (.inr ⟨rfl, hl⟩) rfl (.inr ⟨rfl, rfl, hr.2.2.2⟩) (.inl hr.1)
  case loadRegs x =>
    simp only [exec, execLoadRegs] at h
    have hf := State.loadFrom_frame s s.base 0 (x.toNat + 1)
    generalize s.loadFrom s.base 0 (x.toNat + 1) = p at h hf
    obtain ⟨u, o⟩ := p
    simp only at hf
    cases o <;> simp only at h <;> cases h
    · unfold State.incrementI; split
      · rw [hf]; exact frame_one rfl rfl (by simp) (.inl rfl) (.inl rfl) (.inl rfl) (.inl rfl) (.inl rfl) (.inl rfl) (.inl rfl) (.inl rfl) (.inl rfl) (.inl rfl)
      · rw [hf]; exact frame_one rfl rfl (by simp) (.inl rfl) (.inl rfl) (.inl rfl) (.inl rfl) (.inl rfl) (.inl rfl) (.inl rfl) (.inl rfl) (.inl rfl) (.inl rfl)
    · rw [hf]; exact frame_of_eq rfl (.inr ⟨rfl, rfl, rfl⟩) rfl
  case call a =>
    simp only [exec, execCall] at h
    unfold State.push at h
    split at h
    · cases h; exact frame_of_eq rfl (.inr ⟨rfl, rfl, rfl⟩) rfl
    · rename_i u hu
      split at hu
      · cases hu; cases h; exact frame_one rfl rfl (.inl rfl) (.inr ⟨_, rfl⟩) (.inr (.inr ⟨_, rfl⟩)) (.inl rfl) (.inl rfl) (.inl rfl) (.inl rfl) (.inl rfl) (.inl rfl) (.inl rfl) (.inl rfl)
      · cases hu
  case ret =>
    simp only [exec, execRet] at h
    unfold State.pop at h
    split at h
    · cases h; exact frame_of_eq rfl (.inr ⟨rfl, rfl, rfl⟩) rfl
    · rename_i u hu
      split at hu
      · cases hu
      · cases hu; cases h; exact frame_one rfl rfl (.inl rfl) (.inl rfl) (.inr (.inl rfl)) (.inl rfl) (.inl rfl) (.inl rfl) (.inl rfl) (.inl rfl) (.inl rfl) (.inl rfl) (.inl rfl)
  case low =>
    simp only [exec, execLow, State.promote_superChip] at h; cases h
    exact frame_one (m := modeAfterS s) rfl rfl (.inl rfl) (.inl rfl) (.inl rfl) (.inl rfl) (.inr (.inl rfl)) (.inl rfl) (.inl rfl) (.inl rfl) (.inl rfl) (.inl rfl) (.inl rfl)
  case high =>
    simp only [exec, execHigh, State.promote_superChip] at h; cases h
    exact frame_one (m := modeAfterS s) rfl rfl (.inl rfl) (.inl rfl) (.inl rfl) (.inl rfl) (.inr (.inr rfl)) (.inl rfl) (.inl rfl) (.inl rfl) (.inl rfl) (.inl rfl) (.inl rfl)
  case ldI =>
    cases h
    exact frame_one (m := s.mode) rfl rfl (by simp) (.inl rfl) (.inl rfl) (.inl rfl) (.inl rfl) (.inl rfl) (.inl rfl) (.inl rfl) (.inl rfl) (.inl rfl) (.inl rfl)
  case rnd =>
    cases h
    exact frame_one (m := s.mode) rfl rfl (.inl rfl) (.inl rfl) (.inl rfl) (.inl rfl) (.inl rfl) (.inl rfl) (.inl rfl) (.inl rfl) (.inl rfl) (.inl rfl) (.inl rfl)
  case ldILong =>
    simp only [exec, execLdILong, State.promote_xoChip] at h; cases h
    exact frame_one (m := modeAfterX s) rfl rfl (by simp) (.inl rfl) (.inl rfl) (.inl rfl) (.inl rfl) (.inl rfl) (.inl rfl) (.inl rfl) (.inl rfl) (.inl rfl) (.inl rfl)
  case plane n =>
    simp only [exec, execPlane, State.promote_xoChip] at h
    split at h <;> cases h
    · exact frame_one (m := modeAfterX s) rfl rfl (.inl rfl) (.inl rfl) (.inl rfl) (.inr ⟨_, rfl⟩) (.inl rfl) (.inl rfl) (.inl rfl) (.inl rfl) (.inl rfl) (.inl rfl) (.inl rfl)
    · rename_i hn
      refine ⟨⟨rfl, rfl, rfl, rfl, rfl, rfl, rfl, rfl, rfl, rfl, rfl, rfl, rfl⟩, .inr ⟨rfl, rfl, rfl⟩, fun hw => absurd (by simpa [Instr.wf] using hw) hn, .inl rfl, .inl rfl, .inl rfl, .inl rfl, .inl (fun _ => rfl), .inl rfl, .inl rfl, .inl rfl, .inl rfl, .inl rfl, .inl rfl, .inl rfl, .inl rfl, .inl rfl⟩
  case audio =>
    simp only [exec, execAudio, State.promote_xoChip] at h
    split at h <;> cases h
    · exact frame_of_eq rfl (.inr ⟨rfl, rfl, rfl⟩) rfl
    · exact frame_one (m := modeAfterX s) rfl rfl (.inl rfl) (.inl rfl) (.inl rfl) (.inl rfl) (.inl rfl) (.inr rfl) (.inl rfl) (.inl rfl) (.inl rfl) (.inl rfl) (.inl rfl)
  case ldVxKey x =>
    cases h
    exact frame_one (m := s.mode) rfl rfl (.inl rfl) (.inl rfl) (.inl rfl) (.inl rfl) (.inl rfl) (.inl rfl) (.inl rfl) (.inl rfl) (.inl rfl) (.inl rfl) (.inr ⟨_, rfl, rfl⟩)
  case ldDtVx x =>
    cases h
    exact frame_one (m := s.mode) rfl rfl (.inl rfl) (.inl rfl) (.inl rfl) (.inl rfl) (.inl rfl) (.inl rfl) (.inl rfl) (.inl rfl) (.inr ⟨_, rfl, rfl⟩) (.inl rfl) (.inl rfl)
  case ldStVx x =>
    cases h
    exact frame_one (m := s.mode) rfl rfl (.inl rfl) (.inl rfl) (.inl rfl) (.inl rfl) (.inl rfl) (.inl rfl) (.inl rfl) (.inl rfl) (.inl rfl) (.inr ⟨_, rfl, rfl⟩) (.inl rfl)
  case addI =>
    cases h
    exact frame_one (m := s.mode) rfl rfl (by simp) (.inl rfl) (.inl rfl) (.inl rfl) (.inl rfl) (.inl rfl) (.inl rfl) (.inl rfl) (.inl rfl) (.inl rfl) (.inl rfl)
  case ldFont =>
    simp only [exec, execLdFont] at h
    split at h <;> cases h
    · exact frame_of_eq rfl (.inr ⟨rfl, rfl, rfl⟩) rfl
    · exact frame_one (m := s.mode) rfl rfl (by simp) (.inl rfl) (.inl rfl) (.inl rfl) (.inl rfl) (.inl rfl) (.inl rfl) (.inl rfl) (.inl rfl) (.inl rfl) (.inl rfl)
  case ldBigFont =>
    simp only [exec, execLdBigFont, State.promote_superChip] at h
    split at h <;> cases h
    · exact frame_of_eq rfl (.inr ⟨rfl, rfl, rfl⟩) rfl
    · exact frame_one (m := modeAfterS s) rfl rfl (by simp) (.inl rfl) (.inl rfl) (.inl rfl) (.inl rfl) (.inl rfl) (.inl rfl) (.inl rfl) (.inl rfl) (.inl rfl) (.inl rfl)
  case pitch =>
    simp only [exec, execPitch, State.promote_xoChip] at h; cases h
    exact frame_one (m := modeAfterX s) rfl rfl (.inl rfl) (.inl rfl) (.inl rfl) (.inl rfl) (.inl rfl) (.inl rfl) (.inr ⟨_, rfl⟩) (.inl rfl) (.inl rfl) (.inl rfl) (.inl rfl)
  case saveFlags =>
    simp only [exec, execSaveFlags, State.promote_superChip] at h; generalize overlay _ s.v s.flags = w at h; cases h
    exact frame_one (m := modeAfterS s) rfl rfl (.inl rfl) (.inl rfl) (.inl rfl) (.inl rfl) (.inl rfl) (.inl rfl) (.inl rfl) (.inr ⟨_, rfl⟩) (.inl rfl) (.inl rfl) (.inl rfl)
end Sys2Proof.Machine
end

