-- ==== Sys2Proof/Laws/Fields.lean ====
section
/-! SUPPORT. The fields of a word put together from its fields (spec R91, R92): what the decoder takes out is what the encoder
put in. -/

namespace Sys2Proof.Laws

theorem groupOf_nnn (g : Nibble) (nnn : Imm12) : groupOf (g ++ nnn : BitVec 16) = g := by
  unfold groupOf; ext i hi; simp; grind

theorem nnnOf_nnn (g : Nibble) (nnn : Imm12) : nnnOf (g ++ nnn : BitVec 16) = nnn := by
  unfold nnnOf; ext i hi; simp; grind

theorem groupOf_xnn (g x : Nibble) (nn : Byte) : groupOf (g ++ x ++ nn : BitVec 16) = g := by
  unfold groupOf; ext i hi; simp; grind

theorem xOf_xnn (g x : Nibble) (nn : Byte) : xOf (g ++ x ++ nn : BitVec 16) = x := by
  unfold xOf; ext i hi; simp; grind

theorem nnOf_xnn (g x : Nibble) (nn : Byte) : nnOf (g ++ x ++ nn : BitVec 16) = nn := by
  unfold nnOf; ext i hi; simp; grind

theorem groupOf_xyn (g x y n : Nibble) : groupOf (g ++ x ++ y ++ n : BitVec 16) = g := by
  unfold groupOf; ext i hi; simp; grind

theorem xOf_xyn (g x y n : Nibble) : xOf (g ++ x ++ y ++ n : BitVec 16) = x := by
  unfold xOf; ext i hi; simp; grind

theorem yOf_xyn (g x y n : Nibble) : yOf (g ++ x ++ y ++ n : BitVec 16) = y := by
  unfold yOf; ext i hi; simp; grind

theorem nOf_xyn (g x y n : Nibble) : nOf (g ++ x ++ y ++ n : BitVec 16) = n := by
  unfold nOf; ext i hi; simp; grind

/-- A word split into its two bytes and put together again. -/
theorem wordBytes_append (w : Word) : (w.extractLsb' 8 8 ++ w.extractLsb' 0 8 : BitVec 16) = w := by
  ext i hi; simp; grind

/-- Two bytes put together, high byte first, and split again. -/
theorem high_of_append (hi lo : Byte) : (hi ++ lo : BitVec 16).extractLsb' 8 8 = hi := by
  ext i hi; simp; grind

theorem low_of_append (hi lo : Byte) : (hi ++ lo : BitVec 16).extractLsb' 0 8 = lo := by
  ext i hi; simp; grind

/-- A word whose group is not F is not the long form's marker. -/
theorem ne_of_group {w : Word} {g : Nibble} (h : groupOf w = g) (hg : g ≠ 0xF) : w ≠ 0xF000 := by
  rintro rfl; exact hg (by rw [← h]; decide)

/-- A word whose low byte is not 00 is not the long form's marker. -/
theorem ne_of_low {w : Word} {b : Byte} (h : nnOf w = b) (hb : b ≠ 0x00) : w ≠ 0xF000 := by
  rintro rfl; exact hb (by rw [← h]; decide)

end Sys2Proof.Laws
end

