-- ==== Sys2Proof/Laws/PerInstr.lean ====
section
/-! SUPPORT. A law of every instruction, one lemma per constructor: the length of its encoding is decided by its first word
alone (spec R90). -/

namespace Sys2Proof.Laws.EncodeLength

/-- The encoding has the instruction's length, and that is 4 bytes exactly when the first word is 0xF000 (R90). -/
def Statement (i : Instr) : Prop :=
  (encode i).length = i.length ∧ (i.length = 4 ↔ i.firstWord = 0xF000)

theorem short {i : Instr} (h : i.secondWord = none) (hw : i.firstWord ≠ 0xF000) : Statement i := by
  refine ⟨by simp [encode, Instr.length, h, wordBytes], ?_⟩
  simpa [Instr.length, h] using hw

theorem cls : Statement .cls :=
  by unfold Statement; decide

theorem ret : Statement .ret :=
  by unfold Statement; decide

theorem scr : Statement .scr :=
  by unfold Statement; decide

theorem scl : Statement .scl :=
  by unfold Statement; decide

theorem low : Statement .low :=
  by unfold Statement; decide

theorem high : Statement .high :=
  by unfold Statement; decide

theorem scd (n : Nibble) : Statement (.scd n) :=
  by unfold Statement; revert n; decide

theorem scu (n : Nibble) : Statement (.scu n) :=
  by unfold Statement; revert n; decide

theorem jp (nnn : Imm12) : Statement (.jp nnn) :=
  short rfl (ne_of_group (groupOf_nnn _ _) (by decide))

theorem call (nnn : Imm12) : Statement (.call nnn) :=
  short rfl (ne_of_group (groupOf_nnn _ _) (by decide))

theorem seImm (x : Nibble) (nn : Byte) : Statement (.seImm x nn) :=
  short rfl (ne_of_group (groupOf_xnn _ _ _) (by decide))

theorem sneImm (x : Nibble) (nn : Byte) : Statement (.sneImm x nn) :=
  short rfl (ne_of_group (groupOf_xnn _ _ _) (by decide))

theorem seReg (x y : Nibble) : Statement (.seReg x y) :=
  short rfl (ne_of_group (groupOf_xyn _ _ _ _) (by decide))

theorem ldImm (x : Nibble) (nn : Byte) : Statement (.ldImm x nn) :=
  short rfl (ne_of_group (groupOf_xnn _ _ _) (by decide))

theorem addImm (x : Nibble) (nn : Byte) : Statement (.addImm x nn) :=
  short rfl (ne_of_group (groupOf_xnn _ _ _) (by decide))

theorem ldReg (x y : Nibble) : Statement (.ldReg x y) :=
  short rfl (ne_of_group (groupOf_xyn _ _ _ _) (by decide))

theorem orReg (x y : Nibble) : Statement (.orReg x y) :=
  short rfl (ne_of_group (groupOf_xyn _ _ _ _) (by decide))

theorem andReg (x y : Nibble) : Statement (.andReg x y) :=
  short rfl (ne_of_group (groupOf_xyn _ _ _ _) (by decide))

theorem xorReg (x y : Nibble) : Statement (.xorReg x y) :=
  short rfl (ne_of_group (groupOf_xyn _ _ _ _) (by decide))

theorem addReg (x y : Nibble) : Statement (.addReg x y) :=
  short rfl (ne_of_group (groupOf_xyn _ _ _ _) (by decide))

theorem subReg (x y : Nibble) : Statement (.subReg x y) :=
  short rfl (ne_of_group (groupOf_xyn _ _ _ _) (by decide))

theorem shr (x y : Nibble) : Statement (.shr x y) :=
  short rfl (ne_of_group (groupOf_xyn _ _ _ _) (by decide))

theorem subn (x y : Nibble) : Statement (.subn x y) :=
  short rfl (ne_of_group (groupOf_xyn _ _ _ _) (by decide))

theorem shl (x y : Nibble) : Statement (.shl x y) :=
  short rfl (ne_of_group (groupOf_xyn _ _ _ _) (by decide))

theorem sneReg (x y : Nibble) : Statement (.sneReg x y) :=
  short rfl (ne_of_group (groupOf_xyn _ _ _ _) (by decide))

theorem ldI (nnn : Imm12) : Statement (.ldI nnn) :=
  short rfl (ne_of_group (groupOf_nnn _ _) (by decide))

theorem jpV0 (nnn : Imm12) : Statement (.jpV0 nnn) :=
  short rfl (ne_of_group (groupOf_nnn _ _) (by decide))

theorem rnd (x : Nibble) (nn : Byte) : Statement (.rnd x nn) :=
  short rfl (ne_of_group (groupOf_xnn _ _ _) (by decide))

theorem drwBig (x y : Nibble) : Statement (.drwBig x y) :=
  short rfl (ne_of_group (groupOf_xyn _ _ _ _) (by decide))

theorem drw (x y n : Nibble) : Statement (.drw x y n) :=
  short rfl (ne_of_group (groupOf_xyn _ _ _ _) (by decide))

theorem skp (x : Nibble) : Statement (.skp x) :=
  short rfl (ne_of_group (groupOf_xnn _ _ _) (by decide))

theorem sknp (x : Nibble) : Statement (.sknp x) :=
  short rfl (ne_of_group (groupOf_xnn _ _ _) (by decide))

theorem ldILong (nnnn : Word) : Statement (.ldILong nnnn) :=
  ⟨rfl, by simp [Instr.length, Instr.secondWord, Instr.firstWord]⟩

theorem plane (n : Nibble) : Statement (.plane n) :=
  short rfl (ne_of_low (nnOf_xnn _ _ _) (by decide))

theorem audio : Statement .audio :=
  by unfold Statement; decide

theorem ldVxDt (x : Nibble) : Statement (.ldVxDt x) :=
  short rfl (ne_of_low (nnOf_xnn _ _ _) (by decide))

theorem ldVxKey (x : Nibble) : Statement (.ldVxKey x) :=
  short rfl (ne_of_low (nnOf_xnn _ _ _) (by decide))

theorem ldDtVx (x : Nibble) : Statement (.ldDtVx x) :=
  short rfl (ne_of_low (nnOf_xnn _ _ _) (by decide))

theorem ldStVx (x : Nibble) : Statement (.ldStVx x) :=
  short rfl (ne_of_low (nnOf_xnn _ _ _) (by decide))

theorem addI (x : Nibble) : Statement (.addI x) :=
  short rfl (ne_of_low (nnOf_xnn _ _ _) (by decide))

theorem ldFont (x : Nibble) : Statement (.ldFont x) :=
  short rfl (ne_of_low (nnOf_xnn _ _ _) (by decide))

theorem ldBigFont (x : Nibble) : Statement (.ldBigFont x) :=
  short rfl (ne_of_low (nnOf_xnn _ _ _) (by decide))

theorem bcd (x : Nibble) : Statement (.bcd x) :=
  short rfl (ne_of_low (nnOf_xnn _ _ _) (by decide))

theorem pitch (x : Nibble) : Statement (.pitch x) :=
  short rfl (ne_of_low (nnOf_xnn _ _ _) (by decide))

theorem storeRegs (x : Nibble) : Statement (.storeRegs x) :=
  short rfl (ne_of_low (nnOf_xnn _ _ _) (by decide))

theorem loadRegs (x : Nibble) : Statement (.loadRegs x) :=
  short rfl (ne_of_low (nnOf_xnn _ _ _) (by decide))

theorem saveFlags (x : Nibble) : Statement (.saveFlags x) :=
  short rfl (ne_of_low (nnOf_xnn _ _ _) (by decide))

theorem loadFlags (x : Nibble) : Statement (.loadFlags x) :=
  short rfl (ne_of_low (nnOf_xnn _ _ _) (by decide))

end Sys2Proof.Laws.EncodeLength
end

