-- ==== Sys2Proof/Laws/Reals.lean ====
section
/-! SUPPORT. The real numbers behind the machine's data: what each operation on `Seconds` and on `Surd` does to the value, and
that its comparisons and its floor are those of the real numbers. -/

namespace Sys2Proof.Machine

/-! ### Seconds and the clock (R45, R292) -/

/-- A clock answers what its advances say, and only its first advance may be negative. -/
theorem advanceOf_spec (c : Clock) : (∀ k, 0 ≤ advanceOf c (k + 1)) ∧
    ∀ ks q, c.reached ks q = true ↔ (q : ℝ) ≤ (ks.map (advanceOf c)).sum := by
  cases c with
  | still =>
    refine ⟨fun _ => le_rfl, fun ks q => ?_⟩
    have : (ks.map (advanceOf .still)).sum = 0 := by induction ks <;> simp_all [advanceOf]
    simp [Clock.reached, this]
  | real r h => exact h.choose_spec

/-- Every sequence of advances that never go back is a clock's: the free clock leaves no nondecreasing readings out (R284). -/
theorem clock_of_advances (a : Nat → ℝ) (h : ∀ k, 0 ≤ a (k + 1)) : ∃ c : Clock, advanceOf c = a := by
  classical
  refine ⟨.real (fun ks q => decide ((q : ℝ) ≤ (ks.map a).sum)) ⟨a, h, fun _ _ => decide_eq_true_iff⟩, funext fun k => ?_⟩
  have key := fun q : Rat => (advanceOf_spec (.real (fun ks q => decide ((q : ℝ) ≤ (ks.map a).sum))
    ⟨a, h, fun _ _ => decide_eq_true_iff⟩)).2 [k] q
  simp only [Clock.reached, decide_eq_true_eq, List.map_cons, List.map_nil, List.sum_singleton] at key
  refine le_antisymm (le_of_forall_rat_lt_imp_le fun q hq => (key q).2 hq.le) (le_of_forall_rat_lt_imp_le fun q hq => (key q).1 hq.le)

/-- The readings never decrease (R292). -/
theorem clockReading_mono (n : Nat) : clockReading n ≤ clockReading (n + 1) := by
  unfold clockReading
  rw [Finset.sum_range_succ _ (n + 1)]
  linarith [(advanceOf_spec Config.clock).1 n]

@[simp] theorem Seconds.value_zero : Seconds.zero.value = 0 := by simp [Seconds.zero, Seconds.ofRat, Seconds.value]
@[simp] theorem Seconds.value_ofRat (q : Rat) : (Seconds.ofRat q).value = q := by simp [Seconds.ofRat, Seconds.value]
@[simp] theorem Seconds.value_add (d e : Seconds) : (d.add e).value = d.value + e.value := by
  simp only [Seconds.add, Seconds.value, List.map_append, List.sum_append]; push_cast; ring

/-- What the free clock advanced to a later reading is the difference of the readings. -/
theorem Seconds.value_toReading (k : Nat) : (Seconds.toReading (k + 1)).value = clockReading (k + 1) - clockReading k := by
  unfold clockReading
  rw [Finset.sum_range_succ _ (k + 1)]
  simp [Seconds.toReading, Seconds.value]

/-- The first reading. -/
theorem Seconds.value_firstReading : (Seconds.toReading 0).value = clockReading 0 := by
  simp [Seconds.toReading, Seconds.value, clockReading]

/-- The comparison is that of the real numbers. -/
theorem Seconds.reaches_iff (d : Seconds) (q : Rat) : d.reaches q = true ↔ (q : ℝ) ≤ d.value := by
  unfold Seconds.reaches Seconds.value
  split
  · next h => simp [h]
  · next h => rw [(advanceOf_spec Config.clock).2]; push_cast; constructor <;> intro <;> linarith

/-- The time that passes to the next iteration is never negative (R292). -/
theorem State.nextElapsed_nonneg (s : State) : 0 ≤ s.nextElapsed.value := by
  unfold State.nextElapsed
  split
  · rw [Seconds.value_toReading]; linarith [clockReading_mono s.inputsRead]
  · rw [Seconds.value_ofRat, elapsedSeconds, Rat.mkRat_eq_div]; push_cast; positivity

/-- When the three channels are due (R282). -/
theorem State.cpuDue_iff (s : State) : s.cpuDue = true ↔ s.runState = .active ∧ (s.cpuPeriod : ℝ) ≤ s.accCpu.value := by
  simp [State.cpuDue, State.active, Seconds.reaches_iff]

theorem sixtieth_cast : ((sixtieth : Rat) : ℝ) = 1 / 60 := by rw [sixtieth, Rat.mkRat_eq_div]; norm_num

theorem State.timerDue_iff (s : State) : s.timerDue = true ↔ s.runState = .active ∧ 1 / 60 ≤ s.accTimer.value := by
  simp only [State.timerDue, State.active, Seconds.reaches_iff, sixtieth_cast, Bool.and_eq_true, beq_iff_eq]

theorem State.presentDue_iff (s : State) : s.presentDue = true ↔ 1 / 60 ≤ s.accPresent.value := by
  rw [State.presentDue, Seconds.reaches_iff, sixtieth_cast]

/-! ### Surds (R42, R270, R271) -/

/-- The fourth root of 2. -/
noncomputable def root : ℝ := (2 : ℝ) ^ (1 / 4 : ℝ)

theorem root_pow (k : Nat) : root ^ k = (2 : ℝ) ^ ((k : ℝ) / 4) := by
  unfold root
  rw [← Real.rpow_natCast, ← Real.rpow_mul (by norm_num)]
  congr 1; ring

theorem root_pos : 0 < root := Real.rpow_pos_of_pos (by norm_num) _
theorem root_pow_four : root ^ 4 = 2 := by rw [root_pow]; norm_num

/-- The value as a polynomial in the root. -/
theorem Surd.value_eq (x : Surd) : x.value = x.c0 + x.c1 * root + x.c2 * root ^ 2 + x.c3 * root ^ 3 := by
  rw [root_pow, root_pow]; unfold Surd.value root; norm_num

@[simp] theorem Surd.value_ofRat (q : Rat) : (Surd.ofRat q).value = q := by simp [Surd.ofRat, Surd.value]
@[simp] theorem Surd.value_zero : Surd.zero.value = 0 := by simp [Surd.zero]
@[simp] theorem Surd.value_add (x y : Surd) : (x.add y).value = x.value + y.value := by
  simp only [Surd.add, Surd.value]; push_cast; ring
@[simp] theorem Surd.value_scale (q : Rat) (x : Surd) : (x.scale q).value = q * x.value := by
  simp only [Surd.scale, Surd.value]; push_cast; ring
@[simp] theorem Surd.value_subRat (x : Surd) (q : Rat) : (x.subRat q).value = x.value - q := by
  simp only [Surd.subRat, Surd.value]; push_cast; ring

theorem Surd.value_monomial (q : Rat) (j : Nat) (h : j < 4) : (Surd.monomial q j).value = q * (2 : ℝ) ^ ((j : ℝ) / 4) := by
  rw [← root_pow, Surd.value_eq]
  interval_cases j <;> simp [Surd.monomial]

/-- A sum of squares' sides: `0 ≤ u + v * w` for `w > 0`, by the signs of `u` and `v` and the squares. -/
theorem nonneg_by_squares {u v w : ℝ} (hw : 0 < w) :
    (0 ≤ v → (0 ≤ u + v * w ↔ 0 ≤ u ∨ 0 ≤ v ^ 2 * w ^ 2 - u ^ 2)) ∧
    (v < 0 → (0 ≤ u + v * w ↔ 0 ≤ u ∧ 0 ≤ u ^ 2 - v ^ 2 * w ^ 2)) := by
  have e : v ^ 2 * w ^ 2 - u ^ 2 = (v * w - u) * (v * w + u) := by ring
  constructor
  · intro hv
    have hvw : 0 ≤ v * w := mul_nonneg hv hw.le
    constructor
    · intro h
      by_cases hu : 0 ≤ u
      · exact .inl hu
      · rw [e]; exact .inr (mul_nonneg (by linarith) (by linarith))
    · rintro (h | h)
      · linarith
      · by_contra hc
        rw [e] at h
        nlinarith
  · intro hv
    have hvw : v * w < 0 := mul_neg_of_neg_of_pos hv hw
    constructor
    · intro h
      refine ⟨by linarith, ?_⟩
      have : 0 ≤ (u - v * w) * (u + v * w) := mul_nonneg (by linarith) h
      linarith [this, (by ring : (u - v * w) * (u + v * w) = u ^ 2 - v ^ 2 * w ^ 2)]
    · rintro ⟨hu, h⟩
      by_contra hc
      have : (u - v * w) * (u + v * w) = u ^ 2 - v ^ 2 * w ^ 2 := by ring
      nlinarith

theorem rootTwoNonneg_iff (a b : Rat) : rootTwoNonneg a b = true ↔ (0 : ℝ) ≤ a + b * root ^ 2 := by
  have hw : 0 < root ^ 2 := pow_pos root_pos 2
  have h2 : (root ^ 2) ^ 2 = 2 := by rw [← pow_mul]; exact root_pow_four
  have key := nonneg_by_squares (u := a) (v := b) hw
  rw [h2] at key
  unfold rootTwoNonneg
  by_cases hb : 0 ≤ b
  · rw [if_pos hb, key.1 (by exact_mod_cast hb), Bool.or_eq_true, decide_eq_true_eq, decide_eq_true_eq, sub_nonneg]
    refine or_congr (by norm_cast) ?_
    rw [← Rat.cast_le (K := ℝ)]; push_cast; constructor <;> intro <;> linarith
  · rw [if_neg hb, key.2 (by exact_mod_cast not_le.mp hb), Bool.and_eq_true, decide_eq_true_eq, decide_eq_true_eq, sub_nonneg]
    refine and_congr (by norm_cast) ?_
    rw [← Rat.cast_le (K := ℝ)]; push_cast; constructor <;> intro <;> linarith

/-- The sign is that of the real number. -/
theorem Surd.nonneg_iff (x : Surd) : x.nonneg = true ↔ 0 ≤ x.value := by
  have key := nonneg_by_squares (u := x.c0 + x.c2 * root ^ 2) (v := x.c1 + x.c3 * root ^ 2) root_pos
  have e : x.value = x.c0 + x.c2 * root ^ 2 + (x.c1 + x.c3 * root ^ 2) * root := by rw [Surd.value_eq]; ring
  have sq : ((x.c1 : ℝ) + x.c3 * root ^ 2) ^ 2 * root ^ 2 - (x.c0 + x.c2 * root ^ 2) ^ 2 =
      ((4 * (x.c1 * x.c3) - x.c0 * x.c0 - 2 * (x.c2 * x.c2) : Rat) : ℝ) +
      ((x.c1 * x.c1 + 2 * (x.c3 * x.c3) - 2 * (x.c0 * x.c2) : Rat) : ℝ) * root ^ 2 := by
    push_cast
    linear_combination (2 * x.c1 * x.c3 - x.c2 ^ 2 + x.c3 ^ 2 * root ^ 2 : ℝ) * root_pow_four
  unfold Surd.nonneg
  rw [e]
  by_cases hb : rootTwoNonneg x.c1 x.c3 = true
  · rw [key.1 ((rootTwoNonneg_iff _ _).1 hb), sq]
    simp only [hb, if_true, Bool.or_eq_true, rootTwoNonneg_iff]
  · rw [key.2 (not_le.mp fun h => hb ((rootTwoNonneg_iff _ _).2 h)), ← neg_sub (((x.c1 : ℝ) + x.c3 * root ^ 2) ^ 2 * root ^ 2), sq]
    simp only [hb, Bool.false_eq_true, if_false, Bool.and_eq_true, rootTwoNonneg_iff]
    push_cast
    refine and_congr Iff.rfl ?_
    constructor <;> intro <;> linarith

/-- The search ends at the floor, if it starts below `x` and its range is wide enough. -/
theorem Surd.floorBelow_eq (x : Surd) (n : Nat) (lo : Int) (h : (lo : ℝ) ≤ x.value) (h' : x.value < lo + 2 ^ n) :
    x.floorBelow n lo = ⌊x.value⌋ := by
  induction n generalizing lo with
  | zero => exact (Int.floor_eq_iff.2 ⟨h, by simpa using h'⟩).symm
  | succ n ih =>
    unfold Surd.floorBelow
    have hn := (x.subRat ((lo + 2 ^ n : Int) : Rat)).nonneg_iff
    rw [Surd.value_subRat, show (((lo + 2 ^ n : Int) : Rat) : ℝ) = lo + 2 ^ n by push_cast; rfl] at hn
    split
    · next hc => exact ih _ (by push_cast; linarith [hn.1 hc]) (by push_cast; rw [pow_succ] at h'; linarith)
    · next hc => exact ih _ h (not_le.mp fun hle => hc (hn.2 (by linarith)))

theorem absRat_cast (q : Rat) : ((absRat q : Rat) : ℝ) = |(q : ℝ)| := by
  unfold absRat
  split
  · next h => rw [abs_of_neg (by exact_mod_cast h)]; push_cast; rfl
  · next h => rw [abs_of_nonneg (by exact_mod_cast not_lt.mp h)]

theorem root_lt_two : root < 2 ∧ root ^ 2 < 2 ∧ root ^ 3 < 2 := by
  have h4 := root_pow_four
  have h0 := root_pos
  have h1 : 1 < root := by
    by_contra hc
    have : root ^ 4 ≤ 1 := pow_le_one₀ h0.le (not_lt.mp hc)
    linarith
  refine ⟨?_, ?_, ?_⟩ <;> nlinarith [mul_pos h0 h0, mul_pos (mul_pos h0 h0) h0]

/-- The size bounds the value. -/
theorem Surd.abs_value_lt (x : Surd) : |x.value| < 2 ^ x.sizeBits := by
  obtain ⟨h1, h2, h3⟩ := root_lt_two
  have r0 := root_pos
  set q : Rat := absRat x.c0 + 2 * (absRat x.c1 + absRat x.c2 + absRat x.c3) with hq
  have hv : |x.value| ≤ q := by
    rw [Surd.value_eq, hq]
    push_cast
    simp only [absRat_cast]
    have t1 : |(x.c1 : ℝ) * root| ≤ |(x.c1 : ℝ)| * 2 := by
      rw [abs_mul, abs_of_pos r0]; exact mul_le_mul_of_nonneg_left h1.le (abs_nonneg _)
    have t2 : |(x.c2 : ℝ) * root ^ 2| ≤ |(x.c2 : ℝ)| * 2 := by
      rw [abs_mul, abs_of_pos (pow_pos r0 2)]; exact mul_le_mul_of_nonneg_left h2.le (abs_nonneg _)
    have t3 : |(x.c3 : ℝ) * root ^ 3| ≤ |(x.c3 : ℝ)| * 2 := by
      rw [abs_mul, abs_of_pos (pow_pos r0 3)]; exact mul_le_mul_of_nonneg_left h3.le (abs_nonneg _)
    have a1 := abs_add_le ((x.c0 : ℝ) + x.c1 * root + x.c2 * root ^ 2) (x.c3 * root ^ 3)
    have a2 := abs_add_le ((x.c0 : ℝ) + x.c1 * root) (x.c2 * root ^ 2)
    have a3 := abs_add_le (x.c0 : ℝ) (x.c1 * root)
    linarith
  have hs : (q : ℝ) < x.size := by
    have : q < (x.size : Rat) := by
      have hf : q < (q.floor : Rat) + 1 := Int.lt_floor_add_one q
      have ht : q.floor ≤ (q.floor.toNat : Int) := Int.self_le_toNat _
      have : (q.floor : Rat) ≤ ((q.floor.toNat : Int) : Rat) := by exact_mod_cast ht
      show q < ((q.floor.toNat + 1 : Nat) : Rat)
      push_cast at this ⊢
      linarith
    exact_mod_cast this
  have hb : (x.size : ℝ) < 2 ^ x.sizeBits := by exact_mod_cast Nat.lt_log2_self
  linarith

/-- The floor is that of the real number (R271). -/
theorem Surd.floor_eq (x : Surd) : x.floor = ⌊x.value⌋ := by
  have h := abs_lt.1 x.abs_value_lt
  refine x.floorBelow_eq _ _ ?_ ?_
  · push_cast; exact h.1.le
  · push_cast; rw [pow_succ]; linarith [h.2]

/-- The reduction modulo 128 takes off the multiple of 128 below (R271). -/
theorem Surd.value_mod128 (x : Surd) : x.mod128.value = x.value - 128 * ⌊x.value / 128⌋ := by
  unfold Surd.mod128
  rw [Surd.value_subRat, Surd.floor_eq, Surd.value_scale]
  push_cast
  rw [show (1 / 128 : ℝ) * x.value = x.value / 128 by ring]

/-- A reduced value lies in the range of `phase` (R42). -/
theorem Surd.mod128_range (x : Surd) : 0 ≤ x.mod128.value ∧ x.mod128.value < 128 := by
  rw [Surd.value_mod128]
  have h1 := Int.floor_le (x.value / 128)
  have h2 := Int.lt_floor_add_one (x.value / 128)
  constructor <;> linarith

/-- The rate is the rule's power (R270). -/
theorem playbackRate_value (p : Byte) : (playbackRate p).value = 4000 * (2 : ℝ) ^ (((p.toNat : ℝ) - 64) / 4) := by
  unfold playbackRate
  rw [Surd.value_monomial _ _ (Nat.mod_lt _ (by decide))]
  have hp : (p.toNat : ℝ) = 4 * ((p.toNat / 4 : Nat) : ℝ) + ((p.toNat % 4 : Nat) : ℝ) := by
    exact_mod_cast (Nat.div_add_mod p.toNat 4).symm
  rw [show ((p.toNat : ℝ) - 64) / 4 = ((p.toNat / 4 : Nat) : ℝ) + ((p.toNat % 4 : Nat) : ℝ) / 4 - (16 : Nat) by rw [hp]; push_cast; ring,
    Real.rpow_sub (by norm_num), Real.rpow_add (by norm_num), Real.rpow_natCast, Real.rpow_natCast]
  push_cast
  ring

/-- The step of the phase is the rate over the sampling rate (R271). -/
theorem State.phaseStep_value (s : State) : s.phaseStep.value = (playbackRate s.pitch).value / s.cfg.sampleRate := by
  rw [State.phaseStep, Surd.value_scale]; push_cast; ring

/-- The bit that a phase stands at, by the floor of the real number (R271). -/
theorem bitAt_eq (ph : Surd) : bitAt ph = (⌊ph.value⌋ % 128).toNat := by rw [bitAt, Surd.floor_eq]

end Sys2Proof.Machine
end

