-- ==== Sys2Proof/Laws/Step.lean ====
section
/-! SUPPORT. What a step can do: every instruction answers a next state, and every step that answers one is one of seven moves. -/

namespace Sys2Proof.Machine

theorem State.skipIf_next (s : State) (c : Bool) : ∃ t, s.skipIf c = .next t := by
  rcases s.skipIf_cases c with ⟨-, e⟩ | ⟨w, -, -, e⟩ | ⟨a, -, -, e⟩ <;> exact ⟨_, e⟩

theorem State.draw_next (s : State) (x y : Nibble) (cols rows : Nat) : ∃ t, s.draw x y cols rows = .next t := by
  unfold State.draw; split <;> exact ⟨_, rfl⟩

/-- Every instruction answers a next state, from every state: its effect, or its fault taken (R306). -/
theorem exec_next (i : Instr) (s : State) : ∃ t, exec i s = .next t := by
  cases i
  case ret => simp only [exec, execRet]; split <;> exact ⟨_, rfl⟩
  case call => simp only [exec, execCall]; split <;> exact ⟨_, rfl⟩
  case skp => simp only [exec, execSkp]; split; exacts [⟨_, rfl⟩, s.skipIf_next _]
  case sknp => simp only [exec, execSknp]; split; exacts [⟨_, rfl⟩, s.skipIf_next _]
  case drw => exact s.draw_next _ _ _ _
  case drwBig => exact State.draw_next _ _ _ _ _
  case seImm => exact s.skipIf_next _
  case sneImm => exact s.skipIf_next _
  case seReg => exact s.skipIf_next _
  case sneReg => exact s.skipIf_next _
  case plane => simp only [exec, execPlane]; split <;> exact ⟨_, rfl⟩
  case audio => simp only [exec, execAudio]; split <;> exact ⟨_, rfl⟩
  case ldFont => simp only [exec, execLdFont]; split <;> exact ⟨_, rfl⟩
  case ldBigFont => simp only [exec, execLdBigFont]; split <;> exact ⟨_, rfl⟩
  case bcd => simp only [exec, execBcd]; split <;> exact ⟨_, rfl⟩
  case storeRegs => simp only [exec, execStoreRegs]; split <;> exact ⟨_, rfl⟩
  case loadRegs => simp only [exec, execLoadRegs]; split <;> exact ⟨_, rfl⟩
  all_goals exact ⟨_, rfl⟩

/-- While the engine waits for a key, its tick is a poll (R120). -/
theorem cpuTick_waiting {s : State} {r k} (h : s.cpuState = .awaitingKey r k) : cpuTick s = .next (s.keyWaitPoll r k) := by
  unfold cpuTick; rw [h]

/-- The moves of a step that answers a next state (R281, R282). -/
theorem step_cases {s t : State} (h : step s = .next t) :
    (s.runState = .active ∨ s.runState = .paused) ∧
    ((s.turn = .top ∧ t = s.topMove) ∨
     (s.turn = .timer ∧ t = s.timerMove) ∨
     (s.turn = .present ∧ t = s.presentMove) ∨
     (s.turn = .cpu ∧ s.runState = .paused ∧ t = s.setTurn s.turnAfterCpu) ∨
     (s.turn = .cpu ∧ s.runState = .active ∧ ∃ r k, s.cpuState = .awaitingKey r k ∧
       t = (s.clearAccCpu.keyWaitPoll r k).afterCpuTick) ∨
     (s.Fetching ∧ ∃ f, s.fetch = .error f ∧ t = s.clearAccCpu.takeFault s.pc f) ∨
     (∃ i u, s.Runs i ∧ exec i s.clearAccCpu = .next u ∧ t = u.afterCpuTick)) := by
  have hmove : s.runState = .active ∨ s.runState = .paused := by
    unfold step at h; cases hr : s.runState <;> simp_all
  refine ⟨hmove, ?_⟩
  have h' : (match s.turn with
    | .top => Host.Outcome.next s.topMove
    | .cpu => cpuMove s
    | .timer => .next s.timerMove
    | .present => .next s.presentMove) = .next t := by
    rcases hmove with hr | hr <;> (unfold step at h; rw [hr] at h; exact h)
  cases ht : s.turn <;> rw [ht] at h'
  · cases h'; exact .inl ⟨rfl, rfl⟩
  · right; right; right
    simp only [cpuMove] at h'
    rcases hmove with hr | hr
    · have ha : s.active = true := by simp [State.active, hr]
      rw [if_pos ha] at h'
      cases hc : s.cpuState with
      | awaitingKey r k =>
        rw [cpuTick_waiting (s := s.clearAccCpu) hc] at h'; cases h'
        exact .inr (.inl ⟨rfl, hr, r, k, rfl, rfl⟩)
      | running =>
        have hf : cpuTick s.clearAccCpu = (match s.fetch with
          | .error f => s.clearAccCpu.trap f
          | .ok i => exec i s.clearAccCpu) := by
          unfold cpuTick; rw [show s.clearAccCpu.cpuState = .running from hc]; rfl
        rw [hf] at h'
        cases hfe : s.fetch with
        | error f =>
          rw [hfe] at h'
          cases h'
          exact .inr (.inr (.inl ⟨⟨hr, ht, hc⟩, f, rfl, rfl⟩))
        | ok i =>
          obtain ⟨u, hu⟩ := exec_next i s.clearAccCpu
          rw [hfe] at h'
          simp only [hu] at h'
          cases h'
          exact .inr (.inr (.inr ⟨i, u, ⟨⟨hr, ht, hc⟩, hfe⟩, hu, rfl⟩))
    · have ha : s.active = false := by simp [State.active, hr]
      rw [ha] at h'; cases h'
      exact .inl ⟨rfl, hr, rfl⟩
  · cases h'; exact .inr (.inl ⟨rfl, rfl⟩)
  · cases h'; exact .inr (.inr (.inl ⟨rfl, rfl⟩))

/-! ### What each move leaves alone -/

/-- After a `CpuTick`, only the count, the run state and the turn may differ (R285). -/
theorem State.afterCpuTick_eq (u : State) : u.afterCpuTick =
    { u with cpuTicks := u.afterCpuTick.cpuTicks, runState := u.afterCpuTick.runState, turn := u.afterCpuTick.turn } := by
  unfold State.afterCpuTick
  split
  · rfl
  · unfold State.countTick State.setTurn State.setRunState
    dsimp only
    split <;> rfl

/-- A poll of the key wait changes at most `V`, `PC` and the engine's state (R254). -/
theorem State.keyWaitPoll_eq (s : State) (r : Nibble) (k : Option Nibble) : s.keyWaitPoll r k =
    { s with v := (s.keyWaitPoll r k).v, pc := (s.keyWaitPoll r k).pc, cpuState := (s.keyWaitPoll r k).cpuState } := by
  unfold State.keyWaitPoll
  split <;> split <;> rfl

/-- The top of an iteration touches the inputs, the clock, the keys, the accumulators, the turn and the run state (R282). -/
theorem State.topMove_eq (s : State) : s.topMove =
    { s with
      port := s.topMove.port, feed := s.topMove.feed, inputsRead := s.topMove.inputsRead, lastNow := s.topMove.lastNow,
      keys := s.topMove.keys, accCpu := s.topMove.accCpu, accTimer := s.topMove.accTimer,
      accPresent := s.topMove.accPresent, turn := s.topMove.turn, runState := s.topMove.runState } := by
  unfold State.topMove State.setTurn State.setRunState State.sample State.takeInput
  dsimp only
  split <;> rfl

/-- The timer's move touches the two counters, its accumulator and the turn (R257). -/
theorem State.timerMove_eq (s : State) : s.timerMove =
    { s with
      delay := s.timerMove.delay, sound := s.timerMove.sound, accTimer := s.timerMove.accTimer, turn := s.timerMove.turn } := by
  unfold State.timerMove State.setTurn
  dsimp only
  split <;> rfl

/-- The presenter's move touches the output ports, the phase, its accumulator and the turn (R287). -/
theorem State.presentMove_eq (s : State) : s.presentMove =
    { s with out := s.presentMove.out, phase := s.presentMove.phase, accPresent := .zero, turn := .top } := by
  unfold State.presentMove State.presentTick
  split
  · unfold State.audioStep
    split <;> rfl
  · rfl

/-! ### What a fault leaves (R306) -/

/-- A skip that faults has written nothing but the fault (R150). -/
theorem skip_faulted {s t : State} {c} (h : s.skipIf c = .next t) (hr : s.runState ≠ .faulted) (ht : t.runState = .faulted) :
    ∃ m f, t = { s with mode := m, fault := some f, runState := .faulted } := by
  rcases s.skipIf_cases c with ⟨-, e⟩ | ⟨w, -, -, e⟩ | ⟨a, -, -, e⟩ <;> rw [e] at h <;> cases h
  · exact absurd ht hr
  · exact absurd ht hr
  · exact ⟨_, _, rfl⟩
/-- A draw that faults has written nothing but the fault (R232). -/
theorem draw_faulted {s t : State} {m x y cols rows} (h : ({ s with mode := m } : State).draw x y cols rows = .next t) (hr : s.runState ≠ .faulted) (ht : t.runState = .faulted) :
    ∃ m f, t = { s with mode := m, fault := some f, runState := .faulted } := by
  unfold State.draw at h; split at h <;> cases h
  · exact ⟨_, _, rfl⟩
  · exact absurd ht hr
/-- An instruction that faults has written nothing but the fault and the promotion, unless it is one of the three that work byte
by byte (R306). -/
theorem exec_faulted {i : Instr} {s t : State} (h : exec i s = .next t) (hr : s.runState ≠ .faulted)
    (ht : t.runState = .faulted) :
    (∃ x, i = .bcd x ∨ i = .storeRegs x ∨ i = .loadRegs x) ∨
    ∃ m f, t = { s with mode := m, fault := some f, runState := .faulted } := by
  cases i
  case bcd => exact .inl ⟨_, .inl rfl⟩
  case storeRegs => exact .inl ⟨_, .inr (.inl rfl)⟩
  case loadRegs => exact .inl ⟨_, .inr (.inr rfl)⟩
  all_goals right
  case seImm => exact skip_faulted h hr ht
  case sneImm => exact skip_faulted h hr ht
  case seReg => exact skip_faulted h hr ht
  case sneReg => exact skip_faulted h hr ht
  case skp => simp only [exec, execSkp] at h; split at h; (cases h; exact ⟨_, _, rfl⟩); exact skip_faulted h hr ht
  case sknp => simp only [exec, execSknp] at h; split at h; (cases h; exact ⟨_, _, rfl⟩); exact skip_faulted h hr ht
  case drw => exact draw_faulted h hr ht
  case drwBig => exact draw_faulted h hr ht
  case ret =>
    simp only [exec, execRet, State.pop] at h; split at h; (cases h; exact ⟨_, _, rfl⟩)
    rename_i hp; split at hp; cases hp
    cases hp; cases h; exact absurd ht hr
  case call =>
    simp only [exec, execCall, State.push] at h; split at h; (cases h; exact ⟨_, _, rfl⟩)
    rename_i hp; split at hp;
    · cases hp; cases h; exact absurd ht hr
    · cases hp
  case plane => simp only [exec, execPlane] at h; split at h <;> cases h; exact absurd ht hr; exact ⟨_, _, rfl⟩
  case audio => simp only [exec, execAudio] at h; split at h <;> cases h; exact ⟨_, _, rfl⟩; exact absurd ht hr
  case ldFont => simp only [exec, execLdFont] at h; split at h <;> cases h; exact ⟨_, _, rfl⟩; exact absurd ht hr
  case ldBigFont => simp only [exec, execLdBigFont] at h; split at h <;> cases h; exact ⟨_, _, rfl⟩; exact absurd ht hr
  case orReg => cases h; unfold State.setBitwise at ht; split at ht <;> exact absurd ht hr
  case andReg => cases h; unfold State.setBitwise at ht; split at ht <;> exact absurd ht hr
  case xorReg => cases h; unfold State.setBitwise at ht; split at ht <;> exact absurd ht hr
  all_goals (cases h; exact absurd ht hr)
/-- A completed tick does not end in `Faulted` (R285). -/
theorem State.afterCpuTick_faulted {u : State} (h : u.runState ≠ .faulted) : u.afterCpuTick.runState ≠ .faulted := by
  unfold State.afterCpuTick; rw [if_neg h]; unfold State.countTick State.setTurn State.setRunState; dsimp only; split
  · dsimp only; split <;> simp
  · exact h

end Sys2Proof.Machine
end

