-- ==== Sys2Proof/Tests/Slice0.lean ====
section
/-! SUPPORT. Tests. Expected values come from the spec: the encodings of R96, the worked examples of the instruction rules, and the
vectors of 95_test_vectors.md part 2 (named as "2.3 row 13"). Each runs one step on a small state. The witnesses at the end show
that the hypotheses of the statements can be met. -/

namespace Sys2Proof.Tests

open Sys2Proof Sys2Proof.Machine

/-! ### Well-formed instructions -/

theorem test_wf_drw : (Instr.drw 1 2 15).wf = true ∧ (Instr.drw 1 2 0).wf = false := by decide
theorem test_wf_plane : (Instr.plane 3).wf = true ∧ (Instr.plane 4).wf = false := by decide

/-! ### Decoding: words written out from the encodings of R96 -/

/-- The words of the groups 0 to B, digit by digit: group, x, y, n. -/
theorem test_decode_words_0_to_b :
    decodeTableWord 16 0x00E0 = some .cls ∧ decodeTableWord 16 0x00EE = some .ret ∧
    decodeTableWord 16 0x00FB = some .scr ∧ decodeTableWord 16 0x00FC = some .scl ∧
    decodeTableWord 16 0x00FE = some .low ∧ decodeTableWord 16 0x00FF = some .high ∧
    decodeTableWord 16 0x00C0 = some (.scd 0) ∧ decodeTableWord 16 0x00DF = some (.scu 15) ∧
    decodeTableWord 16 0x1ABC = some (.jp 0xABC) ∧ decodeTableWord 16 0x2ABC = some (.call 0xABC) ∧
    decodeTableWord 16 0x3A7F = some (.seImm 0xA 0x7F) ∧ decodeTableWord 16 0x4A7F = some (.sneImm 0xA 0x7F) ∧
    decodeTableWord 16 0x5AB0 = some (.seReg 0xA 0xB) ∧ decodeTableWord 16 0x9AB0 = some (.sneReg 0xA 0xB) ∧
    decodeTableWord 16 0x6A7F = some (.ldImm 0xA 0x7F) ∧ decodeTableWord 16 0x7A7F = some (.addImm 0xA 0x7F) ∧
    decodeTableWord 16 0xA123 = some (.ldI 0x123) ∧ decodeTableWord 16 0xB123 = some (.jpV0 0x123) := by decide

theorem test_decode_group_8 :
    decodeTableWord 16 0x8AB0 = some (.ldReg 0xA 0xB) ∧ decodeTableWord 16 0x8AB1 = some (.orReg 0xA 0xB) ∧
    decodeTableWord 16 0x8AB2 = some (.andReg 0xA 0xB) ∧ decodeTableWord 16 0x8AB3 = some (.xorReg 0xA 0xB) ∧
    decodeTableWord 16 0x8AB4 = some (.addReg 0xA 0xB) ∧ decodeTableWord 16 0x8AB5 = some (.subReg 0xA 0xB) ∧
    decodeTableWord 16 0x8AB6 = some (.shr 0xA 0xB) ∧ decodeTableWord 16 0x8AB7 = some (.subn 0xA 0xB) ∧
    decodeTableWord 16 0x8ABE = some (.shl 0xA 0xB) := by decide

/-- The words of the groups C to E, and the first rows of F; the long form's second word stands in bits 31 to 16. -/
theorem test_decode_words_c_to_f :
    decodeTableWord 16 0xCA7F = some (.rnd 0xA 0x7F) ∧ decodeTableWord 16 0xD120 = some (.drwBig 1 2) ∧
    decodeTableWord 16 0xD12F = some (.drw 1 2 15) ∧ decodeTableWord 16 0xE19E = some (.skp 1) ∧
    decodeTableWord 16 0xE1A1 = some (.sknp 1) ∧ decodeTableWord 32 0x0ABCF000 = some (.ldILong 0x0ABC) ∧
    decodeTableWord 16 0xF301 = some (.plane 3) ∧ decodeTableWord 16 0xF002 = some .audio := by decide

theorem test_decode_timer_rows :
    decodeTableWord 16 0xFE07 = some (.ldVxDt 0xE) ∧ decodeTableWord 16 0xFE0A = some (.ldVxKey 0xE) ∧
    decodeTableWord 16 0xFE15 = some (.ldDtVx 0xE) ∧ decodeTableWord 16 0xFE18 = some (.ldStVx 0xE) := by decide

theorem test_decode_index_rows :
    decodeTableWord 16 0xFE1E = some (.addI 0xE) ∧ decodeTableWord 16 0xFE29 = some (.ldFont 0xE) ∧
    decodeTableWord 16 0xFE30 = some (.ldBigFont 0xE) ∧ decodeTableWord 16 0xFE33 = some (.bcd 0xE) := by decide

theorem test_decode_block_rows :
    decodeTableWord 16 0xFE3A = some (.pitch 0xE) ∧ decodeTableWord 16 0xFE55 = some (.storeRegs 0xE) ∧
    decodeTableWord 16 0xFE65 = some (.loadRegs 0xE) ∧ decodeTableWord 16 0xFE75 = some (.saveFlags 0xE) ∧
    decodeTableWord 16 0xFE85 = some (.loadFlags 0xE) := by decide

/-- The illegal words that 95_test_vectors.md 2.1 lists. -/
theorem test_illegal_words :
    ([0x0000, 0x0123, 0x00FD, 0x00E1, 0x00B0, 0x00FA, 0x5AB1, 0x5AB2, 0x5AB3, 0x9AB1].all fun w => (decodeFirst w).isNone) ∧
    ([0x8AB8, 0x8ABF, 0xE0FF, 0xE09F, 0xF100, 0xF401, 0xF102, 0xF0FF, 0xF04B].all fun w => (decodeFirst w).isNone) := by decide

/-- The source's syntax examples, encoded: `LD V0,0x05` is 6005, `ADD V0,0x03` is 7003, `JP 0x200` is 1200 (R105). -/
theorem test_encode :
    encode (.ldImm 0 5) = [0x60, 0x05] ∧ encode (.addImm 0 3) = [0x70, 0x03] ∧ encode (.jp 0x200) = [0x12, 0x00] ∧
    encode (.ldILong 0x0ABC) = [0xF0, 0x00, 0x0A, 0xBC] := by decide

/-! ### A small state -/

/-- A configuration with every parameter given. -/
def testCfg : Cfg :=
  { defaultCfg with
    bigFontData := Vector.replicate 160 0xAA, patternReset := Vector.replicate 16 0, sampleRate := 8000
    ampHigh := 0xC0, ampLow := 0x40 }

/-- The state after reset with it. -/
def start : State := State.init testCfg

/-- Put a byte into `V[x]`. -/
def withV (x : Nibble) (b : Byte) (s : State) : State := s.setV x b

/-- Put bytes into memory. -/
def withBytes (a : Nat) (bs : List Byte) (s : State) : State := (s.storeBytes a bs).1

/-- Hold keys down. -/
def withKeys (ks : List Nat) (s : State) : State := { s with keys := Vector.ofFn fun k => decide (k.val ∈ ks) }

/-- Run the word at `PC` as the next step. -/
def go (w : Nat) (s : State) : Option State :=
  match step (s.withFetchWord 16 w) with
  | .next t => some t
  | _ => none

/-- Fetch at `PC` whatever stands there, as the next step. -/
def fetchHere (s : State) : Option State :=
  match step s.readyToFetch with
  | .next t => some t
  | _ => none

/-- An input that is given, so many milliseconds after the one before. -/
def given (h : HostInput) (ms : Nat) : GivenInput := { input := h, elapsedNum := ms, elapsedDenPred := 999 }

/-- The plane with the given cells (column, row) lit. -/
def cells (ps : List (Nat × Nat)) : Plane := ps.foldl (fun p c => p.flip c.2 c.1) blankPlane

/-! ### Control transfer -/

/-- R152. -/
theorem test_jp : (go 0x1300 start).map (·.pc) = some 0x300 := by decide
/-- 2.2 row 4. -/
theorem test_call : (go 0x2400 { start with pc := 0x2F0 }).map (fun t => (t.pc, t.sp, t.stack[0])) = some (0x400, 1, 0x2F2) := by decide
/-- 2.2 row 7. -/
theorem test_call_overflow : (go 0x2300 { start with sp := 16 }).map (fun t => (t.pc, t.sp, t.fault)) =
    some (0x200, 16, some (.stackOverflow 0x200)) := by decide
/-- 2.2 row 5. -/
theorem test_ret : (go 0x00EE { start with pc := 0x400, sp := 1, stack := start.stack.set 0 0x2F2 }).map
    (fun t => (t.pc, t.sp, t.stack[0])) = some (0x2F2, 0, 0x2F2) := by decide
/-- 2.2 row 6. -/
theorem test_ret_underflow : (go 0x00EE start).map (fun t => (t.pc, t.sp, t.fault)) =
    some (0x200, 0, some (.stackUnderflow 0x200)) := by decide
/-- R154's example in SuperChip. -/
theorem test_jp_v0 : (go 0xB300 ({ start with mode := .superChip } |> withV 3 0x10 |> withV 0 4)).map (·.pc) = some 0x310 := by decide
/-- 2.2 row 10. -/
theorem test_jp_v0_high : (go 0xBFFF (withV 0 0xFF start)).map (·.pc) = some 0x10FE := by decide
/-- 2.2 rows 12 and 13. -/
theorem test_se_imm : (go 0x3133 (withV 1 0x34 start)).map (·.pc) = some 0x202 ∧
    (fetchHere (start |> withV 1 0x33 |> withBytes 0x200 [0x31, 0x33, 0xF0, 0x00])).map (·.pc) = some 0x206 := by decide
/-- 2.2 row 15. -/
theorem test_sne_imm : (go 0x4133 (withV 1 0x34 start)).map (·.pc) = some 0x204 := by decide
/-- 2.2 row 16. -/
theorem test_se_reg : (go 0x5120 (start |> withV 1 7 |> withV 2 7)).map (·.pc) = some 0x204 := by decide
/-- 2.2 row 17. -/
theorem test_sne_reg : (go 0x9120 (start |> withV 1 7 |> withV 2 7)).map (·.pc) = some 0x202 := by decide
/-- The key skips of 2.2. -/
theorem test_skp : (go 0xE29E (start |> withV 2 5 |> withKeys [5])).map (·.pc) = some 0x204 := by decide
theorem test_sknp : (go 0xE2A1 (start |> withV 2 5 |> withKeys [5])).map (·.pc) = some 0x202 := by decide
theorem test_skp_range : (go 0xE29E (withV 2 0x15 start)).map (fun t => (t.pc, t.fault)) =
    some (0x200, some (.operandRange 0x200 0x15)) := by decide
/-- 2.2, skips at the top of memory. -/
theorem test_skip_at_top : (go 0x3000 { start with pc := 0xFFC }).map (·.pc) = some 0x1000 ∧
    (go 0x3000 { start with pc := 0xFFE }).map (fun t => (t.pc, t.fault)) = some (0xFFE, some (.memoryAccess 0x1000 .read)) := by decide

/-! ### Loads, arithmetic, random -/

/-- 2.3 rows 1 and 3. -/
theorem test_ld_imm : (go 0x61AB start).map (fun t => (t.getV 1, t.getV 15, t.pc)) = some (0xAB, 0, 0x202) := by decide
theorem test_add_imm : (go 0x7F03 (withV 15 0xFE start)).map (·.getV 15) = some 0x01 := by decide
/-- 2.3 row 4. -/
theorem test_ld_reg : (go 0x8120 (withV 2 0x5A start)).map (·.getV 1) = some 0x5A := by decide
/-- 2.3 rows 6 and 9. -/
theorem test_or : (go 0x8121 ({ start with mode := .xoChip } |> withV 1 0xF0 |> withV 2 0x0F |> withV 15 1)).map
    (fun t => (t.getV 1, t.getV 15)) = some (0xFF, 1) ∧
    (go 0x8F21 (start |> withV 15 0xAA |> withV 2 0x0F)).map (·.getV 15) = some 0 := by decide
/-- 2.3 row 7. -/
theorem test_and : (go 0x8122 (start |> withV 1 0xF0 |> withV 2 0x3C |> withV 15 7)).map
    (fun t => (t.getV 1, t.getV 15)) = some (0x30, 0) := by decide
/-- 2.3 row 8. -/
theorem test_xor : (go 0x8123 ({ start with mode := .superChip } |> withV 1 0xF0 |> withV 2 0x3C |> withV 15 7)).map
    (fun t => (t.getV 1, t.getV 15)) = some (0xCC, 7) := by decide
/-- 2.3 rows 10 and 13. -/
theorem test_add : (go 0x8124 (start |> withV 1 0xFF |> withV 2 1)).map (fun t => (t.getV 1, t.getV 15)) = some (0, 1) := by decide
theorem test_add_vf : (go 0x8F14 (start |> withV 15 0xFF |> withV 1 1)).map (·.getV 15) = some 1 := by decide
/-- 2.3 rows 17 and 18. -/
theorem test_sub : (go 0x8125 (start |> withV 1 3 |> withV 2 5)).map (fun t => (t.getV 1, t.getV 15)) = some (0xFE, 0) := by decide
theorem test_sub_equal : (go 0x8125 (start |> withV 1 9 |> withV 2 9)).map (fun t => (t.getV 1, t.getV 15)) = some (0, 1) := by decide
/-- 2.3 rows 22 and 23. -/
theorem test_shr : (go 0x8126 (start |> withV 1 0xFF |> withV 2 5)).map (fun t => (t.getV 1, t.getV 15)) = some (2, 1) := by decide
theorem test_shr_superchip : (go 0x8126 ({ start with mode := .superChip } |> withV 1 0xFF |> withV 2 5)).map
    (fun t => (t.getV 1, t.getV 15)) = some (0x7F, 1) := by decide
/-- 2.3 row 21. -/
theorem test_subn : (go 0x8127 (start |> withV 1 5 |> withV 2 3)).map (fun t => (t.getV 1, t.getV 15)) = some (0xFE, 0) := by decide
/-- 2.3 rows 25 and 26. -/
theorem test_shl : (go 0x812E (start |> withV 1 1 |> withV 2 0x81)).map (fun t => (t.getV 1, t.getV 15)) = some (2, 1) := by decide
theorem test_shl_superchip : (go 0x812E ({ start with mode := .superChip } |> withV 1 0x41 |> withV 2 0x81)).map
    (fun t => (t.getV 1, t.getV 15)) = some (0x82, 0) := by decide

/-- 2.3 row 30. -/
theorem test_rnd : (go 0xC100 (withV 1 7 start)).map (·.getV 1) = some 0 := by
  have h : go 0xC100 (withV 1 7 start) =
      some (((start.withFetchWord 16 0xC100).clearAccCpu.setV 1 (Config.randomByte 0 &&& 0)).countDraw.advance.afterCpuTick) := rfl
  have e : Config.randomByte 0 &&& (0 : Byte) = 0 := BitVec.and_zero
  rw [h, e]
  decide

/-! ### The index register and memory -/

/-- 2.4 row 1. -/
theorem test_ld_i : (go 0xA123 start).map (·.regI) = some 0x123 := by decide
/-- 2.4 row 2. -/
theorem test_ld_i_long : (match step (start.withFetchWord 32 0x1234F000) with
    | .next t => some (t.regI, t.pc, t.mode) | _ => none) = some (0x1234, 0x204, .xoChip) := by decide
/-- 2.4 rows 4 and 5. -/
theorem test_add_i : (go 0xF11E ({ start with regI := 0xFFF } |> withV 1 2 |> withV 15 9)).map
    (fun t => (t.regI, t.getV 15)) = some (0x1001, 9) := by decide
theorem test_add_i_wraps : (go 0xF11E ({ start with regI := 0xFFFF } |> withV 1 2)).map (·.regI) = some 1 := by decide
/-- 2.4 rows 6 and 7. -/
theorem test_ld_font : (go 0xF129 (withV 1 0x0A start)).map (·.regI) = some 0x82 := by decide
theorem test_ld_font_range : (go 0xF129 (withV 1 0x1A start)).map (·.fault) = some (some (.operandRange 0x200 0x1A)) := by decide
/-- 2.4 row 8. -/
theorem test_ld_big_font : (go 0xF130 (withV 1 3 start)).map (fun t => (t.regI, t.mode)) = some (0xBE, .superChip) := by decide
/-- 2.4 rows 9 and 11. -/
theorem test_bcd : (go 0xF133 ({ start with regI := 0x300 } |> withV 1 0xFF)).map
    (fun t => [t.byteAt 0x300, t.byteAt 0x301, t.byteAt 0x302]) = some [2, 5, 5] := by decide
theorem test_bcd_at_top : (go 0xF133 ({ start with regI := 0xFFE } |> withV 1 123)).map
    (fun t => (t.byteAt 0xFFE, t.byteAt 0xFFF, t.pc, t.fault)) =
      some (1, 2, 0x200, some (.memoryAccess 0x1000 .write)) := by decide
/-- 2.4 rows 12 and 13. -/
theorem test_store : (go 0xF255 ({ start with regI := 0x300 } |> withV 0 0x11 |> withV 1 0x22 |> withV 2 0x33)).map
    (fun t => (t.byteAt 0x300, t.byteAt 0x302, t.byteAt 0x303, t.regI)) = some (0x11, 0x33, 0, 0x303) := by decide
theorem test_store_superchip : (go 0xF255 { start with regI := 0x300, mode := .superChip }).map (·.regI) = some 0x300 := by decide
/-- 2.4 row 16. -/
theorem test_load : (go 0xF365 ({ start with regI := 0x300 } |> withBytes 0x300 [0xDE, 0xAD, 0xBE, 0xEF])).map
    (fun t => (t.getV 0, t.getV 3, t.getV 4, t.regI)) = some (0xDE, 0xEF, 0, 0x304) := by decide
/-- 2.4 row 18. -/
theorem test_save_flags : (go 0xF275 (start |> withV 0 1 |> withV 1 2 |> withV 2 3 |> withV 3 4)).map
    (fun t => (t.flags[2], t.flags[3], t.out.flagSaves, t.mode)) = some (3, 0, 1, .superChip) := by decide
/-- 2.4 row 19. -/
theorem test_load_flags : (go 0xF185 (withV 2 5 { start with flags := (start.flags.set 0 7).set 1 9 })).map
    (fun t => (t.getV 0, t.getV 1, t.getV 2)) = some (7, 9, 5) := by decide

/-! ### The display -/

/-- 2.5 row 12. -/
theorem test_cls : (go 0x00E0 { start with plane0 := cells [(3, 0)], plane1 := cells [(3, 0)] }).map
    (fun t => (t.plane0.lit 0 3, t.plane1.lit 0 3)) = some (false, true) := by decide
/-- 2.5 row 14. -/
theorem test_scd : (go 0x00C3 { start with hires := true, plane0 := cells [(3, 0)] }).map
    (fun t => (t.plane0.lit 3 3, t.plane0.lit 0 3)) = some (true, false) := by decide
/-- 2.5 row 19. -/
theorem test_scu : (go 0x00D2 { start with hires := true, plane0 := cells [(5, 2)] }).map (·.plane0.lit 0 5) = some true ∧
    (go 0x00D3 { start with hires := true, plane0 := cells [(5, 2)] }).map (·.plane0) = some blankPlane := by decide
/-- R227's example. -/
theorem test_scr : (go 0x00FB { start with hires := true, plane0 := cells [(126, 0), (0, 0)] }).map (·.plane0) =
    some (cells [(4, 0)]) := by decide
/-- R228's example. -/
theorem test_scl : (go 0x00FC { start with hires := true, plane0 := cells [(4, 0), (2, 0)] }).map (·.plane0) =
    some (cells [(0, 0)]) := by decide
/-- 2.5 rows 21 and 22. -/
theorem test_high : (go 0x00FF { start with plane0 := cells [(4, 0)] }).map (fun t => (t.hires, t.plane0.lit 0 4)) =
    some (true, true) := by decide
theorem test_low : (go 0x00FE { start with hires := true }).map (fun t => (t.hires, t.mode)) = some (false, .superChip) := by decide
/-- R232's example, and the same draw again (program P3). -/
theorem test_drw : (go 0xD011 ({ start with regI := 0x300 } |> withV 0 1 |> withV 1 2 |> withBytes 0x300 [0x80])).map
    (fun t => (t.plane0, t.getV 15)) = some (cells [(2, 4), (3, 4), (2, 5), (3, 5)], 0) := by decide
theorem test_drw_collision : (go 0xD011 ({ start with regI := 0x300, plane0 := cells [(2, 4), (3, 4), (2, 5), (3, 5)] } |>
      withV 0 1 |> withV 1 2 |> withBytes 0x300 [0x80])).map (fun t => (t.plane0, t.getV 15)) = some (blankPlane, 1) := by decide
/-- 2.5 row 9: 16 by 16, clipped. -/
theorem test_drw_big : (go 0xD010 ({ start with regI := 0x300, hires := true, mode := .superChip } |> withV 0 120 |> withV 1 58 |>
      withBytes 0x300 [0x80, 1, 0x80, 1, 0x80, 1, 0x80, 1, 0x80, 1, 0x80, 1, 0x80, 1, 0x80, 1])).map
    (fun t => (t.plane0, t.getV 15)) =
      some (cells [(120, 58), (120, 59), (120, 60), (120, 61), (120, 62), (120, 63)], 0) := by decide
/-- R234's example: 62, 63 under clip, and 0, 1 as well under wrap. -/
theorem test_drw_clip_and_wrap :
    (go 0xD011 ({ start with regI := 0x300 } |> withV 0 62 |> withBytes 0x300 [0xF0])).map
      (fun t => (t.plane0.lit 0 126, t.plane0.lit 0 0)) = some (true, false) ∧
    (go 0xD011 ({ start with regI := 0x300, mode := .xoChip } |> withV 0 62 |> withBytes 0x300 [0xF0])).map
      (fun t => (t.plane0.lit 0 126, t.plane0.lit 0 3, t.plane0.lit 0 4)) = some (true, true, false) := by decide
/-- 2.5 row 24. -/
theorem test_drw_faults : (go 0xD012 { start with regI := 0xFFF }).map (fun t => (t.fault, t.getV 15)) =
    some (some (.memoryAccess 0x1000 .read), 0) := by decide
/-- R235's examples. -/
theorem test_plane : (go 0xF301 start).map (fun t => (t.planesSel, t.mode)) = some (3, .xoChip) ∧
    (go 0xF401 start).map (·.fault) = some (some (.unknownOpcode 0xF401)) := by decide

/-! ### Timers, keys, audio -/

/-- 2.6 rows 1 to 3. -/
theorem test_ld_vx_dt : (go 0xF307 { start with delay := 0x2A }).map (·.getV 3) = some 0x2A := by decide
theorem test_ld_dt_vx : (go 0xF315 (withV 3 0x10 start)).map (fun t => (t.delay, t.sound)) = some (0x10, 0) := by decide
theorem test_ld_st_vx : (go 0xF318 (withV 3 0x10 start)).map (fun t => (t.delay, t.sound)) = some (0, 0x10) := by decide
/-- 2.6 row 8. -/
theorem test_ld_vx_key : (go 0xF30A (withKeys [4] start)).map (fun t => (t.cpuState, t.pc)) = some (.awaitingKey 3 none, 0x200) := by decide
/-- 2.6 rows 10 and 12. -/
theorem test_key_wait : (({ start with cpuState := .awaitingKey 3 none } |> withKeys [4, 9]).keyWaitPoll 3 none).cpuState =
      .awaitingKey 3 (some 4) ∧
    ((fun t : State => (t.getV 3, t.pc, t.cpuState)) ((withKeys [9] start).keyWaitPoll 3 (some 4))) = (4, 0x202, .running) := by decide
/-- 2.6 row 4. -/
theorem test_timer_tick : (fun t : State => (t.delay, t.sound)) ({ start with delay := 2, sound := 1 } : State).timerTick = (1, 0) := by decide
/-- 2.7 rows 1 and 2. -/
theorem test_audio : (go 0xF002 ({ start with regI := 0x300 } |> withBytes 0x300 [0xF0, 0, 0, 0, 0, 0, 0, 0, 0, 0, 0, 0, 0, 0, 0, 1])).map
    (fun t => (t.pattern[0], t.pattern[1], t.pattern[15], t.mode)) = some (0xF0, 0, 1, .xoChip) := by decide
theorem test_audio_faults : (go 0xF002 { start with regI := 0xFF8 }).map (·.fault) = some (some (.memoryAccess 0x1000 .read)) := by decide
/-- 2.7 row 3. -/
theorem test_pitch : (go 0xF13A (withV 1 68 start)).map (·.pitch) = some 68 := by decide
/-- The pattern of 2.7 row 1. -/
def pattern1 : Vector Byte 16 := ((Vector.replicate 16 0).set 0 0xF0).set 15 0x01
/-- 2.7 row 4, and R270's rates at pitches 252 and 65 (4756.83 to two places). -/
theorem test_rate : playbackRate 72 = .ofRat 16000 ∧ playbackRate 0 = .ofRat (4000 / 65536) ∧
    playbackRate 252 = .ofRat (4000 * 2 ^ 47) ∧
    ((Surd.scale 100 (playbackRate 65)).add (.ofRat (1 / 2))).floor = 475683 := by decide +kernel
/-- 2.7 row 5. -/
theorem test_pattern_bits : [0, 1, 2, 3, 4, 126, 127].map (patternBit pattern1) =
    [true, true, true, true, false, false, true] := by decide
/-- 2.7 row 6. -/
theorem test_generate : ({ start with pattern := pattern1 } : State).generate 10 .zero =
    ([0xC0, 0xC0, 0xC0, 0xC0, 0xC0, 0xC0, 0xC0, 0xC0, 0x40, 0x40], .ofRat 5) := by decide +kernel
/-- 2.7 row 7. -/
theorem test_generate_wraps :
    ({ start with pattern := pattern1, pitch := 68, cfg := { testCfg with sampleRate := 4000 } } : State).generate 3 (.ofRat 126) =
      ([0x40, 0xC0, 0xC0], .ofRat 4) := by decide +kernel
/-- Floors by hand: of minus the square root of 2, and of the square root of 2 less 1. -/
theorem test_surd_floor : (Surd.monomial (-1) 2).floor = -2 ∧ ((Surd.monomial 1 2).subRat 1).floor = 0 := by decide +kernel

/-! ### Whole-machine vectors -/

/-- 2.9 rows 1, 4 and 5: an empty ROM, and fetches at the two ends of program space. -/
theorem test_fetch_faults :
    (fetchHere start).map (·.fault) = some (some (.unknownOpcode 0x0000)) ∧
    (fetchHere { start with pc := 0xFFF }).map (·.fault) = some (some (.memoryAccess 0x1000 .fetch)) ∧
    (fetchHere { start with pc := 0x1FE }).map (·.fault) = some (some (.memoryAccess 0x1FE .fetch)) := by decide

/-- 2.9 row 8: a forced mode is not promoted. -/
theorem test_forced_mode : (go 0x00FF (State.init { testCfg with forcedMode := .chip8 })).map (fun t => (t.hires, t.mode)) =
    some (true, .chip8) := by decide

/-- 2.9 rows 10 and 12. -/
theorem test_reset : (State.init { testCfg with diagByte := some 1 }).byteAt 0x1FF = 1 ∧
    (fun t : State => (t.pc, t.pitch, t.planesSel, t.hires, t.sp)) start = (0x200, 64, 1, false, 0) := by decide

/-- The glyph of 0 stands at `FONT_BASE` after reset (treatment U9, R335). -/
theorem test_font : [start.byteAt 0x50, start.byteAt 0x51, start.byteAt 0x54, start.byteAt 0x9F] = [0xF0, 0x90, 0xF0, 0x80] := by decide

/-! ### Witnesses: each names the statement whose hypotheses it meets, clause by clause -/

/-- A state about to fetch the bytes given at `a`, with `PC` there. -/
def fetching (a : Nat) (bs : List Byte) : State :=
  (withBytes a bs { start with pc := BitVec.ofNat 16 a }).readyToFetch

theorem test_witness_decode_of_encode : (Instr.drw 15 15 15).wf = true ∧ (Instr.plane 3).wf = true := by decide
theorem test_witness_encode_of_decode : decode [0x12, 0x34, 0x56] = .ok (.jp 0x234, [0x56]) := rfl
theorem test_witness_generation_class : (Instr.scd 15).wf = true ∧ (0x00CF : Word) = (Instr.scd 15).firstWord := by decide

theorem test_witness_bus : Memory.wf start.cfg start.mem ∧ (0x200 ≤ 0x200 ∧ 0x200 ≤ 0xFFF) ∧ (0x200 ≤ 0xFFF ∧ 0xFFF ≤ 0xFFF) ∧
    (0x1FF ≤ 0x1FF ∨ 4096 ≤ 0x1FF) ∧ (4096 ≤ 0x1FF ∨ 4096 ≤ 4096) := by decide

theorem test_witness_jumps : start.quirk.jumpReg = .v0 ∧ ({ start with mode := .superChip } : State).quirk.jumpReg = .vHigh ∧
    start.cfg.quirks = standardQuirks := by decide

theorem test_witness_call : ({ start with sp := 15 } : State).sp.val < 16 ∧ ({ start with sp := 16 } : State).sp.val = 16 := by decide
theorem test_witness_return : ({ start with sp := 16 } : State).sp.val = (15 : Fin 16).val + 1 ∧
    ({ start with sp := 1 } : State).sp.val = (0 : Fin 16).val + 1 ∧ start.sp.val = 0 := by decide

/-- `ConditionalSkips`: not taken; taken with the probe inside, at its last place; taken with the probe outside at either end. -/
theorem test_witness_skips : start.getV 1 ≠ 0x33 ∧ start.getV 1 = 0 ∧
    (fun s : State => 0x200 ≤ s.pc.toNat + 2 ∧ s.pc.toNat + 3 < 0x1000) { start with pc := 0xFFC } ∧
    (fun s : State => s.pc.toNat + 2 < 0x200 ∨ 0x1000 ≤ s.pc.toNat + 2) { start with pc := 0x1FD } ∧
    (fun s : State => s.pc.toNat + 2 < 0x200 ∨ 0x1000 ≤ s.pc.toNat + 2) { start with pc := 0xFFE } ∧
    (fun s : State => s.pc.toNat + 2 = 0xFFF) { start with pc := 0xFFD } := by decide

theorem test_witness_key_skips : ((withV 2 15 start).getV 2).toNat = (15 : Fin 16).val ∧ 15 < ((withV 2 16 start).getV 2).toNat ∧
    (withKeys [15] start).keys[15] = true ∧ (withKeys [] start).keys[15] = false := by decide

theorem test_witness_bitwise : (((0x1#4, .orReg 1 2, or) : Nibble × Instr × (Bool → Bool → Bool)) ∈
      [(0x1#4, .orReg 1 2, or), (0x2#4, .andReg 1 2, and), (0x3#4, .xorReg 1 2, xor)]) ∧
    (∀ b < 8, (0x00 : Byte).getLsbD b = (((start.getV 1).getLsbD b) || ((start.getV 2).getLsbD b))) ∧
    start.quirk.vfReset = true ∧ ({ start with mode := .xoChip } : State).quirk.vfReset = false := by
  exact ⟨by simp, by decide, by decide, by decide⟩

theorem test_witness_shifts : 5 = (if (withV 2 5 start).quirk.shiftSrc = .vy then ((withV 2 5 start).getV 2).toNat
    else ((withV 2 5 start).getV 1).toNat) := by decide

theorem test_witness_index_long : (0x0ABC : Word) = (0x0A : Byte) ++ (0xBC : Byte) := by decide

theorem test_witness_fonts : cfgValid start.cfg = true ∧ ((withV 1 15 start).getV 1).toNat ≤ 15 ∧
    15 < ((withV 1 16 start).getV 1).toNat := by decide

theorem test_witness_decimal : Memory.wf start.cfg start.mem ∧ InProgram (0xFFD : Word).toNat 3 := by
  unfold InProgram; decide

/-- `StoreRegisters`, `LoadRegisters`, `PatternLoad`: a block that ends at the last address. -/
theorem test_witness_blocks : Memory.wf start.cfg start.mem ∧ InProgram (0xFF0 : Word).toNat ((0xF : Nibble).toNat + 1) ∧
    InProgram (0xFF0 : Word).toNat 16 := by
  unfold InProgram; decide

/-- `BlockFaultsKeepTheEarlierPart`: stopping at the third byte, at the last of sixteen, and at the first. -/
theorem test_witness_block_faults : FirstRefused (0xFFE : Word).toNat 2 ∧ 2 < (0x2 : Nibble).toNat + 1 ∧ 2 < 3 ∧
    FirstRefused (0xFF1 : Word).toNat 15 ∧ 15 < (0xF : Nibble).toNat + 1 ∧
    FirstRefused (0x1FF : Word).toNat 0 ∧ 0 < (0x0 : Nibble).toNat + 1 := by
  unfold FirstRefused InProgram; decide

theorem test_witness_scrolls : 2 = (if start.hires then 1 else 2) ∧ 6 = (3 : Nibble).toNat * 2 ∧ 8 = 4 * 2 := by decide
theorem test_witness_planes : (3 : Nibble).toNat ≤ 3 ∧ 3 < (4 : Nibble).toNat := by decide

theorem test_witness_draws : (15 : Nibble) ≠ 0 ∧ InProgram (0xFF1 : Word).toNat (15 : Nibble).toNat ∧
    InProgram (0xFE0 : Word).toNat 32 ∧ start.cfg.quirks = standardQuirks := by
  unfold InProgram; decide

theorem test_witness_draw_faults : FirstRefused (0xFFF : Word).toNat 1 ∧ 1 < (2 : Nibble).toNat ∧
    FirstRefused (0xFE1 : Word).toNat 31 ∧ 31 < 32 := by
  unfold FirstRefused InProgram; decide

/-- `DrawTwiceRestores`, its last clause too: the first draw lights the cell (2, 4). -/
theorem test_witness_draw_twice : (1 : Nibble) ≠ 0xF ∧ (2 : Nibble) ≠ 0xF ∧ InProgram (0x300 : Word).toNat (1 : Nibble).toNat ∧
    (start.plane 0).lit 4 2 = false ∧
    (go 0xD011 ({ start with regI := 0x300 } |> withV 0 1 |> withV 1 2 |> withBytes 0x300 [0x80])).map
      (fun t => (t.plane 0).lit 4 2) = some true := by
  unfold InProgram; decide

theorem test_witness_key_wait :
    (fun s : State => s.cpuState = .awaitingKey 3 none ∧ ∀ k : Fin 16, s.keys[k] = false)
      { start with cpuState := .awaitingKey 3 none } ∧
    (fun s : State => s.cpuState = .awaitingKey 3 none ∧ s.keys[(4 : Fin 16)] = true ∧ ∀ j : Fin 16, j < 4 → s.keys[j] = false)
      (withKeys [4, 9] { start with cpuState := .awaitingKey 3 none }) ∧
    (fun s : State => s.cpuState = .awaitingKey 3 (some (BitVec.ofFin 15)) ∧ s.keys[(15 : Fin 16)] = true)
      (withKeys [15] { start with cpuState := .awaitingKey 3 (some 15) }) ∧
    (fun s : State => s.cpuState = .awaitingKey 3 (some (BitVec.ofFin 15)) ∧ s.keys[(15 : Fin 16)] = false)
      { start with cpuState := .awaitingKey 3 (some 15) } ∧
    (fun s : State => s.runState = .active ∧ s.turn = .cpu ∧ s.cpuState = .awaitingKey 3 none)
      { start with turn := .cpu, cpuState := .awaitingKey 3 none } := by decide

theorem test_witness_timer_turn : (fun s : State => s.runState = .active ∧ s.turn = .timer) { start with turn := .timer } := by decide

theorem test_witness_pattern_faults : FirstRefused (0xFF8 : Word).toNat 8 ∧ 8 < 16 := by
  unfold FirstRefused InProgram; decide

theorem test_witness_rate : (68 : Byte).toNat = (64 : Byte).toNat + 4 ∧ (255 : Byte).toNat = (251 : Byte).toNat + 4 := by decide

/-- `SamplesFollowThePhase`: pitch 64, 8000 samples a second, phase 0; sample 3 shows bit 1 (2.7 row 6). -/
theorem test_witness_samples : 0 ≤ Surd.zero.value ∧ Surd.zero.value < 128 ∧
    (1 / 2 : ℝ) = 4000 * (2 : ℝ) ^ (((start.pitch.toNat : ℝ) - 64) / 4) / start.cfg.sampleRate ∧
    3 < 10 ∧ ((1 : Fin 128).val : Int) = ⌊Surd.zero.value + (3 : Nat) * (1 / 2 : ℝ)⌋ % 128 := by
  have hp : start.pitch.toNat = 64 := rfl
  have hr : start.cfg.sampleRate = 8000 := rfl
  have hf : ⌊(3 / 2 : ℝ)⌋ = 1 := by rw [Int.floor_eq_iff]; norm_num
  norm_num [hp, hr, hf]

/-- `StepRunsTheDecodedInstruction`: a 2-byte instruction at the last place, and the long form at its last place. -/
theorem test_witness_step_runs : (Instr.jp 0x300).wf = true ∧ (fetching 0xFFE [0x13, 0x00]).Fetching ∧
    (fetching 0xFFE [0x13, 0x00]).Holds (.jp 0x300) ∧ (Instr.ldILong 0x0ABC).wf = true ∧
    (fetching 0xFFC [0xF0, 0x00, 0x0A, 0xBC]).Fetching ∧ (fetching 0xFFC [0xF0, 0x00, 0x0A, 0xBC]).Holds (.ldILong 0x0ABC) := by
  unfold State.Fetching State.Holds InProgram; decide

/-- `CompletedTicksAreCounted`: after a fault; below the limit; at it, with either action. -/
theorem test_witness_ticks : ({ start with runState := .faulted } : State).runState = .faulted ∧ start.runState = .active ∧
    (.active : RunState) = (if start.cfg.tickLimit = some (start.cpuTicks + 1) then
      (match start.cfg.limitAction with | .pause => .paused | .exit => .exited) else .active) ∧
    (fun c : Cfg => (.exited : RunState) = (if c.tickLimit = some (start.cpuTicks + 1) then
      (match c.limitAction with | .pause => .paused | .exit => .exited) else .active))
        { testCfg with tickLimit := some 1, limitAction := .exit } := by decide

theorem test_witness_fetch_faults :
    (fun s : State => s.Fetching ∧ s.pc.toNat < 0x200) (fetching 0x1FF []) ∧
    (fun s : State => s.Fetching ∧ 0x1000 ≤ s.pc.toNat) (fetching 0x1000 []) ∧
    (fun s : State => s.Fetching ∧ s.pc.toNat = 0xFFF) (fetching 0xFFF []) ∧
    (fun s : State => s.Fetching ∧ s.pc.toNat = 0xFFD ∧ s.byteAt s.pc.toNat = 0xF0 ∧ s.byteAt (s.pc.toNat + 1) = 0x00)
      (fetching 0xFFD [0xF0, 0x00]) ∧
    (fun s : State => s.Fetching ∧ s.pc.toNat = 0xFFE ∧ s.byteAt s.pc.toNat = 0xF0 ∧ s.byteAt (s.pc.toNat + 1) = 0x00)
      (fetching 0xFFE [0xF0, 0x00]) := by
  unfold State.Fetching; decide

theorem test_witness_illegal_word : (fun s : State => s.Fetching ∧ 0x200 ≤ s.pc.toNat ∧ s.pc.toNat ≤ 0xFFE ∧
    (0xF401 : Word) = s.byteAt s.pc.toNat ++ s.byteAt (s.pc.toNat + 1)) (fetching 0xFFE [0xF4, 0x01]) ∧ IllegalWord 0xF401 := by
  unfold State.Fetching IllegalWord; decide

theorem test_witness_cancellation : (fun s : State => (s.runState = .active ∨ s.runState = .paused) ∧ s.turn = .top ∧
    (s.port.cancel = true ∨ s.nextInput.cancel = true)) { start with feed := [given { quietInput with cancel := true } 0] } := by decide

theorem test_witness_iteration : (fun s : State => (s.runState = .active ∨ s.runState = .paused) ∧ s.turn = .top ∧
    s.port.cancel = false ∧ s.nextInput.cancel = false ∧ s.feed.head? = some (given quietInput 1))
      { start with feed := [given quietInput 1] } := by decide

/-- The same in a `Paused` run. -/
theorem test_witness_iteration_paused : (fun s : State => s.runState = .paused ∧ s.turn = .top ∧
    s.port.cancel = false ∧ s.nextInput.cancel = false ∧ s.feed.head? = some (given quietInput 1))
      { start with runState := .paused, feed := [given quietInput 1] } := by decide

/-- Its clause on an empty feed: iteration n of such a run, `Active` or `Paused`, meets the hypotheses exactly where the host's free
input for it does not cancel. -/
theorem test_witness_iteration_free (n : Nat) (r : RunState) (hr : r = .active ∨ r = .paused) :
    (fun s : State => (s.runState = .active ∨ s.runState = .paused) ∧ s.turn = .top ∧
      s.port.cancel = false ∧ s.nextInput.cancel = false ∧ s.feed = [])
      { start with runState := r, inputsRead := n } ↔ (Config.hostInput n).cancel = false :=
  ⟨fun h => h.2.2.2.1, fun h => ⟨hr, rfl, rfl, h, rfl⟩⟩

theorem test_witness_quirks : start.cfg.quirks = standardQuirks ∧ (start.mode = .unset ∨ start.mode = .chip8) ∧
    ({ start with mode := .superChip } : State).mode = .superChip ∧ ({ start with mode := .xoChip } : State).mode = .xoChip := by decide

/-- `PresentShowsThePlanes` and `AudioIsGatedBySound`: without and with a sound; the block has 133 samples (8000 / 60). -/
theorem test_witness_present : (fun s : State => (s.runState = .active ∨ s.runState = .paused) ∧ s.turn = .present ∧
      (s.runState = .paused ∨ s.sound = 0)) { start with turn := .present } ∧
    (fun s : State => s.runState = .active ∧ s.turn = .present ∧ s.sound ≠ 0 ∧ ((133 : Nat) : Int) = (s.cfg.sampleRate / 60).floor ∧
      s.port.accepted ≤ 133 ∧ s.port.accepted ≤ s.port.headroom) { start with turn := .present, sound := 1 } := by decide +kernel

theorem test_witness_run_states : ({ start with runState := .faulted } : State).runState = .faulted ∧
    ({ start with runState := .exited } : State).runState = .exited ∧ start.runState = .active ∧
    ({ start with runState := .paused } : State).runState = .paused := by decide

theorem test_witness_paused : (fun s : State => s.runState = .paused ∧ step s = .next (s.setTurn .top))
    { start with runState := .paused, turn := .cpu } := ⟨rfl, rfl⟩

theorem test_witness_promotion : (Instr.plane 3).wf = true ∧ (∃ t, step (fetching 0x200 [0x00, 0xFF]) = .next t) ∧
    ({ start with modeForced := true } : State).modeForced = true := ⟨by decide, ⟨_, rfl⟩, rfl⟩

/-- `SpecialRegistersHaveTheirWriters`: steps that change `I`, the stack, a plane, a counter by its tick, and the keys. -/
theorem test_witness_special_registers :
    (∃ t, step (fetching 0x200 [0xA1, 0x23]) = .next t ∧ t.regI ≠ (fetching 0x200 [0xA1, 0x23]).regI) ∧
    (∃ t, step (fetching 0x200 [0x23, 0x00]) = .next t ∧ t.stack ≠ (fetching 0x200 [0x23, 0x00]).stack ∧
      t.sp ≠ (fetching 0x200 [0x23, 0x00]).sp) ∧
    (∃ t, step ({ start with turn := .timer, delay := 2, sound := 1 } : State) = .next t ∧ t.delay ≠ 2 ∧ t.sound ≠ 1) ∧
    (∃ t, step ({ start with feed := [given { quietInput with keys := Vector.replicate 16 true } 0] } : State) = .next t ∧
      t.keys ≠ start.keys) :=
  ⟨⟨_, rfl, by decide⟩, ⟨_, rfl, by decide⟩, ⟨_, rfl, by decide⟩, ⟨_, rfl, by decide⟩⟩

/-- The other registers of that statement: `planes_sel`, `hires`, `pitch`, `flags`, a plane, and the phase. -/
theorem test_witness_special_registers_2 :
    (∃ t, step (fetching 0x200 [0xF3, 0x01]) = .next t ∧ t.planesSel ≠ (fetching 0x200 [0xF3, 0x01]).planesSel) ∧
    (∃ t, step (fetching 0x200 [0x00, 0xFF]) = .next t ∧ t.hires ≠ (fetching 0x200 [0x00, 0xFF]).hires) ∧
    (∃ t, step (fetching 0x200 [0xF0, 0x3A]) = .next t ∧ t.pitch ≠ (fetching 0x200 [0xF0, 0x3A]).pitch) ∧
    (∃ t, step (withV 0 7 (fetching 0x200 [0xF0, 0x75])) = .next t ∧ t.flags ≠ (fetching 0x200 [0xF0, 0x75]).flags) ∧
    (∃ t, step ({ fetching 0x200 [0x00, 0xE0] with plane0 := cells [(0, 0)] } : State) = .next t ∧
      t.plane 0 ≠ (cells [(0, 0)])) ∧
    (∃ t, step ({ start with turn := .present, sound := 1 } : State) = .next t ∧ t.phase ≠ .zero) :=
  ⟨⟨_, rfl, by decide⟩, ⟨_, rfl, by decide⟩, ⟨_, rfl, by decide⟩, ⟨_, rfl, by decide⟩, ⟨_, rfl, by decide⟩,
    ⟨_, rfl, by decide +kernel⟩⟩

/-- `cpu_state` in that statement: entered by `F30A`, and left by a poll that counts as a tick (2.6 row 12). -/
theorem test_witness_special_registers_3 :
    (∃ t, step (fetching 0x200 [0xF3, 0x0A]) = .next t ∧ t.cpuState = .awaitingKey 3 none) ∧
    (∃ t, step ({ start with turn := .cpu, cpuState := .awaitingKey 3 (some 4) } : State) = .next t ∧ t.cpuState = .running ∧
      t.cpuTicks = 1) := ⟨⟨_, rfl, by decide⟩, ⟨_, rfl, by decide, by decide⟩⟩

theorem test_witness_memory_writers : ∃ t, step (withV 0 7 { fetching 0x200 [0xF0, 0x55] with regI := 0xFFF }) = .next t ∧
    t.byteAt 0xFFF ≠ (fetching 0x200 [0xF0, 0x55]).byteAt 0xFFF := ⟨_, rfl, by decide⟩

theorem test_witness_fault_entry : (fetching 0x200 [0x00, 0xEE]).runState ≠ .faulted ∧
    ∃ t, step (fetching 0x200 [0x00, 0xEE]) = .next t ∧ t.runState = .faulted ∧ t.fault = some (.stackUnderflow 0x200) :=
  ⟨by decide, _, rfl, by decide, by decide⟩

/-- `StepKeepsTheInvariant`: a state with the invariant whose step answers a next state. -/
theorem test_witness_invariant : start.Inv ∧ ∃ t, step start = .next t :=
  ⟨{ configuration := by decide
     canonical := by decide
     programOnly := by decide
     phaseRange := by norm_num [start, State.init]
     accumulators := by norm_num [start, State.init]
     forcedLatch := by decide
     forcedMode := by decide
     autoMode := by decide
     faultRecord := by decide
     belowLimit := fun _ n h => (by cases h)
     cpuTurn := fun h => (by cases h)
     timerTurn := fun h => (by cases h)
     presentTurn := fun h => (by cases h)
     waitingAt := fun _ _ h => (by cases h) }, _, rfl⟩

/-- `ResetMeetsTheInvariant`, `ResetValues`: a configuration, with and without the diagnostic byte and stored flags. -/
theorem test_witness_reset : cfgValid testCfg = true ∧ testCfg.rom.length ≤ 0xDFF ∧
    cfgValid { testCfg with diagByte := some 1, rom := [0x12, 0x00], flagsInitial := some (Vector.replicate 16 7) } = true := by decide

theorem test_witness_roms : 3583 < ({ testCfg with rom := List.replicate 3584 0 } : Cfg).rom.length ∧
    ({ testCfg with rom := List.replicate 3583 0 } : Cfg).rom.length = 3583 := by
  simp only [List.length_replicate]; decide

end Sys2Proof.Tests
end

section
/-! SUPPORT. The font address instructions `Fx29` and `Fx30` (spec R203, R204, R309). -/

namespace Sys2Proof.Machine

open Laws (groupOf_xnn xOf_xnn nnOf_xnn)

/-! ### The words of group F -/

/-- A word whose group nibble is F is decoded by its low byte (R94, R100). -/
theorem decodeFirst_groupF (x : Nibble) (nn : Byte) :
    decodeFirst (0xF#4 ++ x ++ nn) = decodeGroupF (0xF#4 ++ x ++ nn) := by
  simp [decodeFirst, groupOf_xnn]

theorem decodeFirst_ldFont (x : Nibble) : decodeFirst (0xF#4 ++ x ++ 0x29#8) = some (.short (.ldFont x)) := by
  rw [decodeFirst_groupF]
  simp [decodeGroupF, nnOf_xnn, xOf_xnn]

theorem decodeFirst_ldBigFont (x : Nibble) : decodeFirst (0xF#4 ++ x ++ 0x30#8) = some (.short (.ldBigFont x)) := by
  rw [decodeFirst_groupF]
  simp [decodeGroupF, nnOf_xnn, xOf_xnn]

/-! ### The addresses of the glyphs -/

/-- Both fonts of a valid configuration lie in the reserved region (R8). -/
theorem fonts_in_reserved_of_cfgValid {c : Cfg} (h : cfgValid c = true) :
    c.fontBase + 80 ≤ 0x200 ∧ c.bigFontBase + 160 ≤ 0x200 := by
  simp only [cfgValid, Bool.and_eq_true, decide_eq_true_eq] at h
  tauto

theorem fontAddress_toNat {c : Cfg} (h : cfgValid c = true) (d : Nibble) :
    (fontAddress c d).toNat = c.fontBase + 5 * d.toNat := by
  obtain ⟨hsmall, -⟩ := fonts_in_reserved_of_cfgValid h
  exact (BitVec.toNat_ofNat _ _).trans (Nat.mod_eq_of_lt (by omega))

theorem bigFontAddress_toNat {c : Cfg} (h : cfgValid c = true) (d : Nibble) :
    (bigFontAddress c d).toNat = c.bigFontBase + 10 * d.toNat := by
  obtain ⟨-, hbig⟩ := fonts_in_reserved_of_cfgValid h
  exact (BitVec.toNat_ofNat _ _).trans (Nat.mod_eq_of_lt (by omega))

/-! ### What the two instructions answer -/

/-- A fault at the instruction's own address leaves `PC` as it is (R306). -/
theorem State.trap_eq (s : State) (f : FaultRecord) : s.trap f = .next (faultedBy s f) := rfl

/-- An instruction that loads `I`, leaves the mode `m` and advances by 2 changes nothing else. -/
theorem setsI_of_exec {i : Instr} {s : State} {m : Mode} {w : Word}
    (h : exec i s = .next (State.setI { s with mode := m } w).advance) : SetsI i s w.toNat m 2 :=
  ⟨_, h, rfl, rfl, rfl, rfl, State.byteAt_congr rfl rfl⟩

theorem exec_ldFont_of_digit {s : State} {x d : Nibble} (h : s.digit x = some d) :
    exec (.ldFont x) s = .next (s.setI (fontAddress s.cfg d)).advance := by
  simp only [exec, execLdFont, h]

theorem exec_ldFont_of_digit_none {s : State} {x : Nibble} (h : s.digit x = none) :
    exec (.ldFont x) s = .next (faultedBy s (.operandRange s.pc (s.getV x))) := by
  simp only [exec, execLdFont, h, State.trap_eq]

theorem exec_ldBigFont_of_digit {s : State} {x d : Nibble} (h : s.digit x = some d) :
    exec (.ldBigFont x) s =
      .next (State.setI { s with mode := modeAfterS s } (bigFontAddress s.cfg d)).advance := by
  simp only [exec, execLdBigFont, h, State.promote_superChip]

theorem exec_ldBigFont_of_digit_none {s : State} {x : Nibble} (h : s.digit x = none) :
    exec (.ldBigFont x) s =
      .next (faultedBy { s with mode := modeAfterS s } (.operandRange s.pc (s.getV x))) := by
  simp only [exec, execLdBigFont, h, State.promote_superChip, State.trap_eq]

theorem setsI_ldFont {s : State} {x d : Nibble} (hc : cfgValid s.cfg = true) (h : s.digit x = some d) :
    SetsI (.ldFont x) s (s.cfg.fontBase + 5 * d.toNat) s.mode 2 := by
  rw [← fontAddress_toNat hc d]
  exact setsI_of_exec (exec_ldFont_of_digit h)

theorem setsI_ldBigFont {s : State} {x d : Nibble} (hc : cfgValid s.cfg = true) (h : s.digit x = some d) :
    SetsI (.ldBigFont x) s (s.cfg.bigFontBase + 10 * d.toNat) (modeAfterS s) 2 := by
  rw [← bigFontAddress_toNat hc d]
  exact setsI_of_exec (exec_ldBigFont_of_digit h)

/-- A register value of at most 15 is a digit. -/
theorem State.exists_digit {s : State} {x : Nibble} (h : (s.getV x).toNat ≤ 15) :
    ∃ d, s.digit x = some d ∧ (s.getV x).toNat = d.toNat := by
  have hsome : s.digit x ≠ none := fun hnone => by
    have := State.digit_eq_none_iff.mp hnone
    omega
  obtain ⟨d, hd⟩ := Option.ne_none_iff_exists'.mp hsome
  exact ⟨d, hd, State.digit_eq_some_iff.mp hd⟩

/-- Settles O22: by whether `V[x]` is a digit; the constraints of R8 keep the glyph addresses below 0x200. -/
theorem fontAddresses : Obligations.FontAddresses := by
  intro x s
  refine ⟨decodeFirst_ldFont x, decodeFirst_ldBigFont x, fun hc hle => ?_, fun hgt => ?_⟩
  · obtain ⟨d, hd, hv⟩ := State.exists_digit hle
    obtain ⟨hsmall, hbig⟩ := fonts_in_reserved_of_cfgValid hc
    rw [hv] at hle ⊢
    exact ⟨setsI_ldFont hc hd, setsI_ldBigFont hc hd, by omega, by omega⟩
  · have hnone := State.digit_eq_none_iff.mpr hgt
    exact ⟨exec_ldFont_of_digit_none hnone, exec_ldBigFont_of_digit_none hnone⟩

end Sys2Proof.Machine
end

section
/-! SUPPORT. Every step keeps the invariant of a run (spec R42, R46, R47, R61, R128, R132, R253, R282, R285). Where the
turn is `top` the three turn clauses of `State.Inv` say nothing: so each move is shown to keep the invariant with the turn put back
to `top`, and to leave a turn that is due. -/

namespace Sys2Proof.Machine

/-! ### The invariant, its turn apart -/

/-- The turn names a unit that is due (R282), or the engine that a fault has stopped. -/
def State.TurnDue (s : State) : Prop :=
  match s.turn with
  | .top => True
  | .cpu => s.runState = .faulted ∨ s.cpuDue = true
  | .timer => s.timerDue = true
  | .present => s.presentDue = true

/-- The invariant is what it says with the turn at the top of an iteration, and that the turn is due. -/
theorem State.inv_iff (s : State) : s.Inv ↔ (s.setTurn .top).Inv ∧ s.TurnDue := by
  constructor
  · intro h
    refine ⟨{ h with cpuTurn := nofun, timerTurn := nofun, presentTurn := nofun }, ?_⟩
    unfold State.TurnDue
    split
    · trivial
    · next ht => exact h.cpuTurn ht
    · next ht => exact h.timerTurn ht
    · next ht => exact h.presentTurn ht
  · rintro ⟨h, hd⟩
    unfold State.TurnDue at hd
    exact { h with
      cpuTurn := fun ht => by rwa [ht] at hd
      timerTurn := fun ht => by rwa [ht] at hd
      presentTurn := fun ht => by rwa [ht] at hd }

/-- The turn may be handed to any unit that is due. -/
theorem State.inv_setTurn {s : State} {a : Turn} (h : (s.setTurn .top).Inv) (hd : (s.setTurn a).TurnDue) : (s.setTurn a).Inv :=
  (s.setTurn a).inv_iff.2 ⟨h, hd⟩

theorem State.turnDue_turnAfterTimer (s : State) : (s.setTurn s.turnAfterTimer).TurnDue := by
  unfold State.turnAfterTimer
  split
  · next h => exact h
  · trivial

theorem State.turnDue_turnAfterCpu (s : State) : (s.setTurn s.turnAfterCpu).TurnDue := by
  unfold State.turnAfterCpu
  split
  · next h => exact h
  · exact s.turnDue_turnAfterTimer

theorem State.turnDue_turnAfterTop (s : State) : (s.setTurn s.turnAfterTop).TurnDue := by
  unfold State.turnAfterTop
  split
  · next h => exact .inr h
  · exact s.turnDue_turnAfterCpu

/-! ### The moves of the scheduler, the timer and the presenter -/

/-- No fault is recorded while a run can move. -/
theorem State.Inv.fault_eq_none {s : State} (h : s.Inv) (hr : s.runState ≠ .faulted) : s.fault = none :=
  Option.not_isSome_iff_eq_none.1 fun hf => hr (h.faultRecord.1 hf)

/-- The samples add a time that is not negative to each accumulator (R45, R292). -/
theorem State.Inv.sample {s : State} {d : Seconds} (h : (s.setTurn .top).Inv) (hd : 0 ≤ d.value) :
    ((s.sample d).setTurn .top).Inv := by
  obtain ⟨hcpu, htimer, hpresent⟩ := h.accumulators
  refine { h with accumulators := ?_, cpuTurn := nofun, timerTurn := nofun, presentTurn := nofun }
  simp only [State.setTurn_accCpu, State.setTurn_accTimer, State.setTurn_accPresent] at hcpu htimer hpresent
  simp only [State.setTurn_accCpu, State.setTurn_accTimer, State.setTurn_accPresent, State.sample_accCpu,
    State.sample_accTimer, State.sample_accPresent, Seconds.value_add]
  exact ⟨by linarith, by linarith, by linarith⟩

/-- The top of an iteration keeps the invariant: cancellation ends the run, sampling adds time that has passed (R282, R286). -/
theorem State.Inv.topMove {s : State} (h : s.Inv) (hr : s.runState ≠ .faulted) (ht : s.turn = .top) : s.topMove.Inv := by
  unfold State.topMove
  split
  · have hf := h.fault_eq_none hr
    exact { h with
      faultRecord := by simp [hf]
      belowLimit := nofun
      cpuTurn := fun hc => nomatch ht.symm.trans hc
      timerTurn := fun hc => nomatch ht.symm.trans hc
      presentTurn := h.presentTurn }
  · have hin : (s.takeInput.setTurn .top).Inv := { (s.inv_iff.1 h).1 with }
    exact State.inv_setTurn (hin.sample s.nextElapsed_nonneg) (State.turnDue_turnAfterTop _)

/-- The timer's move keeps the invariant: it empties its accumulator and hands the turn on (R257, R282). -/
theorem State.Inv.timerMove {s : State} (h : s.Inv) : s.timerMove.Inv := by
  obtain ⟨htop, -⟩ := s.inv_iff.1 h
  obtain ⟨hcpu, -, hpresent⟩ := h.accumulators
  refine State.inv_setTurn ?_ (State.turnDue_turnAfterTimer _)
  split
  · exact { htop with
      accumulators := ⟨hcpu, Seconds.value_zero.ge, hpresent⟩
      cpuTurn := nofun
      timerTurn := nofun
      presentTurn := nofun }
  · exact htop

/-- Generating samples leaves the phase in its range (R42, R271). -/
theorem State.generate_phaseRange (s : State) (n : Nat) {phase : Surd} (h : 0 ≤ phase.value ∧ phase.value < 128) :
    0 ≤ (s.generate n phase).2.value ∧ (s.generate n phase).2.value < 128 := by
  induction n generalizing phase with
  | zero => exact h
  | succ n ih => exact ih (Surd.mod128_range _)

/-- The audio step moves the phase, within its range, and the audio port. -/
theorem State.audioStep_phaseRange {s : State} (h : 0 ≤ s.phase.value ∧ s.phase.value < 128) :
    0 ≤ s.audioStep.phase.value ∧ s.audioStep.phase.value < 128 := by
  unfold State.audioStep
  split
  · exact h
  · exact s.generate_phaseRange _ h

theorem State.presentMove_phaseRange {s : State} (h : 0 ≤ s.phase.value ∧ s.phase.value < 128) :
    0 ≤ s.presentMove.phase.value ∧ s.presentMove.phase.value < 128 := by
  change 0 ≤ s.presentTick.phase.value ∧ s.presentTick.phase.value < 128
  unfold State.presentTick
  split
  · exact State.audioStep_phaseRange (s := s.showFrame) h
  · exact h

/-- The presenter's move keeps the invariant: it empties its accumulator, and the phase stays in its range (R271, R287). -/
theorem State.Inv.presentMove {s : State} (h : s.Inv) : s.presentMove.Inv := by
  have hphase := State.presentMove_phaseRange h.phaseRange
  obtain ⟨hcpu, htimer, -⟩ := h.accumulators
  rw [State.presentMove_eq]
  exact { h with
    phaseRange := hphase
    accumulators := ⟨hcpu, htimer, Seconds.value_zero.ge⟩
    cpuTurn := nofun
    timerTurn := nofun
    presentTurn := nofun }

/-! ### The engine's moves -/

/-- Counting a tick keeps the tick limit: the run is no longer `Active` once it is reached (R285). -/
theorem State.Inv.countTick {u : State} (h : (u.setTurn .top).Inv) (hr : u.runState ≠ .faulted) :
    (u.countTick.setTurn .top).Inv := by
  have hf : u.fault = none := h.fault_eq_none hr
  unfold State.countTick
  dsimp only
  split
  · cases hl : u.cfg.limitAction <;>
      exact { h with
        faultRecord := by simp [hf]
        belowLimit := nofun
        cpuTurn := nofun
        timerTurn := nofun
        presentTurn := nofun }
  · next hne =>
    refine { h with belowLimit := fun ha n hn => ?_ }
    have hlt : u.cpuTicks < n := h.belowLimit ha n hn
    have hn' : u.cpuTicks + 1 ≠ n := fun he => hne (hn.trans (congrArg some he.symm))
    exact lt_of_le_of_ne hlt hn'

/-- What follows the engine's tick keeps the invariant: nothing after a fault, else the count and the next turn (R282). -/
theorem State.Inv.afterCpuTick {u : State} (h : (u.setTurn .top).Inv) (ht : u.turn = .cpu) : u.afterCpuTick.Inv := by
  unfold State.afterCpuTick
  split
  · next hr => exact u.inv_iff.2 ⟨h, by unfold State.TurnDue; rw [ht]; exact .inl hr⟩
  · next hr => exact State.inv_setTurn (h.countTick hr) (State.turnDue_turnAfterCpu _)

/-- The tick empties the engine's accumulator (R282). -/
theorem State.Inv.clearAccCpu {s : State} (h : s.Inv) : (s.clearAccCpu.setTurn .top).Inv := by
  obtain ⟨-, htimer, hpresent⟩ := h.accumulators
  exact { h with
    accumulators := ⟨Seconds.value_zero.ge, htimer, hpresent⟩
    cpuTurn := nofun
    timerTurn := nofun
    presentTurn := nofun }

/-- Everything a poll of the key wait can do: nothing, latch a key, or end the wait (R254). -/
theorem State.keyWaitPoll_cases (s : State) (r : Nibble) (k : Option Nibble) :
    s.keyWaitPoll r k = s ∨ (∃ j, s.keyWaitPoll r k = s.setCpuState (.awaitingKey r (some j))) ∨
    ∃ b, s.keyWaitPoll r k = ((s.setV r b).setCpuState .running).advance := by
  unfold State.keyWaitPoll
  cases k with
  | none =>
    cases s.leastHeld with
    | none => exact .inl rfl
    | some j => exact .inr (.inl ⟨j, rfl⟩)
  | some j =>
    dsimp only
    split
    · exact .inl rfl
    · exact .inr (.inr ⟨_, rfl⟩)

/-- A poll of the key wait keeps the invariant: a wait that goes on is for the same register, at the same `PC` (R254). -/
theorem State.Inv.keyWaitPoll {s : State} {r : Nibble} {k : Option Nibble} (h : (s.setTurn .top).Inv)
    (hs : s.cpuState = .awaitingKey r k) : ((s.keyWaitPoll r k).setTurn .top).Inv := by
  rcases s.keyWaitPoll_cases r k with e | ⟨j, e⟩ | ⟨b, e⟩ <;> rw [e]
  · exact h
  · have hwait : ∀ r' k', CpuState.awaitingKey r (some j) = .awaitingKey r' k' → s.fetch = .ok (.ldVxKey r') := by
      intro r' k' hc
      obtain ⟨rfl, -⟩ := CpuState.awaitingKey.inj hc
      exact h.waitingAt r k hs
    exact { h with waitingAt := hwait }
  · exact { h with waitingAt := nofun }

/-- A fault taken by a running engine keeps the invariant: it leaves a record and ends the run (R306). -/
theorem State.Inv.takeFault {s : State} {f : FaultRecord} (h : (s.setTurn .top).Inv) (hs : s.cpuState = .running) :
    ((s.takeFault s.pc f).setTurn .top).Inv :=
  { h with
    faultRecord := by simp
    belowLimit := nofun
    waitingAt := fun r k hc => absurd (hs.symm.trans hc) (by simp)
    cpuTurn := nofun
    timerTurn := nofun
    presentTurn := nofun }

/-! ### An instruction -/

/-- Promotion never reaches `Chip8` (R132). -/
theorem modeAfterS_ne_chip8 {s : State} (hf : s.modeForced = false) : modeAfterS s ≠ .chip8 := by
  cases hm : s.mode <;> simp [modeAfterS, hf, hm]

theorem modeAfterX_ne_chip8 {s : State} (hf : s.modeForced = false) : modeAfterX s ≠ .chip8 := by simp [modeAfterX, hf]

/-- Under forcing, no instruction changes the mode (R128). -/
theorem ExecFrame.mode_of_forced {i : Instr} {s t : State} (f : ExecFrame i s t) (hf : s.modeForced = true) : t.mode = s.mode := by
  simpa [modeAfterS, modeAfterX, hf] using f.modeAny

/-- Without forcing, no instruction makes the mode `Chip8` (R132). -/
theorem ExecFrame.mode_ne_chip8 {i : Instr} {s t : State} (f : ExecFrame i s t) (hf : s.modeForced = false)
    (hm : s.mode ≠ .chip8) : t.mode ≠ .chip8 := by
  rcases f.modeAny with e | e | e <;> rw [e]
  · exact hm
  · exact modeAfterS_ne_chip8 hf
  · exact modeAfterX_ne_chip8 hf

/-- An instruction keeps memory canonical, since it writes it by block stores only. -/
theorem ExecFrame.mem_wf {i : Instr} {s t : State} (f : ExecFrame i s t) (h : Memory.wf s.cfg s.mem) : Memory.wf s.cfg t.mem := by
  rcases f.mem with e | ⟨x, bs, e, -⟩ <;> rw [e]
  · exact h
  · exact State.storeBytes_cfg s s.base bs ▸ State.storeBytes_wf s.base bs h

/-- An instruction writes program space only (R61). -/
theorem ExecFrame.mem_inProgram {i : Instr} {s t : State} (f : ExecFrame i s t) (h : ∀ p ∈ s.mem, busAllows p.1 = true) :
    ∀ p ∈ t.mem, busAllows p.1 = true := by
  rcases f.mem with e | ⟨x, bs, e, -⟩ <;> rw [e]
  · exact h
  · exact State.storeBytes_inProgram s.base bs h

/-- A running engine that waits after an instruction was sent there by `Fx0A`, which moves neither `PC` nor memory (R253). -/
theorem ExecFrame.waitingAt {i : Instr} {s t : State} (f : ExecFrame i s t) (hs : s.cpuState = .running)
    (hi : s.fetch = .ok i) {r : Nibble} {k : Option Nibble} (hc : t.cpuState = .awaitingKey r k) :
    t.fetch = .ok (.ldVxKey r) := by
  rcases f.cpuState with e | ⟨x, rfl, rfl⟩
  · exact absurd (hs.symm.trans (e.symm.trans hc)) (by simp)
  · obtain ⟨rfl, -⟩ := CpuState.awaitingKey.inj hc
    exact hi

/-- Whatever instruction a running engine executes, the invariant is kept. -/
theorem State.Inv.exec {i : Instr} {s u : State} (h : (s.setTurn .top).Inv) (hr : s.runState ≠ .faulted)
    (hs : s.cpuState = .running) (hi : s.fetch = .ok i) (hu : exec i s = .next u) : (u.setTurn .top).Inv := by
  have f := exec_frame i s u hu
  obtain ⟨-, hforced, hphase, hcpu, htimer, hpresent, -, hticks, hcfg, -, -, -, -⟩ := f.same
  have hfault : s.fault = none := h.fault_eq_none hr
  exact {
    configuration := by rw [State.setTurn_cfg, hcfg]; exact h.configuration
    canonical := by rw [State.setTurn_cfg, hcfg]; exact f.mem_wf h.canonical
    programOnly := f.mem_inProgram h.programOnly
    phaseRange := by rw [State.setTurn_phase, hphase]; exact h.phaseRange
    accumulators := by
      rw [State.setTurn_accCpu, State.setTurn_accTimer, State.setTurn_accPresent, hcpu, htimer, hpresent]
      exact h.accumulators
    forcedLatch := by rw [State.setTurn_modeForced, State.setTurn_cfg, hforced, hcfg]; exact h.forcedLatch
    forcedMode := fun hm => by
      have hm' : s.modeForced = true := hforced.symm.trans hm
      rw [State.setTurn_mode, State.setTurn_cfg, f.mode_of_forced hm', hcfg]
      exact h.forcedMode hm'
    autoMode := fun hm => f.mode_ne_chip8 (hforced.symm.trans hm) (h.autoMode (hforced.symm.trans hm))
    faultRecord := by
      rcases f.ended with ⟨hrun, hrec⟩ | ⟨hrun, hrec, -⟩
      · simp [hrun, hrec, hfault, hr]
      · simp [hrun, hrec]
    belowLimit := fun ha n hn => by
      rcases f.ended with ⟨hrun, -⟩ | ⟨hrun, -⟩
      · rw [State.setTurn_cpuTicks, hticks]
        exact h.belowLimit (hrun.symm.trans ha) n (by rw [← hn, State.setTurn_cfg, State.setTurn_cfg, hcfg])
      · exact absurd (hrun.symm.trans ha) (by decide)
    cpuTurn := nofun
    timerTurn := nofun
    presentTurn := nofun
    waitingAt := fun _ _ hc => f.waitingAt hs hi hc }

/-- Settles O57: by the moves of a step; the engine's own moves all end in `afterCpuTick`, which a fault passes unchanged. -/
theorem stepKeepsTheInvariant : Obligations.StepKeepsTheInvariant := by
  intro s t h hstep
  have htop : (s.clearAccCpu.setTurn .top).Inv := h.clearAccCpu
  obtain ⟨hrun, hmove⟩ := step_cases hstep
  have hnf : s.runState ≠ .faulted := by rcases hrun with hr | hr <;> simp [hr]
  rcases hmove with ⟨ht, rfl⟩ | ⟨-, rfl⟩ | ⟨-, rfl⟩ | ⟨-, -, rfl⟩ | ⟨ht, -, r, k, hw, rfl⟩ | ⟨hf, f, -, rfl⟩ |
    ⟨i, u, ⟨⟨-, ht, hs⟩, hi⟩, hu, rfl⟩
  · exact h.topMove hnf ht
  · exact h.timerMove
  · exact h.presentMove
  · exact State.inv_setTurn (s.inv_iff.1 h).1 s.turnDue_turnAfterCpu
  · exact State.Inv.afterCpuTick (htop.keyWaitPoll hw) (by rw [State.keyWaitPoll_eq]; exact ht)
  · obtain ⟨-, ht, hs⟩ := hf
    exact State.Inv.afterCpuTick (u := s.clearAccCpu.takeFault s.pc f) (htop.takeFault hs) ht
  · obtain ⟨-, -, -, -, -, -, -, -, -, hturn, -⟩ := (exec_frame i _ u hu).same
    exact State.Inv.afterCpuTick (htop.exec hnf hs hi hu) (hturn.trans ht)

end Sys2Proof.Machine
end

section
/-! SUPPORT. The conditional skip (spec R150), and the two key skips `Ex9E` and `ExA1` (R159, R160). -/

namespace Sys2Proof.Machine

open Laws (groupOf_xnn xOf_xnn nnOf_xnn high_of_append low_of_append)

/-! ### The probe of the next word -/

/-- Two bytes are the marker of the long form when they are F0 and 00 (R90, R150). -/
theorem append_eq_longMarker_iff (hi lo : Byte) : (hi ++ lo : Word) = 0xF000 ↔ hi = 0xF0 ∧ lo = 0x00 := by
  constructor
  · intro h
    exact ⟨by rw [← high_of_append hi lo, h]; decide, by rw [← low_of_append hi lo, h]; decide⟩
  · rintro ⟨rfl, rfl⟩
    decide

/-- A word whose first byte is outside program space is refused there (R62). -/
theorem State.readWord_refused_first {s : State} {a : Nat} (h : busAllows a = false) : s.readWord a = .error a := by
  simp only [State.readWord, State.busRead_eq_none_iff.2 h]

/-- A word whose second byte alone is outside program space is refused at that byte (R62). -/
theorem State.readWord_refused_second {s : State} {a : Nat} (h0 : busAllows a = true) (h1 : busAllows (a + 1) = false) :
    s.readWord a = .error (a + 1) := by
  simp only [State.readWord, State.busRead_eq_some_iff.2 ⟨h0, rfl⟩, State.busRead_eq_none_iff.2 h1]

/-! ### The skip -/

theorem State.skipIf_of_readWord_ok {s : State} {w : Word} (h : s.readWord (s.pc.toNat + 2) = .ok w) :
    s.skipIf true = .next (s.setPc (s.pc + (if w = 0xF000 then 6 else 4))) := by
  simp only [State.skipIf, h, if_true]

theorem State.skipIf_of_readWord_error {s : State} {a : Nat} (h : s.readWord (s.pc.toNat + 2) = .error a) :
    s.skipIf true = .next (faultedBy s (.memoryAccess a .read)) := by
  simp only [State.skipIf, h, if_true, State.trap_eq]

/-- An instruction that is the skip on the flag of a condition skips on that condition (R150). -/
theorem skipsWhen_of_skipIf {i : Instr} {s : State} {b : Bool} {c : Prop} (h : exec i s = s.skipIf b) (hb : b = true ↔ c) :
    SkipsWhen i s c := by
  refine ⟨fun hn => ?_, fun hc h0 h1 => ?_, fun hc hout => ?_, fun hc hend => ?_⟩
  · rw [h, Bool.eq_false_iff.2 (mt hb.1 hn)]
    rfl
  all_goals rw [h, hb.2 hc]
  · have hword := State.readWord_ok (s := s) ((busAllows_iff _).2 ⟨h0, by omega⟩)
      ((busAllows_iff (s.pc.toNat + 2 + 1)).2 ⟨by omega, h1⟩)
    rw [State.skipIf_of_readWord_ok hword]
    simp only [append_eq_longMarker_iff]
    rfl
  · have hfirst : busAllows (s.pc.toNat + 2) = false := Bool.eq_false_iff.2 fun ht => by
      have := (busAllows_iff _).1 ht
      omega
    exact State.skipIf_of_readWord_error (State.readWord_refused_first hfirst)
  · rw [State.skipIf_of_readWord_error (State.readWord_refused_second (by rw [hend]; decide) (by rw [hend]; decide)), hend]

/-! ### The key skips -/

/-- A word whose group nibble is E is decoded by its low byte (R94, R99). -/
theorem decodeFirst_groupE (x : Nibble) (nn : Byte) :
    decodeFirst (0xE#4 ++ x ++ nn) = (decodeGroupE (0xE#4 ++ x ++ nn)).map .short := by
  simp [decodeFirst, groupOf_xnn]

theorem decodeFirst_skp (x : Nibble) : decodeFirst (0xE#4 ++ x ++ 0x9E#8) = some (.short (.skp x)) := by
  rw [decodeFirst_groupE]
  simp [decodeGroupE, nnOf_xnn, xOf_xnn]

theorem decodeFirst_sknp (x : Nibble) : decodeFirst (0xE#4 ++ x ++ 0xA1#8) = some (.short (.sknp x)) := by
  rw [decodeFirst_groupE]
  simp [decodeGroupE, nnOf_xnn, xOf_xnn]

theorem exec_skp_of_digit {s : State} {x k : Nibble} (h : s.digit x = some k) : exec (.skp x) s = s.skipIf (s.keyHeld k) := by
  simp only [exec, execSkp, h]

theorem exec_sknp_of_digit {s : State} {x k : Nibble} (h : s.digit x = some k) :
    exec (.sknp x) s = s.skipIf (!s.keyHeld k) := by
  simp only [exec, execSknp, h]

theorem exec_skp_of_digit_none {s : State} {x : Nibble} (h : s.digit x = none) :
    exec (.skp x) s = .next (faultedBy s (.operandRange s.pc (s.getV x))) := by
  simp only [exec, execSkp, h, State.trap_eq]

theorem exec_sknp_of_digit_none {s : State} {x : Nibble} (h : s.digit x = none) :
    exec (.sknp x) s = .next (faultedBy s (.operandRange s.pc (s.getV x))) := by
  simp only [exec, execSknp, h, State.trap_eq]

/-- A register whose value is a key's number names that key (R33). -/
theorem State.digit_eq_key {s : State} {x : Nibble} {k : Fin 16} (h : (s.getV x).toNat = k.val) :
    s.digit x = some (BitVec.ofFin k) :=
  State.digit_eq_some_iff.2 h

/-- Settles O13: by whether `V[x]` is a key number; where it is, each form is the skip on the level of that key. -/
theorem keySkips : Obligations.KeySkips := by
  intro x s
  refine ⟨decodeFirst_skp x, decodeFirst_sknp x, fun k hk => ?_, fun hgt => ?_⟩
  · have hdigit := State.digit_eq_key hk
    exact ⟨skipsWhen_of_skipIf (exec_skp_of_digit hdigit) Iff.rfl,
      skipsWhen_of_skipIf (exec_sknp_of_digit hdigit) (Bool.not_eq_true' _).to_iff⟩
  · have hnone := State.digit_eq_none_iff.2 hgt
    exact ⟨exec_skp_of_digit_none hnone, exec_sknp_of_digit_none hnone⟩

end Sys2Proof.Machine
end

section
/-! SUPPORT. Which moves and instructions write the special registers (spec R23, R27, R28, R33, R34, R37 to R44, R255, R258). -/

namespace Sys2Proof.Machine

/-! ### A move that runs no instruction -/

/-- What a move that runs no instruction leaves of the special registers, and which unit's move it is where it changes one. -/
structure MoveFrame (s t : State) : Prop where
  regI : t.regI = s.regI
  stack : t.stack = s.stack
  sp : t.sp = s.sp
  plane : ∀ p, t.plane p = s.plane p
  planesSel : t.planesSel = s.planesSel
  hires : t.hires = s.hires
  pattern : t.pattern = s.pattern
  pitch : t.pitch = s.pitch
  flags : t.flags = s.flags
  phase : t.phase = s.phase ∨ s.turn = .present
  cpuState : t.cpuState = s.cpuState ∨ s.runState = .active ∧ s.turn = .cpu ∧ ∃ r k, s.cpuState = .awaitingKey r k ∧
    (t.cpuState = .running ∨ ∃ j, t.cpuState = .awaitingKey r (some j))
  delay : t.delay = s.delay ∨ s.turn = .timer ∧ t.delay.toNat + 1 = s.delay.toNat
  sound : t.sound = s.sound ∨ s.turn = .timer ∧ t.sound.toNat + 1 = s.sound.toNat
  keys : t.keys = s.keys ∨ s.turn = .top

/-- A move that changes none of the special registers. -/
theorem MoveFrame.refl (s : State) : MoveFrame s s where
  regI := rfl
  stack := rfl
  sp := rfl
  plane _ := rfl
  planesSel := rfl
  hires := rfl
  pattern := rfl
  pitch := rfl
  flags := rfl
  phase := .inl rfl
  cpuState := .inl rfl
  delay := .inl rfl
  sound := .inl rfl
  keys := .inl rfl

/-- The top of an iteration may change the keys (R33, R282). -/
theorem moveFrame_topMove {s : State} (ht : s.turn = .top) : MoveFrame s s.topMove := by
  rw [State.topMove_eq]
  exact { MoveFrame.refl s with keys := .inr ht }

/-- Counting down stays at 0, and else takes off exactly 1 (R258). -/
theorem countDown_cases (b : Byte) : countDown b = b ∨ (countDown b).toNat + 1 = b.toNat := by
  unfold countDown
  split
  · next h => exact .inl h.symm
  · right
    bv_omega

/-- The timer's move may count the counters down (R257, R258). -/
theorem moveFrame_timerMove {s : State} (ht : s.turn = .timer) : MoveFrame s s.timerMove := by
  have hcount : (s.timerMove.delay = s.delay ∧ s.timerMove.sound = s.sound) ∨
      (s.timerMove.delay = countDown s.delay ∧ s.timerMove.sound = countDown s.sound) := by
    unfold State.timerMove
    cases s.active
    · exact .inl ⟨rfl, rfl⟩
    · exact .inr ⟨rfl, rfl⟩
  rw [State.timerMove_eq]
  rcases hcount with ⟨hd, hs⟩ | ⟨hd, hs⟩ <;> rw [hd, hs]
  · exact { MoveFrame.refl s with }
  · exact { MoveFrame.refl s with
      delay := (countDown_cases s.delay).imp_right fun h => ⟨ht, h⟩
      sound := (countDown_cases s.sound).imp_right fun h => ⟨ht, h⟩ }

/-- The presenter's move may change the phase (R287). -/
theorem moveFrame_presentMove {s : State} (ht : s.turn = .present) : MoveFrame s s.presentMove := by
  rw [State.presentMove_eq]
  exact { MoveFrame.refl s with phase := .inr ht }

/-- What follows a tick changes no special register (R282, R285). -/
theorem MoveFrame.afterCpuTick {s u : State} (h : MoveFrame s u) : MoveFrame s u.afterCpuTick := by
  rw [State.afterCpuTick_eq]
  exact { h with }

/-- A poll by a run that is `Active` may latch a key or end the wait (R254). -/
theorem moveFrame_keyWaitPoll {s : State} {r : Nibble} {k : Option Nibble} (hr : s.runState = .active) (ht : s.turn = .cpu)
    (hs : s.cpuState = .awaitingKey r k) : MoveFrame s (s.clearAccCpu.keyWaitPoll r k) := by
  rcases s.clearAccCpu.keyWaitPoll_cases r k with e | ⟨j, e⟩ | ⟨b, e⟩ <;> rw [e]
  · exact { MoveFrame.refl s with }
  · exact { MoveFrame.refl s with cpuState := .inr ⟨hr, ht, r, k, hs, .inr ⟨j, rfl⟩⟩ }
  · exact { MoveFrame.refl s with cpuState := .inr ⟨hr, ht, r, k, hs, .inl rfl⟩ }

/-! ### A step -/

/-- Every step runs an instruction that is framed as `ExecFrame` says, or is a move that runs none. -/
theorem step_runs_or_moveFrame {s t : State} (h : step s = .next t) :
    (∃ i u, s.Runs i ∧ ExecFrame i s.clearAccCpu u ∧ t = u.afterCpuTick) ∨ MoveFrame s t := by
  obtain ⟨-, hmove⟩ := step_cases h
  rcases hmove with ⟨ht, rfl⟩ | ⟨ht, rfl⟩ | ⟨ht, rfl⟩ | ⟨-, -, rfl⟩ | ⟨ht, hr, r, k, hs, rfl⟩ | ⟨-, f, -, rfl⟩ |
    ⟨i, u, hrun, hu, rfl⟩
  · exact .inr (moveFrame_topMove ht)
  · exact .inr (moveFrame_timerMove ht)
  · exact .inr (moveFrame_presentMove ht)
  · exact .inr { MoveFrame.refl s with }
  · exact .inr (moveFrame_keyWaitPoll hr ht hs).afterCpuTick
  · exact .inr { MoveFrame.refl s with }
  · exact .inl ⟨i, u, hrun, exec_frame i _ u hu, rfl⟩

/-- A plane that an instruction changed was selected, and the instruction is one that draws (R222). -/
theorem ExecFrame.plane_changed {i : Instr} {s t : State} (f : ExecFrame i s t) {p : Fin 2} (hne : t.plane p ≠ s.plane p) :
    s.selected p = true ∧ (i = .cls ∨ i = .scr ∨ i = .scl ∨
      ∃ x y n, i = .scd n ∨ i = .scu n ∨ i = .drwBig x y ∨ i = .drw x y n) := by
  obtain ⟨hunselected, hi⟩ := f.planes.resolve_left fun hall => hne (hall p)
  exact ⟨Bool.of_not_eq_false fun hp => hne (hunselected p hp), hi⟩

/-- Settles O54: a step that runs no instruction is framed by `MoveFrame`, one that runs `i` by `ExecFrame i`. -/
theorem specialRegistersHaveTheirWriters : Obligations.SpecialRegistersHaveTheirWriters := by
  intro s t h
  rcases step_runs_or_moveFrame h with ⟨i, u, hrun, f, rfl⟩ | f
  · obtain ⟨hkeys, -, hphase, -⟩ := f.same
    rw [State.afterCpuTick_eq]
    refine ⟨fun hne => ⟨i, hrun, f.regI.resolve_left hne⟩, fun hne => ?stack, fun hne => ?sp, fun p hne => ?plane,
      fun hne => ?planesSel, fun hne => ?hires, fun hne => ?pattern, fun hne => ?pitch, fun hne => ?flags, (absurd hphase ·),
      fun hne => .inl ?cpuState, fun hne => .inr ?delay, fun hne => .inr ?sound, (absurd hkeys ·)⟩
    case stack =>
      obtain ⟨a, rfl⟩ := f.stack.resolve_left hne
      exact ⟨a, hrun⟩
    case sp =>
      rcases f.sp.resolve_left hne with rfl | ⟨a, rfl⟩
      · exact .inl hrun
      · exact .inr ⟨a, hrun⟩
    case plane =>
      obtain ⟨hsel, hi⟩ := f.plane_changed hne
      exact ⟨hsel, i, hrun, hi⟩
    case planesSel =>
      obtain ⟨a, rfl⟩ := f.planesSel.resolve_left hne
      exact ⟨a, hrun⟩
    case hires =>
      rcases f.hires.resolve_left hne with rfl | rfl
      · exact .inl hrun
      · exact .inr hrun
    case pattern => exact f.pattern.resolve_left hne ▸ hrun
    case pitch =>
      obtain ⟨a, rfl⟩ := f.pitch.resolve_left hne
      exact ⟨a, hrun⟩
    case flags =>
      obtain ⟨a, rfl⟩ := f.flags.resolve_left hne
      exact ⟨a, hrun⟩
    case cpuState =>
      obtain ⟨x, rfl, rfl⟩ := f.cpuState.resolve_left hne
      exact ⟨x, hrun, rfl⟩
    case delay =>
      obtain ⟨x, rfl, hv⟩ := f.delay.resolve_left hne
      exact ⟨x, hrun, hv⟩
    case sound =>
      obtain ⟨x, rfl, hv⟩ := f.sound.resolve_left hne
      exact ⟨x, hrun, hv⟩
  · exact ⟨(absurd f.regI ·), (absurd f.stack ·), (absurd f.sp ·), fun p => (absurd (f.plane p) ·), (absurd f.planesSel ·),
      (absurd f.hires ·), (absurd f.pattern ·), (absurd f.pitch ·), (absurd f.flags ·), f.phase.resolve_left,
      fun hne => .inr (f.cpuState.resolve_left hne), fun hne => .inl (f.delay.resolve_left hne),
      fun hne => .inl (f.sound.resolve_left hne), f.keys.resolve_left⟩

end Sys2Proof.Machine
end

section
/-! SUPPORT. The decoder reads every encoded instruction back (spec R66, R90 to R101). -/

namespace Sys2Proof.Machine

open Laws (groupOf_nnn nnnOf_nnn groupOf_xnn xOf_xnn nnOf_xnn groupOf_xyn xOf_xyn yOf_xyn nOf_xyn wordBytes_append)

/-! ### The first word -/

/-- A word whose group nibble is 8 is decoded by its low nibble (R94, R98). -/
theorem decodeFirst_group8 (x y n : Nibble) :
    decodeFirst (0x8#4 ++ x ++ y ++ n) = (decodeGroup8 (0x8#4 ++ x ++ y ++ n)).map .short := by
  simp [decodeFirst, groupOf_xyn]

/-- The words of group 0 with fields, `00Cn` and `00Dn` (R95). -/
theorem decodeFirst_scrollVertical :
    ∀ n : Nibble, decodeFirst (0x00C#12 ++ n) = some (.short (.scd n)) ∧ decodeFirst (0x00D#12 ++ n) = some (.short (.scu n)) := by
  decide

/-- The first word of a well-formed instruction of one word decodes to that instruction: by the format of its word, the fields
taken out are those put in (R91, R92, R94). -/
theorem decodeFirst_firstWord {i : Instr} (hwf : i.wf = true) (hshort : i.secondWord = none) :
    decodeFirst i.firstWord = some (.short i) := by
  cases i
  case cls | ret | scr | scl | low | high | audio => decide
  case scd n => exact (decodeFirst_scrollVertical n).1
  case scu n => exact (decodeFirst_scrollVertical n).2
  case jp | call | ldI | jpV0 => simp [Instr.firstWord, decodeFirst, groupOf_nnn, nnnOf_nnn]
  case seImm | sneImm | ldImm | addImm | rnd => simp [Instr.firstWord, decodeFirst, groupOf_xnn, xOf_xnn, nnOf_xnn]
  case seReg | sneReg | drwBig => simp [Instr.firstWord, decodeFirst, groupOf_xyn, xOf_xyn, yOf_xyn, nOf_xyn]
  case drw x y n =>
    have hn : ¬n = 0#4 := bne_iff_ne.1 hwf
    simp [Instr.firstWord, decodeFirst, groupOf_xyn, xOf_xyn, yOf_xyn, nOf_xyn, hn]
  case ldReg | orReg | andReg | xorReg | addReg | subReg | shr | subn | shl =>
    rw [Instr.firstWord, decodeFirst_group8]
    simp [decodeGroup8, xOf_xyn, yOf_xyn, nOf_xyn]
  case skp x => exact decodeFirst_skp x
  case sknp x => exact decodeFirst_sknp x
  case ldILong => cases hshort
  case plane n =>
    have hn : n.toNat ≤ 3 := of_decide_eq_true hwf
    rw [Instr.firstWord, decodeFirst_groupF]
    simp [decodeGroupF, xOf_xnn, nnOf_xnn, hn]
  case ldFont x => exact decodeFirst_ldFont x
  case ldBigFont x => exact decodeFirst_ldBigFont x
  case ldVxDt | ldVxKey | ldDtVx | ldStVx | addI | bcd | pitch | storeRegs | loadRegs | saveFlags | loadFlags =>
    rw [Instr.firstWord, decodeFirst_groupF]
    simp [decodeGroupF, xOf_xnn, nnOf_xnn]

/-- Only the long form has a second word (R90). -/
theorem eq_ldILong_of_secondWord {i : Instr} {w : Word} (h : i.secondWord = some w) : i = .ldILong w := by
  cases i <;> cases h
  rfl

/-! ### The bytes -/

theorem decode_of_short {w : Word} {i : Instr} (h : decodeFirst w = some (.short i)) (rest : List Byte) :
    decode (wordBytes w ++ rest) = .ok (i, rest) := by
  simp only [wordBytes, List.cons_append, List.nil_append, decode, wordBytes_append, h]

theorem decode_of_long {w : Word} (h : decodeFirst w = some .long) (nnnn : Word) (rest : List Byte) :
    decode (wordBytes w ++ wordBytes nnnn ++ rest) = .ok (.ldILong nnnn, rest) := by
  simp only [wordBytes, List.cons_append, List.nil_append, decode, wordBytes_append, h]

/-- Settles O1: by whether the instruction has a second word, from what its first word decodes to. -/
theorem decodeOfEncode : Obligations.DecodeOfEncode := by
  intro i rest hwf
  cases hsecond : i.secondWord with
  | none =>
    rw [encode, hsecond]
    exact decode_of_short (decodeFirst_firstWord hwf hsecond) rest
  | some nnnn =>
    rw [eq_ldILong_of_secondWord hsecond]
    exact decode_of_long (w := 0xF000) (by decide) nnnn rest

end Sys2Proof.Machine
end

section
/-! SUPPORT. The bus reads what was written (spec R62, R63, R77), and a byte of memory has two writers, `Fx33` and `Fx55` (R61, R63,
R73, R205, R206, R211). -/

namespace Sys2Proof.Machine

/-! ### The bus -/

theorem busAllows_eq_false_iff (a : Nat) : busAllows a = false ↔ a ≤ 0x1FF ∨ 4096 ≤ a := by
  rw [Bool.eq_false_iff, Ne, busAllows_iff]
  omega

/-- Settles O7: in program space the write is a `poke`, which is read back and keeps the canonical form; elsewhere the bus
refuses. -/
theorem busReadsWhatWasWritten : Obligations.BusReadsWhatWasWritten := by
  refine fun s a b hwf => ⟨fun ⟨hlow, hhigh⟩ => ?_, fun hout => ?_⟩
  · have ha : busAllows a = true := (busAllows_iff a).2 ⟨hlow, by omega⟩
    exact ⟨s.poke a b, State.busWrite_eq_some_iff.2 ⟨ha, rfl⟩, State.busRead_eq_some_iff.2 ⟨ha, State.byteAt_poke_same a b hwf⟩,
      fun _ => State.byteAt_poke_other s b, rfl, State.poke_wf a b hwf⟩
  · have ha := (busAllows_eq_false_iff a).2 hout
    exact ⟨State.busWrite_eq_none_iff.2 ha, State.busRead_eq_none_iff.2 ha⟩

/-! ### The writers of memory -/

/-- A byte that a block store changed lies in program space and inside the block (R63, R72). -/
theorem State.storeBytes_changed {s : State} {a a' : Nat} {bs : List Byte}
    (hne : (s.storeBytes a bs).1.byteAt a' ≠ s.byteAt a') : busAllows a' = true ∧ a ≤ a' ∧ a' < a + bs.length := by
  refine ⟨Bool.of_not_eq_false fun hout => hne (s.storeBytes_refused a bs hout), ?_⟩
  by_contra houtside
  exact hne (s.storeBytes_other a bs (by omega))

/-- An instruction that changed a byte of memory is one of the two stores, and the byte is in program space and in its block at
`I` (R205, R206). -/
theorem ExecFrame.byte_changed {i : Instr} {s t : State} (f : ExecFrame i s t) {a : Nat} (hne : t.byteAt a ≠ s.byteAt a) :
    busAllows a = true ∧ s.base ≤ a ∧
      ∃ x, (i = .bcd x ∧ a < s.base + 3) ∨ (i = .storeRegs x ∧ a ≤ s.base + x.toNat) := by
  obtain ⟨-, -, -, -, -, -, -, -, hcfg, -⟩ := f.same
  obtain ⟨x, bs, hmem, hi⟩ := f.mem.resolve_left fun hmem => hne (State.byteAt_congr hmem hcfg a)
  rw [State.byteAt_congr hmem (hcfg.trans (s.storeBytes_cfg s.base bs).symm)] at hne
  obtain ⟨hallows, hlow, hhigh⟩ := State.storeBytes_changed hne
  exact ⟨hallows, hlow, x, hi.imp (fun ⟨hi, hlen⟩ => ⟨hi, by omega⟩) fun ⟨hi, hlen⟩ => ⟨hi, by omega⟩⟩

theorem State.afterCpuTick_byteAt (u : State) (a : Nat) : u.afterCpuTick.byteAt a = u.byteAt a := by
  rw [State.afterCpuTick_eq]
  rfl

/-- A step that changed a byte of memory ran an instruction that changed it: no other move touches memory. -/
theorem step_byte_changed {s t : State} (h : step s = .next t) {a : Nat} (hne : t.byteAt a ≠ s.byteAt a) :
    ∃ i u, s.Runs i ∧ exec i s.clearAccCpu = .next u ∧ u.byteAt a ≠ s.byteAt a := by
  obtain ⟨-, hmove⟩ := step_cases h
  rcases hmove with ⟨-, rfl⟩ | ⟨-, rfl⟩ | ⟨-, rfl⟩ | ⟨-, -, rfl⟩ | ⟨-, -, r, k, -, rfl⟩ | ⟨-, f, -, rfl⟩ | ⟨i, u, hrun, hu, rfl⟩
  · exact absurd (by rw [State.topMove_eq]; rfl) hne
  · exact absurd (by rw [State.timerMove_eq]; rfl) hne
  · exact absurd (by rw [State.presentMove_eq]; rfl) hne
  · exact absurd rfl hne
  · exact absurd (by rw [State.afterCpuTick_byteAt, State.keyWaitPoll_eq]; rfl) hne
  · exact absurd rfl hne
  · exact ⟨i, u, hrun, hu, by rwa [State.afterCpuTick_byteAt] at hne⟩

/-- Settles O55: the step ran an instruction that changed the byte, and the frame of every instruction names the two that can. -/
theorem memoryHasTwoWriters : Obligations.MemoryHasTwoWriters := by
  intro s t a h hne
  obtain ⟨i, u, hrun, hu, hne⟩ := step_byte_changed h hne
  obtain ⟨hallows, hlow, x, hi⟩ := (exec_frame i _ u hu).byte_changed hne
  obtain ⟨h0, h1⟩ := (busAllows_iff a).1 hallows
  refine ⟨h0, h1, hlow, x, hi.imp ?_ ?_⟩
  · rintro ⟨rfl, ha⟩
    exact ⟨hrun, ha⟩
  · rintro ⟨rfl, ha⟩
    exact ⟨hrun, ha⟩

end Sys2Proof.Machine
end

section
/-! SUPPORT. The decoder agrees with the walk down the opcode map (spec R92, R94 to R101). -/

namespace Sys2Proof.Machine

/-! ### A word and its fields (R91, R92) -/

theorem eq_append_xnn (w : Word) : w = groupOf w ++ xOf w ++ nnOf w := by
  unfold groupOf xOf nnOf; ext i hi; simp; grind

theorem eq_append_xyn (w : Word) : w = groupOf w ++ xOf w ++ yOf w ++ nOf w := by
  unfold groupOf xOf yOf nOf; ext i hi; simp; grind

theorem word_eq_iff_xnn (w v : Word) : w = v ↔ groupOf w = groupOf v ∧ xOf w = xOf v ∧ nnOf w = nnOf v := by
  refine ⟨fun h => h ▸ ⟨rfl, rfl, rfl⟩, fun ⟨hg, hx, hnn⟩ => ?_⟩
  rw [eq_append_xnn w, eq_append_xnn v, hg, hx, hnn]

theorem word_eq_iff_xyn (w v : Word) :
    w = v ↔ groupOf w = groupOf v ∧ xOf w = xOf v ∧ yOf w = yOf v ∧ nOf w = nOf v := by
  refine ⟨fun h => h ▸ ⟨rfl, rfl, rfl, rfl⟩, fun ⟨hg, hx, hy, hn⟩ => ?_⟩
  rw [eq_append_xyn w, eq_append_xyn v, hg, hx, hy, hn]

/-! The fields of a masked word are the masked fields, and the fields of a literal are literals: so `(op AND mask) = match` says
which fields of `op` are fixed, and to what. -/

@[simp] theorem groupOf_and (w m : Word) : groupOf (w &&& m) = groupOf w &&& groupOf m := BitVec.extractLsb'_and
@[simp] theorem xOf_and (w m : Word) : xOf (w &&& m) = xOf w &&& xOf m := BitVec.extractLsb'_and
@[simp] theorem yOf_and (w m : Word) : yOf (w &&& m) = yOf w &&& yOf m := BitVec.extractLsb'_and
@[simp] theorem nOf_and (w m : Word) : nOf (w &&& m) = nOf w &&& nOf m := BitVec.extractLsb'_and
@[simp] theorem nnOf_and (w m : Word) : nnOf (w &&& m) = nnOf w &&& nnOf m := BitVec.extractLsb'_and

/-- A field of `len` bits from bit `start` of a literal. -/
theorem extractLsb'_ofNat_word (start len k : Nat) (h : start + len ≤ 16) :
    (BitVec.ofNat 16 k).extractLsb' start len = BitVec.ofNat len (k / 2 ^ start) := by
  apply BitVec.eq_of_toNat_eq
  rw [BitVec.extractLsb'_toNat, BitVec.toNat_ofNat, BitVec.toNat_ofNat, Nat.shiftRight_eq_div_pow]
  rw [show 2 ^ 16 = 2 ^ start * 2 ^ (16 - start) by rw [← pow_add]; congr 1; omega, Nat.mod_mul_right_div_self]
  exact Nat.mod_mod_of_dvd _ (pow_dvd_pow 2 (by omega))

@[simp] theorem groupOf_ofNat (k : Nat) : groupOf (BitVec.ofNat 16 k) = BitVec.ofNat 4 (k / 2 ^ 12) :=
  extractLsb'_ofNat_word 12 4 k (by decide)
@[simp] theorem xOf_ofNat (k : Nat) : xOf (BitVec.ofNat 16 k) = BitVec.ofNat 4 (k / 2 ^ 8) :=
  extractLsb'_ofNat_word 8 4 k (by decide)
@[simp] theorem yOf_ofNat (k : Nat) : yOf (BitVec.ofNat 16 k) = BitVec.ofNat 4 (k / 2 ^ 4) :=
  extractLsb'_ofNat_word 4 4 k (by decide)
@[simp] theorem nOf_ofNat (k : Nat) : nOf (BitVec.ofNat 16 k) = BitVec.ofNat 4 (k / 2 ^ 0) :=
  extractLsb'_ofNat_word 0 4 k (by decide)
@[simp] theorem nnOf_ofNat (k : Nat) : nnOf (BitVec.ofNat 16 k) = BitVec.ofNat 8 (k / 2 ^ 0) :=
  extractLsb'_ofNat_word 0 8 k (by decide)

@[simp] theorem nibble_and_fullMask (a : Nibble) : a &&& 15#4 = a := BitVec.and_allOnes
@[simp] theorem byte_and_fullMask (b : Byte) : b &&& 255#8 = b := BitVec.and_allOnes

/-! ### The walk, group by group

Every mask of the map holds the whole group nibble, so only the rows of the word's own group can match (R94). Where the decoder
of a group is one match on a low field, the walk is brought to that group's rows once, before the match is split. -/

variable {op : Word}

/-- A group whose words all belong to one row. -/
theorem walkRows_wholeGroup {g : Nibble} {k : Nat}
    (hgk : (g, k) ∈ [(0x1, 8), (0x2, 9), (0x3, 10), (0x4, 11), (0x6, 13), (0x7, 14), (0xA, 25), (0xB, 26), (0xC, 27)])
    (h : groupOf op = g) : walkRows op = some k := by
  simp only [List.mem_cons, List.not_mem_nil, or_false, Prod.mk.injEq] at hgk
  rcases hgk with ⟨rfl, rfl⟩ | ⟨rfl, rfl⟩ | ⟨rfl, rfl⟩ | ⟨rfl, rfl⟩ | ⟨rfl, rfl⟩ | ⟨rfl, rfl⟩ | ⟨rfl, rfl⟩ | ⟨rfl, rfl⟩ | ⟨rfl, rfl⟩ <;>
    simp [walkRows, opcodeMap, List.findIdx?_cons, word_eq_iff_xyn, h]

theorem walkRows_group5 (h : groupOf op = 0x5) : walkRows op = if nOf op = 0x0 then some 12 else none := by
  by_cases hn : nOf op = 0x0 <;> simp [walkRows, opcodeMap, List.findIdx?_cons, word_eq_iff_xyn, h, hn]

theorem walkRows_group9 (h : groupOf op = 0x9) : walkRows op = if nOf op = 0x0 then some 24 else none := by
  by_cases hn : nOf op = 0x0 <;> simp [walkRows, opcodeMap, List.findIdx?_cons, word_eq_iff_xyn, h, hn]

/-- The one overlap of the map: `Dxy0` also matches the row of `Dxyn`, which stands below its own (R94). -/
theorem walkRows_groupD (h : groupOf op = 0xD) : walkRows op = if nOf op = 0x0 then some 28 else some 29 := by
  by_cases hn : nOf op = 0x0#4 <;> simp [walkRows, opcodeMap, List.findIdx?_cons, word_eq_iff_xyn, h, hn]

theorem walkRows_group0 (h : groupOf op = 0x0) : walkRows op = (decodeGroup0 op).map Instr.row := by
  simp [walkRows, opcodeMap, List.findIdx?_cons, word_eq_iff_xyn, h, decodeGroup0]
  split_ifs <;> rfl

theorem walkRows_group8 (h : groupOf op = 0x8) : walkRows op = (decodeGroup8 op).map Instr.row := by
  generalize hwalk : walkRows op = r
  simp [walkRows, opcodeMap, List.findIdx?_cons, word_eq_iff_xyn, h] at hwalk
  unfold decodeGroup8
  split <;> subst hwalk <;> simp_all [BitVec.toNat_eq, Instr.row]

theorem walkRows_groupE (h : groupOf op = 0xE) : walkRows op = (decodeGroupE op).map Instr.row := by
  generalize hwalk : walkRows op = r
  simp [walkRows, opcodeMap, List.findIdx?_cons, word_eq_iff_xnn, h] at hwalk
  unfold decodeGroupE
  split <;> subst hwalk <;> simp_all [BitVec.toNat_eq, Instr.row]

/-- The row of what a first word says; the long form is row 33 of the map, counted from 1 (R96). -/
def rowOf : Decoded → Nat
  | .short i => i.row
  | .long => 32

theorem walkRows_groupF (h : groupOf op = 0xF) : walkRows op = (decodeGroupF op).map rowOf := by
  generalize hwalk : walkRows op = r
  simp [walkRows, opcodeMap, List.findIdx?_cons, word_eq_iff_xnn, h] at hwalk
  unfold decodeGroupF
  split <;> subst hwalk <;> simp_all [BitVec.toNat_eq, rowOf, Instr.row]

theorem walkRows_eq_row_decodeFirst (op : Word) : walkRows op = (decodeFirst op).map rowOf := by
  unfold decodeFirst
  split
  next h => rw [Option.map_map]; exact walkRows_group0 (BitVec.eq_of_toNat_eq h)
  next h => exact walkRows_wholeGroup (g := 0x1) (k := 8) (by decide) (BitVec.eq_of_toNat_eq h)
  next h => exact walkRows_wholeGroup (g := 0x2) (k := 9) (by decide) (BitVec.eq_of_toNat_eq h)
  next h => exact walkRows_wholeGroup (g := 0x3) (k := 10) (by decide) (BitVec.eq_of_toNat_eq h)
  next h => exact walkRows_wholeGroup (g := 0x4) (k := 11) (by decide) (BitVec.eq_of_toNat_eq h)
  next h => rw [walkRows_group5 (BitVec.eq_of_toNat_eq h)]; split_ifs <;> rfl
  next h => exact walkRows_wholeGroup (g := 0x6) (k := 13) (by decide) (BitVec.eq_of_toNat_eq h)
  next h => exact walkRows_wholeGroup (g := 0x7) (k := 14) (by decide) (BitVec.eq_of_toNat_eq h)
  next h => rw [Option.map_map]; exact walkRows_group8 (BitVec.eq_of_toNat_eq h)
  next h => rw [walkRows_group9 (BitVec.eq_of_toNat_eq h)]; split_ifs <;> rfl
  next h => exact walkRows_wholeGroup (g := 0xA) (k := 25) (by decide) (BitVec.eq_of_toNat_eq h)
  next h => exact walkRows_wholeGroup (g := 0xB) (k := 26) (by decide) (BitVec.eq_of_toNat_eq h)
  next h => exact walkRows_wholeGroup (g := 0xC) (k := 27) (by decide) (BitVec.eq_of_toNat_eq h)
  next h => rw [walkRows_groupD (BitVec.eq_of_toNat_eq h)]; split_ifs <;> rfl
  next h => rw [Option.map_map]; exact walkRows_groupE (BitVec.eq_of_toNat_eq h)
  next =>
    have hlt : (groupOf op).toNat < 16 := (groupOf op).isLt
    exact walkRows_groupF (BitVec.eq_of_toNat_eq (by grind))

/-- Settles O3: group by group, the first row that matches is the one the decoder names. -/
theorem decoderIsTheRowWalk : Obligations.DecoderIsTheRowWalk := by
  intro op
  rw [walkRows_eq_row_decodeFirst op]
  cases decodeFirst op with
  | none => rfl
  | some d => cases d <;> rfl

end Sys2Proof.Machine
end

section
/-! SUPPORT. `00FE`, `00FF` and `Fn01` write their register and promote (spec R101, R229, R230, R235). -/

namespace Sys2Proof.Machine

open Laws (xOf_xnn nnOf_xnn)

theorem exec_low (s : State) : exec .low s = .next (State.setHires { s with mode := modeAfterS s } false).advance := by
  simp only [exec, execLow, State.promote_superChip]

theorem exec_high (s : State) : exec .high s = .next (State.setHires { s with mode := modeAfterS s } true).advance := by
  simp only [exec, execHigh, State.promote_superChip]

theorem exec_plane_of_le {n : Nibble} (hn : n.toNat ≤ 3) (s : State) :
    exec (.plane n) s = .next (State.setPlanesSel { s with mode := modeAfterX s } (n.setWidth 2)).advance := by
  simp only [exec, execPlane, hn, if_true, State.promote_xoChip]

/-- A plane mask above 3 is no instruction (R101). -/
theorem decodeFirst_plane_of_gt {n : Nibble} (hn : 3 < n.toNat) : decodeFirst (0xF#4 ++ n ++ 0x01#8) = none := by
  rw [decodeFirst_groupF]
  simp [decodeGroupF, xOf_xnn, nnOf_xnn, hn]

/-- Settles O30: each form writes its register in the promoted state and advances; the mask of `Fn01` is kept whole because it is at
most 3. -/
theorem resolutionAndPlanes : Obligations.ResolutionAndPlanes := by
  intro s
  refine ⟨by decide, ⟨_, exec_low s, rfl, rfl, rfl, rfl, State.byteAt_congr rfl rfl⟩,
    by decide, ⟨_, exec_high s, rfl, rfl, rfl, rfl, State.byteAt_congr rfl rfl⟩, fun n => ⟨fun hn => ?_, decodeFirst_plane_of_gt⟩⟩
  have hmask : (n.setWidth 2).toNat = n.toNat := by
    rw [BitVec.toNat_setWidth, Nat.mod_eq_of_lt (by omega)]
  exact ⟨decodeFirst_firstWord (i := .plane n) (decide_eq_true hn) rfl,
    _, exec_plane_of_le hn s, hmask, rfl, rfl, rfl, State.byteAt_congr rfl rfl⟩

end Sys2Proof.Machine
end

section
/-! SUPPORT. The engine's place in an iteration: the fetch and its faults, the instruction it runs (spec R120 to R122, R306), and the
mode over a step (spec R123, R128). -/

namespace Sys2Proof.Machine

open Laws (wordBytes_append)

/-! ### The fetch (R121, R122, R127) -/

/-- A refused byte of the word at `PC` is the fetch's fault. -/
theorem State.fetch_of_readWord_error {s : State} {a : Nat} (h : s.readWord s.pc.toNat = .error a) :
    s.fetch = .error (.memoryAccess a .fetch) := by
  simp only [State.fetch, h]

theorem State.fetch_of_short {s : State} {op : Word} {i : Instr} (h : s.readWord s.pc.toNat = .ok op)
    (hd : decodeFirst op = some (.short i)) : s.fetch = .ok i := by
  simp only [State.fetch, h, hd]

theorem State.fetch_of_long {s : State} {w : Word} (h : s.readWord s.pc.toNat = .ok 0xF000)
    (h2 : s.readWord (s.pc.toNat + 2) = .ok w) : s.fetch = .ok (.ldILong w) := by
  have hd : decodeFirst 0xF000 = some .long := by decide
  simp only [State.fetch, h, hd, h2]

/-- A refused byte of the long form's second word is the fetch's fault too. -/
theorem State.fetch_of_long_error {s : State} {a : Nat} (h : s.readWord s.pc.toNat = .ok 0xF000)
    (h2 : s.readWord (s.pc.toNat + 2) = .error a) : s.fetch = .error (.memoryAccess a .fetch) := by
  have hd : decodeFirst 0xF000 = some .long := by decide
  simp only [State.fetch, h, hd, h2]

/-- A word among the bytes of the instruction at `PC` is read whole, from the place where it stands (R66). -/
theorem State.Holds.readWord {s : State} {i : Instr} (h : s.Holds i) {pre post : List Byte} {w : Word}
    (he : encode i = pre ++ (wordBytes w ++ post)) : s.readWord (s.pc.toNat + pre.length) = .ok w := by
  obtain ⟨hin, hbytes⟩ := h
  have h0 : pre.length < (encode i).length := by simp [he, wordBytes]
  have h1 : pre.length + 1 < (encode i).length := by simp [he, wordBytes]
  have hhi : s.byteAt (s.pc.toNat + pre.length) = w.extractLsb' 8 8 := by simp [hbytes _ h0, he, wordBytes]
  have hlo : s.byteAt (s.pc.toNat + pre.length + 1) = w.extractLsb' 0 8 := by
    rw [Nat.add_assoc, hbytes _ h1]
    simp [he, wordBytes]
  rw [State.readWord_ok ((busAllows_iff _).2 (hin _ h0)) ((busAllows_iff _).2 (hin _ h1)), hhi, hlo, wordBytes_append]

/-- The fetch yields the well-formed instruction whose bytes stand at `PC`. -/
theorem State.Holds.fetch {s : State} {i : Instr} (h : s.Holds i) (hwf : i.wf = true) : s.fetch = .ok i := by
  cases hsecond : i.secondWord with
  | none =>
    have he : encode i = [] ++ (wordBytes i.firstWord ++ []) := by simp [encode, hsecond]
    exact State.fetch_of_short (h.readWord he) (decodeFirst_firstWord hwf hsecond)
  | some w =>
    obtain rfl := eq_ldILong_of_secondWord hsecond
    exact State.fetch_of_long (h.readWord (pre := []) (post := wordBytes w) rfl)
      (h.readWord (pre := wordBytes 0xF000) (post := []) rfl)

/-! ### The step that fetches (R120, R282, R306) -/

/-- The engine's step is its tick on the state with `acc_cpu` cleared, and what follows a tick. -/
theorem step_of_cpuTick {s t : State} (hrun : s.runState = .active) (hturn : s.turn = .cpu)
    (ht : cpuTick s.clearAccCpu = .next t) : step s = .next t.afterCpuTick := by
  simp only [step, hrun, hturn, cpuMove, State.active, beq_self_eq_true, if_true, ht]

/-- Nothing follows a tick that faulted (R282). -/
theorem State.afterCpuTick_of_faulted {t : State} (h : t.runState = .faulted) : t.afterCpuTick = t := if_pos h

/-- The step of an engine about to fetch runs what it fetches. -/
theorem step_of_runs {s t : State} {i : Instr} (h : s.Runs i) (ht : exec i s.clearAccCpu = .next t) :
    step s = .next t.afterCpuTick := by
  obtain ⟨⟨hrun, hturn, hcpu⟩, hfetch⟩ := h
  have hfetch' : s.clearAccCpu.fetch = .ok i := hfetch
  exact step_of_cpuTick hrun hturn (by simp only [cpuTick, State.clearAccCpu_cpuState, hcpu, hfetch', ht])

/-- The step of an engine about to fetch takes the fetch's fault, with `PC` where it stood. -/
theorem step_of_fetch_error {s : State} {f : FaultRecord} (h : s.Fetching) (hf : s.fetch = .error f) :
    step s = .next (faultedBy s.clearAccCpu f) := by
  obtain ⟨hrun, hturn, hcpu⟩ := h
  have hf' : s.clearAccCpu.fetch = .error f := hf
  have htick : cpuTick s.clearAccCpu = .next (faultedBy s.clearAccCpu f) := by
    simp only [cpuTick, State.clearAccCpu_cpuState, hcpu, hf', State.trap_eq]
  rw [step_of_cpuTick hrun hturn htick, State.afterCpuTick_of_faulted rfl]

/-- Settles O42: the fetch yields the instruction whose bytes stand at `PC`, and the step runs what was fetched. -/
theorem stepRunsTheDecodedInstruction : Obligations.StepRunsTheDecodedInstruction := by
  intro i s hwf hfetching hholds
  obtain ⟨t, ht⟩ := exec_next i s.clearAccCpu
  exact ⟨t, ht, step_of_runs ⟨hfetching, hholds.fetch hwf⟩ ht⟩

/-- Settles O44: by the first byte of the fetch that the bus refuses: the one at `PC`, the second of the word at `PC`, or one of the
long form's second word. -/
theorem fetchFaults : Obligations.FetchFaults := by
  refine fun s hs => ⟨fun hout => ?outside, fun hend => ?lastByte, fun hpc hhi hlo => ?longForm⟩
  case outside =>
    have hfirst := (busAllows_eq_false_iff s.pc.toNat).2 (by omega)
    exact step_of_fetch_error hs (State.fetch_of_readWord_error (State.readWord_refused_first hfirst))
  case lastByte =>
    have hword : s.readWord s.pc.toNat = .error 0x1000 := by
      rw [hend]
      exact State.readWord_refused_second (by decide) (by decide)
    exact step_of_fetch_error hs (State.fetch_of_readWord_error hword)
  case longForm =>
    have hmarker : s.readWord s.pc.toNat = .ok 0xF000 := by
      rw [State.readWord_ok ((busAllows_iff _).2 (by omega)) ((busAllows_iff _).2 (by omega)), hhi, hlo]
      rfl
    have hsecond : s.readWord (s.pc.toNat + 2) = .error 0x1000 := by
      rcases hpc with hpc | hpc <;> rw [hpc]
      · exact State.readWord_refused_second (by decide) (by decide)
      · exact State.readWord_refused_first (by decide)
    exact step_of_fetch_error hs (State.fetch_of_long_error hmarker hsecond)

/-! ### The mode (R35, R123, R128) -/

/-- Promotion by a row's class never lowers the mode. -/
theorem modeRank_modeAfter (g : Gen) (s : State) : modeRank s.mode ≤ modeRank (modeAfter g s) := by
  have hmode : promoteMode s.modeForced g s.mode = modeAfter g s := congrArg State.mode (s.promote_eq g)
  exact hmode ▸ modeRank_promoteMode s.modeForced g s.mode

/-- No instruction lowers the mode, well formed or not. -/
theorem ExecFrame.modeRank_le {i : Instr} {s t : State} (f : ExecFrame i s t) : modeRank s.mode ≤ modeRank t.mode := by
  rcases f.modeAny with e | e | e <;> rw [e]
  · exact modeRank_modeAfter .superChip s
  · exact modeRank_modeAfter .xoChip s

/-- The mode, its latch and the configuration are as before. -/
structure SameMode (s t : State) : Prop where
  mode : t.mode = s.mode
  modeForced : t.modeForced = s.modeForced
  cfg : t.cfg = s.cfg

theorem State.afterCpuTick_sameMode (u : State) : SameMode u u.afterCpuTick := by
  rw [State.afterCpuTick_eq]
  exact ⟨rfl, rfl, rfl⟩

theorem State.keyWaitPoll_sameMode (s : State) (r : Nibble) (k : Option Nibble) : SameMode s (s.keyWaitPoll r k) := by
  rw [State.keyWaitPoll_eq]
  exact ⟨rfl, rfl, rfl⟩

theorem SameMode.trans {s t u : State} (h : SameMode s t) (h' : SameMode t u) : SameMode s u :=
  ⟨h'.mode.trans h.mode, h'.modeForced.trans h.modeForced, h'.cfg.trans h.cfg⟩

/-- Only an instruction that ran can have changed the mode. -/
theorem step_runs_or_sameMode {s t : State} (h : step s = .next t) :
    (∃ i u, s.Runs i ∧ ExecFrame i s.clearAccCpu u ∧ SameMode u t) ∨ SameMode s t := by
  obtain ⟨-, hmove⟩ := step_cases h
  rcases hmove with ⟨-, rfl⟩ | ⟨-, rfl⟩ | ⟨-, rfl⟩ | ⟨-, -, rfl⟩ | ⟨-, -, r, k, -, rfl⟩ | ⟨-, f, -, rfl⟩ |
    ⟨i, u, hrun, hu, rfl⟩
  · exact .inr (by rw [State.topMove_eq]; exact ⟨rfl, rfl, rfl⟩)
  · exact .inr (by rw [State.timerMove_eq]; exact ⟨rfl, rfl, rfl⟩)
  · exact .inr (by rw [State.presentMove_eq]; exact ⟨rfl, rfl, rfl⟩)
  · exact .inr ⟨rfl, rfl, rfl⟩
  · obtain ⟨hmode, hforced, hcfg⟩ := (s.clearAccCpu.keyWaitPoll_sameMode r k).trans (State.afterCpuTick_sameMode _)
    exact .inr ⟨hmode, hforced, hcfg⟩
  · exact .inr ⟨rfl, rfl, rfl⟩
  · exact .inl ⟨i, u, hrun, exec_frame i _ u hu, u.afterCpuTick_sameMode⟩

/-- Settles O53: an instruction's frame names the mode after its class; a step's mode is that of the instruction it ran, or the one
before. -/
theorem promotionFollowsTheClass : Obligations.PromotionFollowsTheClass := by
  refine ⟨fun i s hwf => ?instruction, fun s t h => ?step⟩
  case instruction =>
    obtain ⟨t, ht⟩ := exec_next i s
    have f := exec_frame i s t ht
    obtain ⟨-, hforced, -, -, -, -, -, -, hcfg, -⟩ := f.same
    exact ⟨t, ht, f.mode hwf, hforced, hcfg⟩
  case step =>
    rcases step_runs_or_sameMode h with ⟨i, u, -, f, hmode, hforced, hcfg⟩ | ⟨hmode, hforced, hcfg⟩
    · obtain ⟨-, hforced', -, -, -, -, -, -, hcfg', -⟩ := f.same
      rw [hmode, hforced, hcfg]
      exact ⟨f.modeRank_le, f.mode_of_forced, hforced', hcfg'⟩
    · rw [hmode]
      exact ⟨le_rfl, fun _ => rfl, hforced, hcfg⟩

end Sys2Proof.Machine
end

section
/-! SUPPORT. The register skips, the jumps, the call and the return (spec R151 to R158). -/

namespace Sys2Proof.Machine

/-! ### The register skips (R155 to R158) -/

/-- Settles O12: each form is the skip on the flag of its own condition. -/
theorem conditionalSkips : Obligations.ConditionalSkips := by
  intro x y nn s
  exact ⟨decodeFirst_firstWord (i := .seImm x nn) rfl rfl, skipsWhen_of_skipIf rfl beq_iff_eq,
    decodeFirst_firstWord (i := .sneImm x nn) rfl rfl, skipsWhen_of_skipIf rfl bne_iff_ne,
    decodeFirst_firstWord (i := .seReg x y) rfl rfl, skipsWhen_of_skipIf rfl beq_iff_eq,
    decodeFirst_firstWord (i := .sneReg x y) rfl rfl, skipsWhen_of_skipIf rfl bne_iff_ne⟩

/-! ### The call and the return (R151, R153) -/

/-- A call writes entry `k`, the first that is free, with the address of the next instruction (R31, R153). -/
theorem exec_call_of_free {s : State} {k : Fin 16} (h : s.sp.val = k.val) (nnn : Imm12) :
    exec (.call nnn) s =
      .next { s with pc := nnn.setWidth 16, stack := s.stack.set k.val (s.pc + 2), sp := k.succ } := by
  simp only [exec, execCall, State.push_of_lt (s.pc + 2) (h ▸ k.isLt), h]
  rfl

/-- A return goes to entry `k`, the top one, and takes it off (R32, R151). -/
theorem exec_ret_of_top {s : State} {k : Fin 16} (h : s.sp.val = k.val + 1) :
    exec .ret s = .next { s with pc := s.stack[k], sp := k.castSucc } := by
  simp only [exec, execRet, State.pop_of_pos (s := s) (by omega), h]
  rfl

theorem exec_ret_of_empty {s : State} (h : s.sp.val = 0) :
    exec .ret s = .next (faultedBy s (.stackUnderflow s.pc)) := by
  simp only [exec, execRet, State.pop_of_empty h, State.trap_eq]

/-- Settles O10: by whether the stack has a top entry. -/
theorem returnPops : Obligations.ReturnPops := fun _ =>
  ⟨by decide, fun _ hk => ⟨_, exec_ret_of_top hk, rfl, rfl, rfl, State.byteAt_congr rfl rfl⟩, exec_ret_of_empty⟩

/-- Settles O11: the top entry that the return takes off is the one that the call wrote. -/
theorem callThenReturn : Obligations.CallThenReturn := by
  intro nnn s ret hfree
  obtain ⟨k, hk⟩ : ∃ k : Fin 16, s.sp.val = k.val := ⟨⟨_, hfree⟩, rfl⟩
  have hsp : k.castSucc = s.sp := Fin.ext hk.symm
  refine ⟨_, _, exec_call_of_free hk nnn, exec_ret_of_top (k := k) rfl, ?target, fun j hj => ?others, ?frame⟩
  case target => exact Vector.getElem_set_self k.isLt
  case others => exact Vector.getElem_set_ne k.isLt j.isLt (hk ▸ hj.symm)
  case frame => rw [hsp]

/-! ### The jumps (R152, R154) -/

/-- An instruction that answers the state with another `PC` changes nothing else. -/
theorem movesPc_of_exec {i : Instr} {s : State} {w : Word} (h : exec i s = .next (s.setPc w)) : MovesPc i s w.toNat :=
  ⟨_, h, rfl, rfl, State.byteAt_congr rfl rfl⟩

/-- The sum of an address and a register fits a word, so nothing is masked (R154). -/
theorem toNat_address_add_byte (nnn : Imm12) (b : Byte) :
    (nnn.setWidth 16 + b.setWidth 16 : Word).toNat = nnn.toNat + b.toNat := by
  bv_omega

/-- The high nibble of an address. -/
theorem highNibble_eq_ofNat (nnn : Imm12) : nnn.extractLsb' 8 4 = BitVec.ofNat 4 (nnn.toNat / 256) := by
  simp [BitVec.toNat_eq, Nat.shiftRight_eq_div_pow]

theorem State.jumpRegister_of_v0 {s : State} (h : s.quirk.jumpReg = .v0) (nnn : Imm12) : s.jumpRegister nnn = 0 := by
  simp only [State.jumpRegister, h]

theorem State.jumpRegister_of_vHigh {s : State} (h : s.quirk.jumpReg = .vHigh) (nnn : Imm12) :
    s.jumpRegister nnn = BitVec.ofNat 4 (nnn.toNat / 256) := by
  simp only [State.jumpRegister, h, highNibble_eq_ofNat]

theorem movesPc_jp (nnn : Imm12) (s : State) : MovesPc (.jp nnn) s nnn.toNat := by
  rw [← BitVec.toNat_setWidth_of_le (show 12 ≤ 16 by decide)]
  exact movesPc_of_exec rfl

/-- `Bnnn` goes to `nnn` plus the register that the quirk chooses (R154). -/
theorem movesPc_jpV0 (nnn : Imm12) (s : State) :
    MovesPc (.jpV0 nnn) s (nnn.toNat + (s.getV (s.jumpRegister nnn)).toNat) :=
  toNat_address_add_byte nnn _ ▸ movesPc_of_exec rfl

/-- With the table of R130 only `SuperChip` adds the register that the address names. -/
theorem jumpReg_eq_vHigh_iff_of_standardQuirks {s : State} (h : s.cfg.quirks = standardQuirks) :
    s.quirk.jumpReg = .vHigh ↔ s.mode = .superChip := by
  unfold State.quirk quirkRow
  rw [h]
  cases s.mode <;> decide

/-- Settles O8: `PC` is all that a jump writes; the quirk `jump_reg` chooses the register of `Bnnn`. -/
theorem jumpsSetPc : Obligations.JumpsSetPc := by
  intro nnn s
  refine ⟨decodeFirst_firstWord (i := .jp nnn) rfl rfl, movesPc_jp nnn s,
    decodeFirst_firstWord (i := .jpV0 nnn) rfl rfl, fun hv0 => ?_, fun hhigh => ?_, jumpReg_eq_vHigh_iff_of_standardQuirks⟩
  · exact State.jumpRegister_of_v0 hv0 nnn ▸ movesPc_jpV0 nnn s
  · exact State.jumpRegister_of_vHigh hhigh nnn ▸ movesPc_jpV0 nnn s

end Sys2Proof.Machine
end

section
/-! SUPPORT. The register loads and the arithmetic: what each writes, and that it writes nothing else (spec R170 to R180). -/

namespace Sys2Proof.Machine

/-! ### The two orders of writes (R183) -/

/-- An instruction that writes `V[x]` and advances changes nothing else. -/
theorem writesRegs_of_setV {i : Instr} {s : State} {x : Nibble} {r : Byte} (h : exec i s = .next (s.setV x r).advance) :
    WritesRegs i s fun z => if z = x then r else s.getV z :=
  ⟨_, h, fun z => State.getV_setV s x z r, rfl, rfl, State.byteAt_congr rfl rfl⟩

/-- An instruction that writes `V[x]`, then the flag, and advances changes nothing else; where x is F the flag stands. -/
theorem writesRegs_of_setWithFlag {i : Instr} {s : State} {x : Nibble} {r : Byte} {f : Bool}
    (h : exec i s = .next (s.setWithFlag x r f).advance) :
    WritesRegs i s fun z => if z = 0xF then flagByte f else if z = x then r else s.getV z :=
  ⟨_, h, fun z => State.getV_setWithFlag s x z r f, rfl, rfl, State.byteAt_congr rfl rfl⟩

/-! ### The quirks of the standard table (R130) -/

/-- With the table of R130 the quirks are the default configuration's for the mode. -/
theorem State.quirk_of_standardQuirks {s : State} (h : s.cfg.quirks = standardQuirks) : s.quirk = quirkRow defaultCfg s.mode := by
  unfold State.quirk quirkRow
  rw [h]
  rfl

/-- With the table of R130 the logic forms reset `VF` in `Unset` and `Chip8` only. -/
theorem vfReset_iff_of_standardQuirks {s : State} (h : s.cfg.quirks = standardQuirks) :
    s.quirk.vfReset = true ↔ s.mode = .unset ∨ s.mode = .chip8 := by
  rw [State.quirk_of_standardQuirks h]
  cases s.mode <;> decide

/-- With the table of R130 only `SuperChip` shifts `V[x]`. -/
theorem shiftSrc_eq_vx_iff_of_standardQuirks {s : State} (h : s.cfg.quirks = standardQuirks) :
    s.quirk.shiftSrc = .vx ↔ s.mode = .superChip := by
  rw [State.quirk_of_standardQuirks h]
  cases s.mode <;> decide

/-! ### The loads and the immediate add (R170 to R172) -/

/-- The wrapping sum of two bytes. -/
theorem byte_add_eq_ofNat (a b : Byte) : a + b = BitVec.ofNat 8 ((a.toNat + b.toNat) % 256) :=
  BitVec.eq_of_toNat_eq (by simp)

/-- Settles O14: each form writes `V[x]` and nothing else. -/
theorem loadsAndImmediateAdd : Obligations.LoadsAndImmediateAdd := by
  intro x y nn s
  refine ⟨decodeFirst_firstWord (i := .ldImm x nn) rfl rfl, writesRegs_of_setV rfl,
    decodeFirst_firstWord (i := .addImm x nn) rfl rfl, ?addImm,
    decodeFirst_firstWord (i := .ldReg x y) rfl rfl, writesRegs_of_setV rfl⟩
  case addImm =>
    rw [← byte_add_eq_ofNat]
    exact writesRegs_of_setV rfl

/-! ### The logic forms (R173 to R175) -/

theorem State.setBitwise_of_vfReset {s : State} (h : s.quirk.vfReset = true) (x : Nibble) (r : Byte) :
    s.setBitwise x r = s.setWithFlag x r false := if_pos h

theorem State.setBitwise_of_not_vfReset {s : State} (h : s.quirk.vfReset = false) (x : Nibble) (r : Byte) :
    s.setBitwise x r = s.setV x r := if_neg (ne_true_of_eq_false h)

/-- Each logic form decodes to its instruction, and makes the writes of the form with the byte that its operation gives bit by
bit. -/
theorem decodeFirst_and_exec_bitwise {x y k : Nibble} {s : State} {op : Bool → Bool → Bool} {i : Instr} {r : Byte}
    (hi : (k, i, op) ∈ [(0x1#4, .orReg x y, or), (0x2#4, .andReg x y, and), (0x3#4, .xorReg x y, xor)])
    (hr : ∀ b < 8, r.getLsbD b = op ((s.getV x).getLsbD b) ((s.getV y).getLsbD b)) :
    decodeFirst (0x8#4 ++ x ++ y ++ k) = some (.short i) ∧ exec i s = .next (s.setBitwise x r).advance := by
  simp only [List.mem_cons, List.not_mem_nil, or_false, Prod.mk.injEq] at hi
  obtain ⟨rfl, rfl, rfl⟩ | ⟨rfl, rfl, rfl⟩ | ⟨rfl, rfl, rfl⟩ := hi
  · have hor : r = s.getV x ||| s.getV y := BitVec.eq_of_getLsbD_eq fun b hb => by rw [hr b hb, BitVec.getLsbD_or]
    exact ⟨decodeFirst_firstWord (i := .orReg x y) rfl rfl, hor ▸ rfl⟩
  · have hand : r = s.getV x &&& s.getV y := BitVec.eq_of_getLsbD_eq fun b hb => by rw [hr b hb, BitVec.getLsbD_and]
    exact ⟨decodeFirst_firstWord (i := .andReg x y) rfl rfl, hand ▸ rfl⟩
  · have hxor : r = s.getV x ^^^ s.getV y := BitVec.eq_of_getLsbD_eq fun b hb => by rw [hr b hb, BitVec.getLsbD_xor]
    exact ⟨decodeFirst_firstWord (i := .xorReg x y) rfl rfl, hxor ▸ rfl⟩

/-- Settles O15: the quirk chooses between the two orders of writes, and 0 is the byte of the flag that is off. -/
theorem bitwiseAndFlagReset : Obligations.BitwiseAndFlagReset := by
  intro x y s op i k r hi hr
  obtain ⟨hdecode, hexec⟩ := decodeFirst_and_exec_bitwise hi hr
  refine ⟨hdecode, fun hreset => ?_, fun hkeep => ?_, vfReset_iff_of_standardQuirks⟩
  · rw [State.setBitwise_of_vfReset hreset] at hexec
    exact writesRegs_of_setWithFlag hexec
  · rw [State.setBitwise_of_not_vfReset hkeep] at hexec
    exact writesRegs_of_setV hexec

/-! ### Addition and subtraction with a flag (R176, R177, R179, R184) -/

/-- The flag of a decided condition, as the byte `VF` receives (R22). -/
theorem flagByte_decide (p : Prop) [Decidable p] : flagByte (decide p) = if p then 0x01 else 0x00 := by
  by_cases h : p <;> simp [flagByte, h]

/-- The wrapping difference of two bytes. -/
theorem byte_sub_eq_ofInt (a b : Byte) : a - b = BitVec.ofInt 8 ((a.toNat - b.toNat : Int) % 256) := by
  refine BitVec.eq_of_toNat_eq ?_
  rw [BitVec.toNat_sub, BitVec.toNat_ofInt]
  omega

/-- Settles O16: the sum and then the carry are written. -/
theorem addWithCarry : Obligations.AddWithCarry := by
  intro x y s
  refine ⟨decodeFirst_firstWord (i := .addReg x y) rfl rfl, ?_⟩
  rw [← byte_add_eq_ofNat, ← flagByte_decide]
  exact writesRegs_of_setWithFlag rfl

/-- Settles O17: the difference and then the flag are written; the second form exchanges the operands. -/
theorem subtractNoBorrow : Obligations.SubtractNoBorrow := by
  intro x y s
  simp only [← byte_sub_eq_ofInt, ← flagByte_decide]
  exact ⟨decodeFirst_firstWord (i := .subReg x y) rfl rfl, writesRegs_of_setWithFlag rfl,
    decodeFirst_firstWord (i := .subn x y) rfl rfl, writesRegs_of_setWithFlag rfl⟩

/-! ### The shifts (R178, R180) -/

/-- The value of the register that the quirk `shift_src` names. -/
theorem State.toNat_shiftOperand (s : State) (x y : Nibble) :
    (s.shiftOperand x y).toNat = if s.quirk.shiftSrc = .vy then (s.getV y).toNat else (s.getV x).toNat := by
  unfold State.shiftOperand
  cases s.quirk.shiftSrc <;> rfl

/-- Bit `k` of a byte, as the byte `VF` receives (R22). -/
theorem flagByte_getLsbD (a : Byte) (k : Nat) : flagByte (a.getLsbD k) = BitVec.ofNat 8 (a.toNat / 2 ^ k % 2) := by
  rw [← Nat.toNat_testBit, ← BitVec.testBit_toNat]
  cases a.toNat.testBit k <;> rfl

theorem flagByte_shrFlag (a : Byte) : flagByte (shrFlag a) = BitVec.ofNat 8 (a.toNat % 2) := by
  rw [shrFlag, flagByte_getLsbD, pow_zero, Nat.div_one]

theorem flagByte_shlFlag (a : Byte) : flagByte (shlFlag a) = BitVec.ofNat 8 (a.toNat / 128) := by
  have hbit : a.toNat / 2 ^ 7 % 2 = a.toNat / 128 := by omega
  rw [shlFlag, flagByte_getLsbD, hbit]

theorem byte_ushiftRight_one_eq_ofNat (a : Byte) : a >>> 1 = BitVec.ofNat 8 (a.toNat / 2) := by
  refine BitVec.eq_of_toNat_eq ?_
  rw [BitVec.toNat_ushiftRight, BitVec.toNat_ofNat, Nat.shiftRight_one]
  omega

theorem byte_shiftLeft_one_eq_ofNat (a : Byte) : a <<< 1 = BitVec.ofNat 8 (a.toNat * 2 % 256) := by
  refine BitVec.eq_of_toNat_eq ?_
  rw [BitVec.toNat_shiftLeft, BitVec.toNat_ofNat, Nat.shiftLeft_eq]
  omega

/-- Settles O18: with `b` the shifted register's value, the shifted value and then the bit shifted out are written. -/
theorem shiftsByOne : Obligations.ShiftsByOne := by
  intro x y s b hb
  rw [← State.toNat_shiftOperand] at hb
  subst hb
  rw [← flagByte_shrFlag, ← byte_ushiftRight_one_eq_ofNat, ← flagByte_shlFlag, ← byte_shiftLeft_one_eq_ofNat]
  exact ⟨decodeFirst_firstWord (i := .shr x y) rfl rfl, writesRegs_of_setWithFlag rfl,
    decodeFirst_firstWord (i := .shl x y) rfl rfl, writesRegs_of_setWithFlag rfl, shiftSrc_eq_vx_iff_of_standardQuirks⟩

end Sys2Proof.Machine
end

section
/-! SUPPORT. The load of the index register and the addition to it (spec R200, R202). -/

namespace Sys2Proof.Machine

/-- The immediate is loaded with its own value, not checked against the memory map (R200). -/
theorem setsI_ldI (nnn : Imm12) (s : State) : SetsI (.ldI nnn) s nnn.toNat s.mode 2 := by
  rw [← BitVec.toNat_setWidth_of_le (show 12 ≤ 16 by decide)]
  exact setsI_of_exec rfl

/-- The wrapping sum of a word and a byte. -/
theorem toNat_word_add_byte (w : Word) (b : Byte) : (w + b.setWidth 16).toNat = (w.toNat + b.toNat) % 65536 := by
  rw [BitVec.toNat_add, BitVec.toNat_setWidth_of_le (by decide)]

/-- The sum is kept modulo 65536 and writes no flag (R202). -/
theorem setsI_addI (x : Nibble) (s : State) :
    SetsI (.addI x) s ((s.regI.toNat + (s.getV x).toNat) % 65536) s.mode 2 := by
  rw [← toNat_word_add_byte]
  exact setsI_of_exec rfl

/-- Settles O20: each form answers the state with `I` written and `PC` advanced, and nothing else changed. -/
theorem indexLoadAndAdd : Obligations.IndexLoadAndAdd := fun nnn x s =>
  ⟨decodeFirst_firstWord (i := .ldI nnn) rfl rfl, setsI_ldI nnn s,
    decodeFirst_firstWord (i := .addI x) rfl rfl, setsI_addI x s⟩

end Sys2Proof.Machine
end

section
/-! SUPPORT. Clearing the selected planes, and a sprite drawn twice (spec R222, R223, R231 to R234, R237). -/

namespace Sys2Proof.Machine

/-! ### The selected planes (R222, R223) -/

/-- An operation on the selected planes, plane by plane. -/
theorem State.plane_onSelected (s : State) (f : Plane → Plane) (p : Fin 2) :
    (s.onSelected f).plane p = if s.selected p then f (s.plane p) else s.plane p := by
  match p with
  | 0 => rfl
  | 1 => rfl

/-- A redraw that maps each selected plane and advances shows the mapped planes' cells, and changes nothing else. -/
theorem redraws_of_onSelected {i : Instr} {s : State} {m : Mode} {f : Plane → Plane} {cell : Fin 2 → Nat → Nat → Bool}
    (h : exec i s = .next (State.onSelected { s with mode := m } f).advance)
    (hcell : ∀ p py px, py < 64 → px < 128 → (f (s.plane p)).lit py px = cell p py px) : Redraws i s m cell := by
  refine ⟨_, h, fun p py px hy hx => ?_, rfl, rfl, rfl, State.byteAt_congr rfl rfl⟩
  rw [← hcell p py px hy hx, ← apply_ite (fun q => Plane.lit q py px)]
  exact congrArg (fun q => Plane.lit q py px) (State.plane_onSelected { s with mode := m } f p)

theorem lit_blankPlane (py px : Nat) : blankPlane.lit py px = false := by
  by_cases h : py < 64
  · simp [Plane.lit_eq px h, blankPlane]
  · exact Plane.lit_eq_false_of_row px (not_lt.1 h)

/-- Settles O28: every selected plane is replaced by the blank one. -/
theorem clearSelected : Obligations.ClearSelected := fun _ =>
  ⟨by decide, redraws_of_onSelected rfl fun _ py px _ _ => lit_blankPlane py px⟩

/-! ### A sprite drawn into one plane (R232, R233) -/

section

variable {cs : List (Nat × Nat)} (hgrid : ∀ c ∈ cs, c.1 < 64 ∧ c.2 < 128) (hnodup : cs.Nodup)
include hgrid hnodup

theorem drawPlane_inverts (sel : Bool) (p : Plane) (qy qx : Nat) :
    (drawPlane sel cs p).1.lit qy qx = (p.lit qy qx ^^ (sel && decide ((qy, qx) ∈ cs))) := by
  cases sel with
  | false => simp [drawPlane_unselected]
  | true => simp [drawPlane_selected, drawCells_inverts cs (p, false) hgrid hnodup]

theorem drawPlane_collision (sel : Bool) (p : Plane) :
    (drawPlane sel cs p).2 = true ↔ sel = true ∧ ∃ c ∈ cs, p.lit c.1 c.2 = true := by
  cases sel with
  | false => simp [drawPlane_unselected]
  | true => simp [drawPlane_selected, drawCells_collision cs (p, false) hgrid hnodup]

/-- A second draw inverts each cell back. -/
theorem drawPlane_drawPlane (sel : Bool) (p : Plane) : (drawPlane sel cs (drawPlane sel cs p).1).1 = p := by
  refine Plane.ext_lit fun py px _ _ => ?_
  rw [drawPlane_inverts hgrid hnodup, drawPlane_inverts hgrid hnodup, Bool.xor_assoc, Bool.xor_self, Bool.xor_false]

/-- A draw that lit a cell inverted it, so a second draw collides there. -/
theorem drawPlane_collides_again {sel : Bool} {p : Plane} {qy qx : Nat} (hbefore : p.lit qy qx = false)
    (hafter : (drawPlane sel cs p).1.lit qy qx = true) : (drawPlane sel cs (drawPlane sel cs p).1).2 = true := by
  have hinverted := drawPlane_inverts hgrid hnodup sel p qy qx
  rw [hbefore, hafter, Bool.false_xor, eq_comm, Bool.and_eq_true, decide_eq_true_eq] at hinverted
  obtain ⟨hsel, hmem⟩ := hinverted
  exact (drawPlane_collision hgrid hnodup sel _).2 ⟨hsel, (qy, qx), hmem, hafter⟩

end

/-! ### The cells of a sprite (R221, R234) -/

/-- The logical grid, doubled where `hires` is off, is the physical one (R221). -/
theorem State.logicalGrid_cases (s : State) :
    s.scale = 1 ∧ s.width = 128 ∧ s.height = 64 ∨ s.scale = 2 ∧ s.width = 64 ∧ s.height = 32 := by
  unfold State.width State.height State.scale
  cases s.hires <;> simp

/-- A sprite's cells lie in the physical grid. -/
theorem State.spriteCells_in_grid (s : State) (x y : Nibble) (bytes : List Byte) (cols rows : Nat) :
    ∀ c ∈ spriteCells (s.canvas x y) bytes cols rows, c.1 < 64 ∧ c.2 < 128 := by
  intro q hq
  have hscale : 0 < s.scale := by have := s.logicalGrid_cases; omega
  obtain ⟨r, -, c, -, -, -, hy, hx⟩ := (mem_spriteCells (k := s.canvas x y) hscale bytes cols rows q).1 hq
  simp only [State.canvas] at hy hx
  rcases s.logicalGrid_cases with ⟨hs, hw, hh⟩ | ⟨hs, hw, hh⟩ <;>
    (rw [hs, hh] at hy; rw [hs, hw] at hx; omega)

/-- The cells of a sprite of `Dxyn` are listed once each. -/
theorem State.nodup_spriteCells_drw (s : State) (x y n : Nibble) (bytes : List Byte) :
    (spriteCells (s.canvas x y) bytes 8 n.toNat).Nodup := by
  have hn : n.toNat < 16 := n.isLt
  have hgrid := s.logicalGrid_cases
  exact nodup_spriteCells (show 0 < s.scale by omega) bytes (show 8 ≤ s.width by omega) (show n.toNat ≤ s.height by omega)

/-! ### A sprite drawn into the selected planes (R232) -/

theorem State.plane_drawSprite (s : State) (x y : Nibble) (cols rows : Nat) (bytes : List Byte) (p : Fin 2) :
    (s.drawSprite x y cols rows bytes).plane p =
      (drawPlane (s.selected p) (spriteCells (s.canvas x y) bytes cols rows) (s.plane p)).1 := by
  match p with
  | 0 => rfl
  | 1 => rfl

/-- A collision in one of the planes is the flag (R233). -/
theorem State.getV_flag_drawSprite {s : State} {x y : Nibble} {cols rows : Nat} {bytes : List Byte} (p : Fin 2)
    (h : (drawPlane (s.selected p) (spriteCells (s.canvas x y) bytes cols rows) (s.plane p)).2 = true) :
    (s.drawSprite x y cols rows bytes).getV 0xF = 0x01 := by
  have hflag : (s.drawSprite x y cols rows bytes).getV 0xF =
      flagByte ((drawPlane (s.selected 0) (spriteCells (s.canvas x y) bytes cols rows) (s.plane 0)).2 ||
        (drawPlane (s.selected 1) (spriteCells (s.canvas x y) bytes cols rows) (s.plane 1)).2) :=
    State.getV_setFlag _ _ _
  rw [hflag]
  match p with
  | 0 => rw [h, Bool.true_or]; rfl
  | 1 => rw [h, Bool.or_true]; rfl

/-- A draw writes no register but `VF`, so the canvas at two other registers is the same after it. -/
theorem State.canvas_drawSprite (s : State) {x y : Nibble} (hx : x ≠ 0xF) (hy : y ≠ 0xF) (cols rows : Nat) (bytes : List Byte) :
    (s.drawSprite x y cols rows bytes).canvas x y = s.canvas x y := by
  have hv : ∀ z : Nibble, z ≠ 0xF → (s.drawSprite x y cols rows bytes).getV z = s.getV z := fun z hz =>
    (State.getV_setFlag _ _ z).trans (if_neg hz)
  unfold State.canvas
  rw [hv x hx, hv y hy]
  rfl

/-- The second of two equal draws takes back the inversions of the first. -/
theorem State.plane_drawSprite_twice (s : State) {x y : Nibble} (hx : x ≠ 0xF) (hy : y ≠ 0xF) (n : Nibble) (bytes : List Byte)
    (p : Fin 2) :
    ((s.drawSprite x y 8 n.toNat bytes).drawSprite x y 8 n.toNat bytes).plane p = s.plane p := by
  rw [State.plane_drawSprite, s.canvas_drawSprite hx hy, s.plane_drawSprite]
  exact drawPlane_drawPlane (s.spriteCells_in_grid x y bytes 8 n.toNat) (s.nodup_spriteCells_drw x y n bytes) _ _

/-- The second of two equal draws collides where the first lit a cell (R233). -/
theorem State.flag_drawSprite_twice {s : State} {x y n : Nibble} {bytes : List Byte} (hx : x ≠ 0xF) (hy : y ≠ 0xF) {p : Fin 2}
    {py px : Nat} (hbefore : (s.plane p).lit py px = false)
    (hafter : ((s.drawSprite x y 8 n.toNat bytes).plane p).lit py px = true) :
    ((s.drawSprite x y 8 n.toNat bytes).drawSprite x y 8 n.toNat bytes).getV 0xF = 0x01 := by
  refine State.getV_flag_drawSprite p ?_
  rw [s.plane_drawSprite] at hafter
  rw [s.canvas_drawSprite hx hy, s.plane_drawSprite]
  exact drawPlane_collides_again (s.spriteCells_in_grid x y bytes 8 n.toNat) (s.nodup_spriteCells_drw x y n bytes) hbefore hafter

/-- The `n` bytes from `I` on. -/
def State.spriteBytes (s : State) (n : Nat) : List Byte := (List.range n).map fun k => s.byteAt (s.base + k)

/-- `Dxyn` draws the bytes at `I` where they lie in program space (R231, R232). -/
theorem exec_drw_of_inProgram {s : State} {n : Nibble} (h : InProgram s.regI.toNat n.toNat) (x y : Nibble) :
    exec (.drw x y n) s = .next (s.drawSprite x y 8 n.toNat (s.spriteBytes n.toNat)).advance := by
  have hread : s.readBytes s.base n.toNat = .ok (s.spriteBytes n.toNat) :=
    State.readBytes_ok fun k hk => (busAllows_iff _).2 (h k hk)
  simp only [exec, execDrw, State.draw, Nat.mul_div_left _ (show 0 < 8 by decide), hread]

/-- Settles O33: with `PC` put back, the second draw is the first's sprite at the first's place again. -/
theorem drawTwiceRestores : Obligations.DrawTwiceRestores := by
  intro x y n s hx hy hin
  have hsecond := exec_drw_of_inProgram (s := s.drawSprite x y 8 n.toNat (s.spriteBytes n.toNat)) hin x y
  have hplane := s.plane_drawSprite_twice hx hy n (s.spriteBytes n.toNat)
  exact ⟨_, _, exec_drw_of_inProgram hin x y, hsecond, hplane 0, hplane 1,
    fun ⟨_, _, _, hbefore, hafter⟩ => State.flag_drawSprite_twice hx hy hbefore hafter⟩

end Sys2Proof.Machine
end

section
/-! SUPPORT. The presenter's move: the frame, and the audio step where it runs (spec R236, R273, R287). -/

namespace Sys2Proof.Machine

/-- An entry of the composed frame is the number of its two cells, plane 1's above plane 0's (R236). -/
theorem composeFrame_toNat (p0 p1 : Plane) (py : Fin 64) (px : Fin 128) :
    ((composeFrame p0 p1)[py][px]).toNat = 2 * (p1.lit py.val px.val).toNat + (p0.lit py.val px.val).toNat := by
  have hpair : ∀ a b : Bool, (BitVec.ofBool a ++ BitVec.ofBool b).toNat = 2 * a.toNat + b.toNat := by decide
  rw [Plane.lit_eq _ py.isLt, Plane.lit_eq _ py.isLt, ← hpair]
  simp [composeFrame]

/-- The audio step touches the phase and the record of the samples (R273, R274). -/
theorem State.audioStep_eq (s : State) : s.audioStep =
    { s with phase := s.audioStep.phase,
             out := { s.out with samples := s.audioStep.out.samples, blocks := s.audioStep.out.blocks } } := by
  unfold State.audioStep
  split <;> rfl

theorem State.audioStep_of_silent {s : State} (h : s.sound = 0) : s.audioStep = s := if_pos h

/-- The presentation puts the frame on its port and touches, besides, the phase and the record of the samples (R287). -/
theorem State.presentTick_out (s : State) : s.presentTick.out =
    { s.out with frame := some (composeFrame s.plane0 s.plane1), frames := s.out.frames + 1,
                 samples := s.presentTick.out.samples, blocks := s.presentTick.out.blocks } := by
  unfold State.presentTick
  split
  · rw [State.audioStep_eq]
    rfl
  · rfl

/-- In a run that is paused or silent the presentation is the frame alone (R285, R287). -/
theorem State.presentTick_of_silent {s : State} (h : s.runState = .paused ∨ s.sound = 0) : s.presentTick = s.showFrame := by
  unfold State.presentTick
  split
  · next hactive =>
    have hrun : s.runState = .active := beq_iff_eq.1 hactive
    exact State.audioStep_of_silent (s := s.showFrame) (h.resolve_left (by simp [hrun]))
  · rfl

theorem step_of_present {s : State} (hrun : s.runState = .active ∨ s.runState = .paused) (hturn : s.turn = .present) :
    step s = .next s.presentMove := by
  rcases hrun with h | h <;> simp only [step, h, hturn]

/-- Settles O49: the move shows the composed frame; only the audio step of a sounding `Active` run writes anything more. -/
theorem presentShowsThePlanes : Obligations.PresentShowsThePlanes := by
  intro s hrun hturn
  have hout : s.presentMove.out = _ := s.presentTick_out
  refine ⟨s.presentMove, composeFrame s.plane0 s.plane1, step_of_present hrun hturn, by rw [hout], by rw [hout],
    composeFrame_toNat s.plane0 s.plane1, rfl, rfl, by rw [hout], by rw [hout], by rw [hout], ?_, fun hsilent => ?_⟩
  · rw [State.presentMove_eq]
  · change s.presentTick.phase = s.phase ∧ s.presentTick.out.samples = s.out.samples ∧
      s.presentTick.out.blocks = s.out.blocks
    rw [State.presentTick_of_silent hsilent]
    exact ⟨rfl, rfl, rfl⟩

end Sys2Proof.Machine
end

section
/-! SUPPORT. The timer's move and the poll of the key wait (spec R254, R257, R258, R282). -/

namespace Sys2Proof.Machine

/-! ### The timer's move (R257, R258) -/

/-- Counting down takes off 1, and stops at 0 as subtraction of natural numbers does (R258). -/
@[simp] theorem countDown_toNat (b : Byte) : (countDown b).toNat = b.toNat - 1 := by
  unfold countDown
  split
  · next hzero => simp [hzero]
  · bv_omega

/-- After the timer's place the presenter is next if its period has passed, and else the next iteration begins (R282). -/
theorem State.turnAfterTimer_eq (s : State) [Decidable (1 / 60 ≤ s.accPresent.value)] :
    s.turnAfterTimer = if 1 / 60 ≤ s.accPresent.value then .present else .top :=
  if_congr s.presentDue_iff rfl rfl

/-- In an `Active` run the timer's move is a `TimerTick`, which clears the timer's accumulator (R257, R282). -/
theorem State.timerMove_of_active {s : State} (hrun : s.runState = .active) : s.timerMove =
    { s with delay := countDown s.delay, sound := countDown s.sound, accTimer := .zero, turn := s.turnAfterTimer } := by
  have hactive : s.active = true := beq_iff_eq.2 hrun
  rw [State.timerMove, if_pos hactive]
  rfl

theorem step_of_timer {s : State} (hrun : s.runState = .active ∨ s.runState = .paused) (hturn : s.turn = .timer) :
    step s = .next s.timerMove := by
  rcases hrun with h | h <;> simp only [step, h, hturn]

/-- Settles O37: the step is the timer's move of an `Active` run, and `countDown` is the subtraction of 1 that stops at 0. -/
theorem timerTickCountsDown : Obligations.TimerTickCountsDown := by
  intro s hrun hturn
  have hstep := step_of_timer (.inl hrun) hturn
  rw [State.timerMove_of_active hrun] at hstep
  exact ⟨_, hstep, countDown_toNat s.delay, countDown_toNat s.sound, rfl, s.turnAfterTimer_eq, rfl⟩

/-! ### The least held key (R254) -/

theorem keyNumbers_getElem {i : Nat} (hi : i < keyNumbers.length) : keyNumbers[i] = BitVec.ofFin ⟨i, hi⟩ := by
  simp [keyNumbers, BitVec.toNat_eq, Nat.mod_eq_of_lt (show i < 16 from hi)]

theorem State.leastHeld_of_none_held {s : State} (h : ∀ k : Fin 16, s.keys[k] = false) : s.leastHeld = none :=
  List.find?_eq_none.2 fun z _ => Bool.eq_false_iff.1 (h z.toFin)

/-- The search runs from key 0 upwards, so it ends at a held key with none held below it. -/
theorem State.leastHeld_of_least {s : State} {k : Fin 16} (hk : s.keys[k] = true)
    (hless : ∀ j : Fin 16, j < k → s.keys[j] = false) : s.leastHeld = some (BitVec.ofFin k) := by
  have hlen : k.val < keyNumbers.length := k.isLt
  refine List.find?_eq_some_iff_getElem.2 ⟨hk, k.val, hlen, keyNumbers_getElem hlen, fun j hj => ?_⟩
  have hlow : s.keyHeld (BitVec.ofFin ⟨j, hj.trans hlen⟩) = false := hless ⟨j, hj.trans hlen⟩ hj
  rw [keyNumbers_getElem, hlow, Bool.not_false]

/-! ### The poll (R254) -/

/-- The wait ends when the latched key is not held: its number goes to the register, and `PC` moves on (R254). -/
theorem State.keyWaitPoll_of_released {s : State} {r k : Nibble} (h : s.keyHeld k = false) :
    s.keyWaitPoll r (some k) = ((s.setV r (k.setWidth 8)).setCpuState .running).advance := by
  simp only [State.keyWaitPoll, h, Bool.false_eq_true, if_false]

theorem State.getV_keyWaitPoll_of_released {s : State} {r k : Nibble} (h : s.keyHeld k = false) (z : Nibble) :
    (s.keyWaitPoll r (some k)).getV z = if z = r then k.setWidth 8 else s.getV z := by
  rw [State.keyWaitPoll_of_released h]
  exact State.getV_setV s r z _

theorem State.keyWaitPoll_of_held {s : State} {r k : Nibble} (h : s.keyHeld k = true) : s.keyWaitPoll r (some k) = s :=
  if_pos h

/-- With no key latched the poll does nothing until a key is held, and then latches the least one (R254). -/
theorem State.keyWaitPoll_of_none_held {s : State} {r : Nibble} (h : s.leastHeld = none) : s.keyWaitPoll r none = s := by
  simp only [State.keyWaitPoll, h]

theorem State.keyWaitPoll_of_least {s : State} {r k : Nibble} (h : s.leastHeld = some k) :
    s.keyWaitPoll r none = s.setCpuState (.awaitingKey r (some k)) := by
  simp only [State.keyWaitPoll, h]

/-- Settles O36: in the wait the tick is the poll: with no key latched the search for the least held key decides, and else the
latched key's level. A step at the engine's turn is the tick and what follows it. -/
theorem keyWaitPolls : Obligations.KeyWaitPolls := by
  intro r s
  refine ⟨fun hwait => ⟨fun hnone => ?_, fun k hk hless => ?_⟩, fun k hwait => ⟨fun hheld => ?_, fun hfree => ?_⟩,
    fun k hrun hturn hwait => ?_⟩
  · rw [cpuTick_waiting hwait, State.keyWaitPoll_of_none_held (State.leastHeld_of_none_held hnone)]
  · rw [cpuTick_waiting hwait, State.keyWaitPoll_of_least (State.leastHeld_of_least hk hless)]
    rfl
  · rw [cpuTick_waiting hwait, State.keyWaitPoll_of_held hheld]
  · have hreg := State.getV_keyWaitPoll_of_released (r := r) hfree
    refine ⟨_, cpuTick_waiting hwait, ?_, fun z hz => (hreg z).trans (if_neg hz), ?_⟩
    · rw [hreg, if_pos rfl]
      exact BitVec.toNat_setWidth_of_le (by decide)
    · rw [State.keyWaitPoll_of_released hfree]
      exact ⟨rfl, rfl, rfl⟩
  · have htick := cpuTick_waiting (s := s.clearAccCpu) hwait
    exact ⟨_, htick, step_of_cpuTick hrun hturn htick⟩

end Sys2Proof.Machine
end

section
/-! SUPPORT. The end of a run by cancellation (spec R281, R282, R286). -/

namespace Sys2Proof.Machine

theorem step_of_top {s : State} (hrun : s.runState = .active ∨ s.runState = .paused) (hturn : s.turn = .top) :
    step s = .next s.topMove := by
  rcases hrun with h | h <;> simp only [step, h, hturn]

theorem step_of_exited {s : State} (h : s.runState = .exited) : step s = .fault .exited := by
  simp only [step, h]

/-- A request that stood before or comes with the next input stands once the input is taken (R286). -/
theorem State.takeInput_cancel_iff (s : State) :
    s.takeInput.port.cancel = true ↔ s.port.cancel = true ∨ s.nextInput.cancel = true :=
  Bool.or_eq_true_iff

/-- At the top of an iteration a cancellation goes before the samples: the input is taken, and the run is over (R282, R286). -/
theorem State.topMove_of_cancel {s : State} (h : s.takeInput.port.cancel = true) :
    s.topMove = s.takeInput.setRunState .exited :=
  if_pos h

/-- Settles O46: the step is the top move, which a cancellation makes the taking of the input followed by the exit. -/
theorem cancellationEndsTheRun : Obligations.CancellationEndsTheRun := by
  intro s hrun hturn hrequest
  have hcancel : s.takeInput.port.cancel = true := s.takeInput_cancel_iff.2 hrequest
  have hstep := step_of_top hrun hturn
  rw [State.topMove_of_cancel hcancel] at hstep
  exact ⟨_, hstep, rfl, hcancel, step_of_exited rfl, rfl⟩

end Sys2Proof.Machine
end

section
/-! SUPPORT. The memory blocks at `I`: the three decimal digits, the register store and the register load, completed and cut short
by a fault (spec R72, R205 to R207, R306). -/

namespace Sys2Proof.Machine

/-! ### Blocks and program space (R61, R72) -/

/-- The bus answers at every address of a block in program space. -/
theorem InProgram.busAllows {a n : Nat} (h : InProgram a n) : ∀ k < n, busAllows (a + k) = true :=
  fun k hk => (busAllows_iff _).2 (h k hk)

/-- The bus refuses the first address of a block that is not in program space. -/
theorem FirstRefused.not_busAllows {a j : Nat} (h : FirstRefused a j) : busAllows (a + j) = false :=
  Bool.eq_false_iff.2 fun hallows => h.2 ((busAllows_iff _).1 hallows)

/-- A block store in program space writes its bytes and nothing else. -/
theorem State.storeBytes_of_inProgram {s : State} {a : Nat} {bs : List Byte} (hm : Memory.wf s.cfg s.mem)
    (h : InProgram a bs.length) :
    ∃ m, s.storeBytes a bs = ({ s with mem := m }, none) ∧
      (∀ k (hk : k < bs.length), State.byteAt { s with mem := m } (a + k) = bs[k]) ∧
      ∀ b, b < a ∨ a + bs.length ≤ b → State.byteAt { s with mem := m } b = s.byteAt b := by
  have hframe := s.storeBytes_frame a bs
  refine ⟨(s.storeBytes a bs).1.mem, Prod.ext hframe (State.storeBytes_ok h.busAllows), ?_⟩
  rw [← hframe]
  exact ⟨State.storeBytes_same hm h.busAllows, fun b => s.storeBytes_other a bs⟩

/-- A block store cut short by the bus has written the bytes before the refused one and nothing else (R72). -/
theorem State.storeBytes_of_firstRefused {s : State} {a j : Nat} {bs : List Byte} (hm : Memory.wf s.cfg s.mem)
    (h : FirstRefused a j) (hj : j < bs.length) :
    ∃ m, s.storeBytes a bs = ({ s with mem := m }, some (a + j)) ∧
      (∀ k (_ : k < j), State.byteAt { s with mem := m } (a + k) = bs[k]) ∧
      ∀ b, b < a ∨ a + j ≤ b → State.byteAt { s with mem := m } b = s.byteAt b := by
  have hframe := s.storeBytes_frame a bs
  obtain ⟨hstop, hbytes⟩ := State.storeBytes_stops hm hj h.1.busAllows h.not_busAllows
  refine ⟨(s.storeBytes a bs).1.mem, Prod.ext hframe hstop, ?_⟩
  rwa [← hframe]

/-- A load of the first `n` registers from program space writes them and nothing else. -/
theorem State.loadFrom_of_inProgram {s : State} {a n : Nat} (h : InProgram a n) (hn : n ≤ 16) :
    ∃ w, s.loadFrom a 0 n = ({ s with v := w }, none) ∧
      ∀ z, State.getV { s with v := w } z = if z.toNat < n then s.byteAt (a + z.toNat) else s.getV z := by
  have hframe := s.loadFrom_frame a 0 n
  have hallows : ∀ k < n, busAllows (a + (0 + k)) = true := by simpa using h.busAllows
  refine ⟨(s.loadFrom a 0 n).1.v, Prod.ext hframe (State.loadFrom_ok hallows), fun z => ?_⟩
  rw [← hframe]
  simpa using State.getV_loadFrom (s := s) hallows (by omega) z

/-- A load cut short by the bus has written the registers before the refused byte and nothing else (R72). -/
theorem State.loadFrom_of_firstRefused {s : State} {a j n : Nat} (h : FirstRefused a j) (hj : j < n) (hn : n ≤ 16) :
    ∃ w, s.loadFrom a 0 n = ({ s with v := w }, some (a + j)) ∧
      ∀ z, State.getV { s with v := w } z = if z.toNat < j then s.byteAt (a + z.toNat) else s.getV z := by
  have hframe := s.loadFrom_frame a 0 n
  have hallows : ∀ k < j, busAllows (a + (0 + k)) = true := by simpa using h.1.busAllows
  have hrefused : busAllows (a + (0 + j)) = false := by simpa using h.not_busAllows
  obtain ⟨hstop, hregs⟩ := State.loadFrom_stops (s := s) hj (by omega) hallows hrefused
  refine ⟨(s.loadFrom a 0 n).1.v, Prod.ext hframe (by simpa using hstop), fun z => ?_⟩
  rw [← hframe]
  simpa using hregs z

/-! ### The move of `I` (R206, R207) -/

theorem State.incrementI_eq (s : State) (x : Nibble) : s.incrementI x = { s with regI := (s.incrementI x).regI } := by
  unfold State.incrementI
  split <;> rfl

/-- Where the quirk `mem_increment` holds, `I` moves past the block, modulo 65536. -/
theorem State.toNat_regI_incrementI (s : State) (x : Nibble) :
    (s.incrementI x).regI.toNat =
      if s.quirk.memIncrement then (s.regI.toNat + x.toNat + 1) % 65536 else s.regI.toNat := by
  unfold State.incrementI
  split
  · rw [State.setI_regI]
    bv_omega
  · rfl

/-- With the table of R130 only `SuperChip` leaves `I` where it is. -/
theorem memIncrement_eq_false_iff_of_standardQuirks {s : State} (h : s.cfg.quirks = standardQuirks) :
    s.quirk.memIncrement = false ↔ s.mode = .superChip := by
  rw [State.quirk_of_standardQuirks h]
  cases s.mode <;> decide

/-- The move of `I` touches neither the registers nor memory. -/
theorem State.getV_incrementI (s : State) (x z : Nibble) : (s.incrementI x).getV z = s.getV z := by
  rw [State.incrementI_eq]
  rfl

theorem State.byteAt_incrementI (s : State) (x : Nibble) (a : Nat) : (s.incrementI x).byteAt a = s.byteAt a := by
  rw [State.incrementI_eq]
  rfl

/-! ### What the three instructions answer -/

theorem exec_loadRegs_of_loaded {s t : State} {x : Nibble} (h : s.loadFrom s.base 0 (x.toNat + 1) = (t, none)) :
    exec (.loadRegs x) s = .next (t.incrementI x).advance := by
  simp only [exec, execLoadRegs, h]

theorem exec_loadRegs_of_refused {s t : State} {x : Nibble} {a : Nat}
    (h : s.loadFrom s.base 0 (x.toNat + 1) = (t, some a)) :
    exec (.loadRegs x) s = .next (faultedBy t (.memoryAccess a .read)) := by
  simp only [exec, execLoadRegs, h, State.trap_eq]

theorem exec_storeRegs_of_stored {s t : State} {x : Nibble} (h : s.storeBytes s.base (s.regsTo x) = (t, none)) :
    exec (.storeRegs x) s = .next (t.incrementI x).advance := by
  simp only [exec, execStoreRegs, h]

theorem exec_storeRegs_of_refused {s t : State} {x : Nibble} {a : Nat}
    (h : s.storeBytes s.base (s.regsTo x) = (t, some a)) :
    exec (.storeRegs x) s = .next (faultedBy t (.memoryAccess a .write)) := by
  simp only [exec, execStoreRegs, h, State.trap_eq]

theorem exec_bcd_of_stored {s t : State} {x : Nibble} (h : s.storeBytes s.base (decimalDigits (s.getV x)) = (t, none)) :
    exec (.bcd x) s = .next t.advance := by
  simp only [exec, execBcd, h]

theorem exec_bcd_of_refused {s t : State} {x : Nibble} {a : Nat}
    (h : s.storeBytes s.base (decimalDigits (s.getV x)) = (t, some a)) :
    exec (.bcd x) s = .next (faultedBy t (.memoryAccess a .write)) := by
  simp only [exec, execBcd, h, State.trap_eq]

/-! ### The stored bytes (R205, R206) -/

theorem State.length_regsTo (s : State) (x : Nibble) : (s.regsTo x).length = x.toNat + 1 := by
  simp [State.regsTo]

/-- Byte `k` of a register store is register `k`. -/
theorem State.getElem_regsTo (s : State) {x k : Nibble} (hk : k.toNat < (s.regsTo x).length) :
    (s.regsTo x)[k.toNat] = s.getV k := by
  simp [State.regsTo]

/-- The hundreds, the tens and the ones of a byte each fit a byte. -/
theorem decimalDigits_map_toNat (b : Byte) :
    (decimalDigits b).map BitVec.toNat = [b.toNat / 100, b.toNat / 10 % 10, b.toNat % 10] := by
  have hb : b.toNat < 256 := b.isLt
  simp only [decimalDigits, List.map_cons, List.map_nil, BitVec.toNat_ofNat, List.cons.injEq, and_true]
  omega

/-- Byte `k` of the three digits, as a number. -/
theorem toNat_getElem_decimalDigits {b : Byte} {k : Nat} (hk : k < (decimalDigits b).length) :
    ((decimalDigits b)[k]).toNat = [b.toNat / 100, b.toNat / 10 % 10, b.toNat % 10][k] := by
  simp only [← decimalDigits_map_toNat, List.getElem_map]

/-! ### The statements -/

/-- Settles O23: the store of the three digits completes, and `PC` moves on. -/
theorem decimalDigitsStored : Obligations.DecimalDigits := by
  refine fun x s => ⟨decodeFirst_firstWord (i := .bcd x) rfl rfl, fun hm hin => ?_⟩
  obtain ⟨m, hstore, hbytes, hother⟩ :=
    State.storeBytes_of_inProgram (bs := decimalDigits (s.getV x)) hm hin
  have hdigit : ∀ k (hk : k < 3), (State.byteAt { s with mem := m } (s.regI.toNat + k)).toNat =
      [(s.getV x).toNat / 100, (s.getV x).toNat / 10 % 10, (s.getV x).toNat % 10][k] := fun k hk =>
    (congrArg BitVec.toNat (hbytes k hk)).trans (toNat_getElem_decimalDigits hk)
  exact ⟨_, exec_bcd_of_stored hstore, hdigit 0 (by decide), hdigit 1 (by decide), hdigit 2 (by decide), hother, rfl, rfl⟩

/-- Settles O24: the store of the registers completes, and then `I` and `PC` move. -/
theorem storeRegisters : Obligations.StoreRegisters := by
  refine fun x s => ⟨decodeFirst_firstWord (i := .storeRegs x) rfl rfl, fun hm hin => ?_,
    memIncrement_eq_false_iff_of_standardQuirks⟩
  obtain ⟨m, hstore, hbytes, hother⟩ :=
    State.storeBytes_of_inProgram (bs := s.regsTo x) hm (by rwa [s.length_regsTo])
  rw [s.length_regsTo] at hother
  refine ⟨_, exec_storeRegs_of_stored hstore, fun k hk => ?bytes, fun a ha => ?others,
    State.toNat_regI_incrementI { s with mem := m } x, ?pc, ?frame⟩
  case bytes =>
    have hlt : k.toNat < (s.regsTo x).length := by rw [s.length_regsTo]; omega
    exact (State.byteAt_incrementI _ x _).trans ((hbytes k.toNat hlt).trans (s.getElem_regsTo hlt))
  case others => exact (State.byteAt_incrementI _ x a).trans (hother a (by omega))
  all_goals
    rw [State.incrementI_eq]
    rfl

/-- Settles O25: the load of the registers completes, and then `I` and `PC` move. -/
theorem loadRegisters : Obligations.LoadRegisters := by
  refine fun x s => ⟨decodeFirst_firstWord (i := .loadRegs x) rfl rfl, fun hin => ?_⟩
  obtain ⟨w, hload, hregs⟩ := State.loadFrom_of_inProgram (s := s) hin (by omega)
  refine ⟨_, exec_loadRegs_of_loaded hload, fun z => ?regs, State.toNat_regI_incrementI { s with v := w } x, ?pc, ?frame,
    State.byteAt_incrementI _ x⟩
  case regs => exact (State.getV_incrementI _ x z).trans ((hregs z).trans (if_congr Nat.lt_succ_iff rfl rfl))
  all_goals
    rw [State.incrementI_eq]
    rfl

/-- Settles O26: each form is a store or a load that the bus cuts short at byte `j`, followed by the fault. -/
theorem blockFaultsKeepTheEarlierPart : Obligations.BlockFaultsKeepTheEarlierPart := by
  refine fun x s j hj => ⟨fun hlt => ?load, fun hm => ⟨fun hlt => ?store, fun hlt => ?digits⟩⟩
  case load =>
    obtain ⟨w, hload, hregs⟩ := State.loadFrom_of_firstRefused (s := s) hj hlt (by omega)
    exact ⟨_, exec_loadRegs_of_refused hload, hregs, rfl⟩
  case store =>
    obtain ⟨m, hstore, hbytes, hother⟩ :=
      State.storeBytes_of_firstRefused (bs := s.regsTo x) hm hj (by rwa [s.length_regsTo])
    exact ⟨_, exec_storeRegs_of_refused hstore, fun k hk => (hbytes k.toNat hk).trans (s.getElem_regsTo _), hother, rfl⟩
  case digits =>
    obtain ⟨m, hstore, hbytes, hother⟩ := State.storeBytes_of_firstRefused (bs := decimalDigits (s.getV x)) hm hj hlt
    refine ⟨_, exec_bcd_of_refused hstore, fun k hk => ?_, hother, rfl⟩
    refine (congrArg BitVec.toNat (hbytes k hk)).trans ((toNat_getElem_decimalDigits (hk.trans hlt)).trans ?_)
    match k with
    | 0 => rfl
    | 1 => rfl
    | _ + 2 => omega

end Sys2Proof.Machine
end

section
/-! SUPPORT. The draw: the cells a sprite covers, the collision, and the fault of a sprite byte that the bus refuses (spec R221,
R231 to R234, R301). -/

namespace Sys2Proof.Machine

/-! ### A refused sprite byte (R232, R301) -/

/-- A draw reads all its bytes first, so a byte that the bus refuses leaves everything as it is but for the fault. -/
theorem State.draw_of_firstRefused {s : State} {j cols rows : Nat} (h : FirstRefused s.regI.toNat j)
    (hj : j < rows * cols / 8) (x y : Nibble) :
    s.draw x y cols rows = .next (faultedBy s (.memoryAccess (s.regI.toNat + j) .read)) := by
  have hread : s.readBytes s.base (rows * cols / 8) = .error (s.regI.toNat + j) :=
    State.readBytes_stops hj h.1.busAllows h.not_busAllows
  simp only [State.draw, hread, State.trap_eq]

/-- `Dxy0` is the draw of 16 by 16 pixels after the promotion of a row of class S (R232). -/
theorem exec_drwBig (x y : Nibble) (s : State) :
    exec (.drwBig x y) s = State.draw { s with mode := modeAfterS s } x y 16 16 := by
  rw [← State.promote_superChip]
  rfl

/-- Settles O32: the byte refused is one of those that the draw reads before it changes anything. -/
theorem drawFaultsBeforeItDraws : Obligations.DrawFaultsBeforeItDraws := by
  refine fun x y n s j hj => ⟨fun hlt => ?_, fun hlt => ?_⟩
  · exact State.draw_of_firstRefused hj (by omega) x y
  · rw [exec_drwBig]
    exact State.draw_of_firstRefused (s := { s with mode := modeAfterS s }) hj hlt x y

/-! ### The pixels of a sprite (R231) -/

/-- The pixels of the bytes at `I` are those that stand in memory. -/
theorem State.spriteBit_spriteBytes (s : State) {w rows r c : Nat} (hr : r < rows) (hc : c < 8 * w) :
    spriteBit (s.spriteBytes (rows * w)) (8 * w) r c = s.spritePixel (8 * w) r c := by
  have hbyte : r * w + c / 8 < rows * w := by
    have hrow : (r + 1) * w ≤ rows * w := Nat.mul_le_mul_right w hr
    rw [Nat.add_mul] at hrow
    omega
  have hw : 8 * w / 8 = w := by omega
  simp [spriteBit, State.spritePixel, State.spriteBytes, hw, List.getElem?_range hbyte]

/-! ### The cells of a sprite (R221, R234) -/

/-- Under clip a logical pixel lies inside the edges, and under wrap it is taken modulo them: so a sprite's listed cells are
those that it covers. -/
theorem State.mem_spriteCells_iff_covers (s : State) (x y : Nibble) {w rows py px : Nat} (hy : py < 64) (hx : px < 128) :
    (py, px) ∈ spriteCells (s.canvas x y) (s.spriteBytes (rows * w)) (8 * w) rows ↔ s.Covers x y (8 * w) rows py px := by
  have hgrid := s.logicalGrid_cases
  have hrow : py / s.scale < s.height := by
    rcases hgrid with ⟨hs, -, hh⟩ | ⟨hs, -, hh⟩ <;> rw [hs, hh] <;> omega
  have hcol : px / s.scale < s.width := by
    rcases hgrid with ⟨hs, hw, -⟩ | ⟨hs, hw, -⟩ <;> rw [hs, hw] <;> omega
  rw [mem_spriteCells (show 0 < s.scale by omega)]
  unfold State.Covers
  refine exists_congr fun r => and_congr_right fun hr => exists_congr fun c => and_congr_right fun hc => ?_
  rw [s.spriteBit_spriteBytes hr hc]
  refine and_congr_right fun _ => ?_
  simp only [State.canvas]
  split
  · next hclip =>
    simp only [hclip, true_imp_iff]
    constructor
    · rintro ⟨⟨hxin, hyin⟩, hpy, hpx⟩
      rw [Nat.mod_eq_of_lt hyin] at hpy
      rw [Nat.mod_eq_of_lt hxin] at hpx
      exact ⟨hpx.symm, hpy.symm⟩
    · rintro ⟨hpx, hpy⟩
      rw [hpx, hpy]
      exact ⟨⟨hcol, hrow⟩, (Nat.mod_eq_of_lt hrow).symm, (Nat.mod_eq_of_lt hcol).symm⟩
  · next hwrap =>
    simp only [hwrap, false_imp_iff, true_and, Bool.false_eq_true]
    exact ⟨fun ⟨hpy, hpx⟩ => ⟨hpx.symm, hpy.symm⟩, fun ⟨hpx, hpy⟩ => ⟨hpy.symm, hpx.symm⟩⟩

/-! ### The draw (R232, R233) -/

section

variable {s : State} {x y : Nibble} {w rows : Nat} (hw : w ≤ 2) (hrows : rows ≤ 16)
include hw hrows

theorem State.nodup_spriteCells (bytes : List Byte) : (spriteCells (s.canvas x y) bytes (8 * w) rows).Nodup := by
  have hgrid := s.logicalGrid_cases
  exact Machine.nodup_spriteCells (show 0 < s.scale by omega) bytes (show 8 * w ≤ s.width by omega)
    (show rows ≤ s.height by omega)

/-- Exactly the covered cells of a selected plane are inverted. -/
theorem State.lit_drawSprite_ne_iff {p : Fin 2} {py px : Nat} (hy : py < 64) (hx : px < 128) :
    ((s.drawSprite x y (8 * w) rows (s.spriteBytes (rows * w))).plane p).lit py px ≠ (s.plane p).lit py px ↔
      s.selected p = true ∧ s.Covers x y (8 * w) rows py px := by
  rw [s.plane_drawSprite, drawPlane_inverts (s.spriteCells_in_grid x y _ _ _) (State.nodup_spriteCells hw hrows _),
    ← s.mem_spriteCells_iff_covers x y hy hx]
  cases s.selected p <;> cases (s.plane p).lit py px <;> simp

/-- A draw into a plane collides where the sprite covers a lit cell of it. -/
theorem State.drawPlane_collides_iff (p : Fin 2) :
    (drawPlane (s.selected p) (spriteCells (s.canvas x y) (s.spriteBytes (rows * w)) (8 * w) rows) (s.plane p)).2 = true ↔
      s.selected p = true ∧
        ∃ py px, py < 64 ∧ px < 128 ∧ (s.plane p).lit py px = true ∧ s.Covers x y (8 * w) rows py px := by
  have hgrid := s.spriteCells_in_grid x y (s.spriteBytes (rows * w)) (8 * w) rows
  rw [drawPlane_collision hgrid (State.nodup_spriteCells hw hrows _)]
  refine and_congr_right fun _ => ⟨fun ⟨c, hc, hlit⟩ => ?_, fun ⟨py, px, hy, hx, hlit, hcovers⟩ => ?_⟩
  · obtain ⟨hy, hx⟩ := hgrid c hc
    exact ⟨c.1, c.2, hy, hx, hlit, (s.mem_spriteCells_iff_covers x y hy hx).1 hc⟩
  · exact ⟨(py, px), (s.mem_spriteCells_iff_covers x y hy hx).2 hcovers, hlit⟩

/-- `VF` receives whether a plane collided. -/
theorem State.flag_drawSprite [Decidable (s.Collides x y (8 * w) rows)] :
    (s.drawSprite x y (8 * w) rows (s.spriteBytes (rows * w))).getV 0xF =
      flagByte (decide (s.Collides x y (8 * w) rows)) := by
  refine (State.getV_setFlag _ _ _).trans (congrArg flagByte (Bool.eq_iff_iff.2 ?_))
  rw [Bool.or_eq_true, decide_eq_true_iff]
  refine (or_congr (State.drawPlane_collides_iff hw hrows 0) (State.drawPlane_collides_iff hw hrows 1)).trans ?_
  simp only [State.Collides, Fin.exists_fin_two, exists_and_left]

/-- A draw whose bytes lie in program space draws the sprite that stands there. -/
theorem drawsSprite_of_exec {i : Instr} {s₀ : State} (h : exec i s₀ = s.draw x y (8 * w) rows)
    (hin : InProgram s.regI.toNat (rows * w)) : DrawsSprite i s₀ s x y (8 * w) rows := by
  classical
  have hsize : rows * (8 * w) / 8 = rows * w := by rw [Nat.mul_left_comm, Nat.mul_div_cancel_left _ (by decide)]
  have hread : s.readBytes s.base (rows * w) = .ok (s.spriteBytes (rows * w)) := State.readBytes_ok hin.busAllows
  have hdraw : exec i s₀ = .next (s.drawSprite x y (8 * w) rows (s.spriteBytes (rows * w))).advance := by
    rw [h]
    simp only [State.draw, hsize, hread]
  have hflag := State.flag_drawSprite (s := s) (x := x) (y := y) hw hrows
  refine ⟨_, hdraw, fun p py px hy hx => State.lit_drawSprite_ne_iff hw hrows hy hx, fun hc => hflag.trans ?_,
    fun hc => hflag.trans ?_, fun z hz => (State.getV_setFlag _ _ z).trans (if_neg hz), rfl, rfl, State.byteAt_congr rfl rfl⟩
  · rw [decide_eq_true hc]
    rfl
  · rw [decide_eq_false hc]
    rfl

end

/-- With the table of R130 only `XoChip` wraps. -/
theorem drawClip_eq_false_iff_of_standardQuirks {s : State} (h : s.cfg.quirks = standardQuirks) :
    s.quirk.drawClip = false ↔ s.mode = .xoChip := by
  rw [State.quirk_of_standardQuirks h]
  cases s.mode <;> decide

/-- Settles O31: both forms draw a sprite of at most 16 by 16 pixels, `Dxyn` of one byte a row and `Dxy0` of two. -/
theorem drawXorsTheSprite : Obligations.DrawXorsTheSprite := by
  refine fun x y n s => ⟨fun hn => ⟨?_, fun hin => ?_⟩, decodeFirst_firstWord (i := .drwBig x y) rfl rfl, fun hin => ?_,
    drawClip_eq_false_iff_of_standardQuirks⟩
  · exact decodeFirst_firstWord (i := .drw x y n) (bne_iff_ne.2 hn) rfl
  · exact drawsSprite_of_exec (w := 1) (by decide) (by omega) rfl (by rwa [Nat.mul_one])
  · exact drawsSprite_of_exec (w := 2) (by decide) (by decide) (exec_drwBig x y s) hin

end Sys2Proof.Machine
end

section
/-! SUPPORT. The audio instructions, the playback rate, and the blocks of samples (spec R265 to R274). -/

namespace Sys2Proof.Machine

/-! ### The pattern load and the pitch (R265, R266) -/

theorem exec_audio_of_read {s : State} {bytes : List Byte} (h : s.readBytes s.base 16 = .ok bytes) :
    exec .audio s = .next (State.setPattern { s with mode := modeAfterX s } (sixteen bytes)).advance := by
  simp only [exec, execAudio, h, State.promote_xoChip]

theorem exec_audio_of_refused {s : State} {a : Nat} (h : s.readBytes s.base 16 = .error a) :
    exec .audio s = .next (faultedBy { s with mode := modeAfterX s } (.memoryAccess a .read)) := by
  simp only [exec, execAudio, h, State.promote_xoChip, State.trap_eq]

theorem exec_pitch (x : Nibble) (s : State) :
    exec (.pitch x) s = .next (State.setPitch { s with mode := modeAfterX s } (s.getV x)).advance := by
  simp only [exec, execPitch, State.promote_xoChip]

/-- The sixteen bytes of a block of sixteen. -/
theorem sixteen_map_range (f : Nat → Byte) (k : Fin 16) : (sixteen ((List.range 16).map f))[k] = f k.val := by
  simp [sixteen]

/-- Settles O39: all sixteen bytes are read before the pattern is written, and the promotion comes before either. -/
theorem patternLoad : Obligations.PatternLoad := by
  refine fun s => ⟨by decide, fun hin => ?_, fun j hj hrefused => ?_⟩
  · have hread := State.readBytes_ok (s := s) hin.busAllows
    exact ⟨_, exec_audio_of_read hread, sixteen_map_range _, rfl, rfl, rfl, State.byteAt_congr rfl rfl⟩
  · exact exec_audio_of_refused (State.readBytes_stops hj hrefused.1.busAllows hrefused.not_busAllows)

/-! ### The playback rate (R270) -/

/-- The rate is 4000 at pitch 64, and doubles with every four steps of pitch. -/
theorem playbackRate_of_octave {p : Byte} {k : Int} (h : (p.toNat : Int) = 64 + 4 * k) :
    (playbackRate p).value = 4000 * (2 : ℝ) ^ k := by
  have hp : (p.toNat : ℝ) = 64 + 4 * k := by exact_mod_cast h
  rw [playbackRate_value, hp, show ((64 : ℝ) + 4 * k - 64) / 4 = k by ring, Real.rpow_intCast]

theorem playbackRate_pos (p : Byte) : 0 < (playbackRate p).value := by
  rw [playbackRate_value]
  positivity

theorem playbackRate_add_four {p q : Byte} (h : q.toNat = p.toNat + 4) :
    (playbackRate q).value = 2 * (playbackRate p).value := by
  have hexp : (((p.toNat + 4 : Nat) : ℝ) - 64) / 4 = ((p.toNat : ℝ) - 64) / 4 + 1 := by
    push_cast
    ring
  rw [playbackRate_value, playbackRate_value, h, hexp, Real.rpow_add_one (by norm_num)]
  ring

/-- Settles O40: the instruction writes its register; the rates are powers of 2 times 4000. -/
theorem pitchAndRate : Obligations.PitchAndRate := by
  refine ⟨fun x s => ⟨decodeFirst_firstWord (i := .pitch x) rfl rfl, _, exec_pitch x s, rfl, rfl, rfl, rfl,
    State.byteAt_congr rfl rfl⟩, fun p => ⟨playbackRate_value p, playbackRate_pos p⟩, ?_, ?_, ?_,
    fun p q => playbackRate_add_four⟩
  · rw [playbackRate_of_octave (k := 0) rfl]
    norm_num
  · rw [playbackRate_of_octave (k := -1) rfl]
    norm_num
  · rw [playbackRate_of_octave (k := 1) rfl]
    norm_num

/-! ### A block of samples (R271, R272) -/

/-- The phase one sample on. -/
def State.nextPhase (s : State) (ph : Surd) : Surd := (ph.add s.phaseStep).mod128

theorem State.generate_succ (s : State) (n : Nat) (ph : Surd) :
    s.generate (n + 1) ph =
      ((if patternBit s.pattern (bitAt ph) then s.cfg.ampHigh else s.cfg.ampLow) :: (s.generate n (s.nextPhase ph)).1,
        (s.generate n (s.nextPhase ph)).2) := rfl

/-- The next phase is one step further, less a multiple of 128. -/
theorem State.nextPhase_value (s : State) (ph : Surd) :
    ∃ k : Int, (s.nextPhase ph).value = ph.value + s.phaseStep.value - 128 * k :=
  ⟨_, by rw [State.nextPhase, Surd.value_mod128, Surd.value_add]⟩

theorem State.generate_length (s : State) (n : Nat) (ph : Surd) : (s.generate n ph).1.length = n := by
  induction n generalizing ph with
  | zero => rfl
  | succ n ih => rw [State.generate_succ, List.length_cons, ih]

/-- The phase after `n` samples is `n` steps further, less a multiple of 128. -/
theorem State.generate_phase (s : State) (n : Nat) (ph : Surd) :
    ∃ k : Int, (s.generate n ph).2.value = ph.value + n * s.phaseStep.value - 128 * k := by
  induction n generalizing ph with
  | zero => exact ⟨0, by simp [State.generate]⟩
  | succ n ih =>
    obtain ⟨k, hk⟩ := ih (s.nextPhase ph)
    obtain ⟨l, hl⟩ := s.nextPhase_value ph
    refine ⟨k + l, ?_⟩
    rw [State.generate_succ, hk, hl]
    push_cast
    ring

/-- Sample `j` shows the pattern bit that `j` steps after the phase stand at. -/
theorem State.generate_getElem? (s : State) {n j : Nat} (hj : j < n) (ph : Surd) :
    (s.generate n ph).1[j]? =
      some (if patternBit s.pattern (⌊ph.value + j * s.phaseStep.value⌋ % 128).toNat then s.cfg.ampHigh
        else s.cfg.ampLow) := by
  induction n generalizing j ph with
  | zero => omega
  | succ n ih =>
    rw [State.generate_succ]
    cases j with
    | zero => simp [bitAt_eq]
    | succ j =>
      obtain ⟨l, hl⟩ := s.nextPhase_value ph
      have hshift : ph.value + s.phaseStep.value - 128 * l + j * s.phaseStep.value =
          ph.value + ((j + 1 : Nat) : ℝ) * s.phaseStep.value - ((128 * l : Int) : ℝ) := by
        push_cast
        ring
      rw [List.getElem?_cons_succ, ih (by omega), hl, hshift, Int.floor_sub_intCast, Int.sub_mul_emod_self_left]

/-- The pattern's bits are numbered from byte 0 and bit 7 (R272). -/
theorem patternBit_eq (p : Vector Byte 16) (b : Fin 128) :
    patternBit p b.val = (p[b.val / 8]'(by omega)).getLsbD (7 - b.val % 8) := by
  have hlt : b.val / 8 < 16 := by omega
  simp [patternBit, hlt]

/-- Settles O41: by the samples and the phase of a block, each an induction over its length. -/
theorem samplesFollowThePhase : Obligations.SamplesFollowThePhase := by
  intro s n ph d h0 h128 hd
  rw [← playbackRate_value, ← State.phaseStep_value] at hd
  subst hd
  obtain ⟨hlow, hhigh⟩ := s.generate_phaseRange n ⟨h0, h128⟩
  refine ⟨s.generate_length n ph, fun j hj b hb => ?_, hlow, hhigh, s.generate_phase n ph⟩
  rw [s.generate_getElem? hj ph, ← hb, Int.toNat_natCast, patternBit_eq]

/-! ### The audio step (R273, R274) -/

/-- While `sound` is not 0 the audio step makes one block; the port receives what the host takes of it. -/
theorem State.audioStep_of_sounding {s : State} (h : s.sound ≠ 0) {n : Nat} (hn : samplesPerFrame s.cfg = n) :
    s.audioStep = { s with
      phase := (s.generate n s.phase).2
      out := { s.out with
        samples := (s.generate n s.phase).1.take (min s.port.accepted (min n s.port.headroom))
        blocks := s.out.blocks + 1 } } := by
  subst hn
  exact if_neg h

/-- Showing a frame changes nothing that a block is made from. -/
theorem State.generate_showFrame (s : State) (n : Nat) (ph : Surd) : s.showFrame.generate n ph = s.generate n ph := by
  induction n generalizing ph with
  | zero => rfl
  | succ n ih =>
    rw [State.generate_succ, State.generate_succ, ih]
    rfl

/-- Settles O50: the presentation of an `Active` run is the frame and then the audio step. -/
theorem audioIsGatedBySound : Obligations.AudioIsGatedBySound := by
  intro s n hrun hturn hsound hn
  have hframe : samplesPerFrame s.showFrame.cfg = n := by
    rw [samplesPerFrame, State.showFrame_cfg, ← hn, Int.toNat_natCast]
  have htick : s.presentTick = s.showFrame.audioStep := if_pos (beq_iff_eq.2 hrun)
  have hstep := step_of_present (.inl hrun) hturn
  rw [State.presentMove, htick, State.audioStep_of_sounding (s := s.showFrame) hsound hframe, s.generate_showFrame] at hstep
  refine ⟨_, min s.port.accepted (min n s.port.headroom), hstep, ?_, ?_, fun hle hroom => ?_, rfl, rfl, rfl⟩ <;> omega

end Sys2Proof.Machine
end

section
/-! SUPPORT. What the decoder reads is well formed and is encoded by the bytes it took; the words it does not read; the
generation class by the first word (spec R90 to R107). -/

namespace Sys2Proof.Machine

open Laws (groupOf_nnn groupOf_xnn xOf_xnn nnOf_xnn groupOf_xyn xOf_xyn yOf_xyn nOf_xyn high_of_append low_of_append)

/-! ### A decoded word (R91, R94) -/

/-- The first word `op` can be found again from what it says: a well-formed instruction of one word, whose first word is `op`, or
the long form, which has one marker. -/
def Decoded.Says (op : Word) : Decoded → Prop
  | .short i => i.wf = true ∧ i.secondWord = none ∧ i.firstWord = op
  | .long => op = 0xF000

theorem eq_append_nnn (w : Word) : w = groupOf w ++ nnnOf w := by
  unfold groupOf nnnOf; ext i hi; simp; grind

variable {op : Word}

/-! A word is put together from its fields, format by format (R91). -/

theorem append_nnn_of_fields {g : Nibble} (hg : groupOf op = g) : (g ++ nnnOf op : Word) = op := by
  subst hg
  exact (eq_append_nnn op).symm

theorem append_xnn_of_fields {g x : Nibble} {nn : Byte} (hg : groupOf op = g) (hx : xOf op = x) (hnn : nnOf op = nn) :
    (g ++ x ++ nn : Word) = op := by
  subst hg hx hnn
  exact (eq_append_xnn op).symm

theorem append_xyn_of_fields {g x y n : Nibble} (hg : groupOf op = g) (hx : xOf op = x) (hy : yOf op = y)
    (hn : nOf op = n) : (g ++ x ++ y ++ n : Word) = op := by
  subst hg hx hy hn
  exact (eq_append_xyn op).symm

/-! ### What the decoder reads (R94 to R101) -/

/-- The scroll words of group 0 in the format with three fields (R95). -/
theorem scrollWord_eq_append (n : Nibble) :
    (0x00C#12 ++ n : Word) = 0x0#4 ++ 0x0#4 ++ 0xC#4 ++ n ∧ (0x00D#12 ++ n : Word) = 0x0#4 ++ 0x0#4 ++ 0xD#4 ++ n := by
  revert n
  decide

theorem decodeGroup0_says {i : Instr} (hg : groupOf op = 0x0) (h : decodeGroup0 op = some i) : Decoded.Says op (.short i) := by
  unfold decodeGroup0 at h
  split_ifs at h with h1 h2 h3 h4 h5 h6 hdown hup <;> cases h
  case pos | pos | pos | pos | pos | pos => exact ⟨rfl, rfl, Eq.symm ‹_›⟩
  · obtain ⟨hx, hy⟩ := hdown
    exact ⟨rfl, rfl, (scrollWord_eq_append _).1.trans (append_xyn_of_fields hg hx hy rfl)⟩
  · obtain ⟨hx, hy⟩ := hup
    exact ⟨rfl, rfl, (scrollWord_eq_append _).2.trans (append_xyn_of_fields hg hx hy rfl)⟩

theorem decodeGroup8_says {i : Instr} (hg : groupOf op = 0x8) (h : decodeGroup8 op = some i) : Decoded.Says op (.short i) := by
  unfold decodeGroup8 at h
  split at h <;> cases h <;> exact ⟨rfl, rfl, append_xyn_of_fields hg rfl rfl (BitVec.eq_of_toNat_eq ‹_›)⟩

theorem decodeGroupE_says {i : Instr} (hg : groupOf op = 0xE) (h : decodeGroupE op = some i) : Decoded.Says op (.short i) := by
  unfold decodeGroupE at h
  split at h <;> cases h <;> exact ⟨rfl, rfl, append_xnn_of_fields hg rfl (BitVec.eq_of_toNat_eq ‹_›)⟩

/-- The low byte fixes the row of group F; three rows restrict the field `x` besides (R100, R101). -/
theorem decodeGroupF_says {d : Decoded} (hg : groupOf op = 0xF) (h : decodeGroupF op = some d) : Decoded.Says op d := by
  unfold decodeGroupF at h
  split at h
  next hnn =>
    split_ifs at h with hx
    cases h
    exact (append_xnn_of_fields (nn := 0x00) hg hx (BitVec.eq_of_toNat_eq hnn)).symm
  next hnn =>
    split_ifs at h with hx
    cases h
    exact ⟨decide_eq_true hx, rfl, append_xnn_of_fields hg rfl (BitVec.eq_of_toNat_eq hnn)⟩
  next hnn =>
    split_ifs at h with hx
    cases h
    exact ⟨rfl, rfl, append_xnn_of_fields (nn := 0x02) hg hx (BitVec.eq_of_toNat_eq hnn)⟩
  all_goals
    cases h <;> exact ⟨rfl, rfl, append_xnn_of_fields hg rfl (BitVec.eq_of_toNat_eq ‹_›)⟩

/-- The word can be found again from what the decoder reads in it (R94). -/
theorem decodeFirst_says {d : Decoded} (h : decodeFirst op = some d) : Decoded.Says op d := by
  unfold decodeFirst at h
  split at h
  case h_1 hg =>
    obtain ⟨i, hi, rfl⟩ := Option.map_eq_some_iff.1 h
    exact decodeGroup0_says (BitVec.eq_of_toNat_eq hg) hi
  case h_9 hg =>
    obtain ⟨i, hi, rfl⟩ := Option.map_eq_some_iff.1 h
    exact decodeGroup8_says (BitVec.eq_of_toNat_eq hg) hi
  case h_15 hg =>
    obtain ⟨i, hi, rfl⟩ := Option.map_eq_some_iff.1 h
    exact decodeGroupE_says (BitVec.eq_of_toNat_eq hg) hi
  case h_16 =>
    have hlt : (groupOf op).toNat < 16 := (groupOf op).isLt
    exact decodeGroupF_says (BitVec.eq_of_toNat_eq (by grind)) h
  case h_2 hg | h_3 hg | h_11 hg | h_12 hg =>
    cases h
    exact ⟨rfl, rfl, append_nnn_of_fields (BitVec.eq_of_toNat_eq hg)⟩
  case h_4 hg | h_5 hg | h_7 hg | h_8 hg | h_13 hg =>
    cases h
    exact ⟨rfl, rfl, append_xnn_of_fields (BitVec.eq_of_toNat_eq hg) rfl rfl⟩
  case h_6 hg | h_10 hg =>
    split_ifs at h with hn
    cases h
    exact ⟨rfl, rfl, append_xyn_of_fields (BitVec.eq_of_toNat_eq hg) rfl rfl hn⟩
  case h_14 hg =>
    split_ifs at h with hn <;> cases h
    · exact ⟨rfl, rfl, append_xyn_of_fields (BitVec.eq_of_toNat_eq hg) rfl rfl hn⟩
    · exact ⟨bne_iff_ne.2 hn, rfl, append_xyn_of_fields (BitVec.eq_of_toNat_eq hg) rfl rfl rfl⟩

/-! ### Decoded bytes (R66, R90) -/

theorem wordBytes_of_append (hi lo : Byte) : wordBytes (hi ++ lo : Word) = [hi, lo] := by
  rw [wordBytes, high_of_append, low_of_append]

/-- Settles O2: by the length of the bytes and what their first word says. -/
theorem encodeOfDecode : Obligations.EncodeOfDecode := by
  intro bs rest i h
  match bs with
  | [] | [_] => cases h
  | hi :: lo :: tail =>
    simp only [decode] at h
    split at h
    · cases h
    · next hd =>
      cases h
      obtain ⟨hwf, hsecond, hfirst⟩ := decodeFirst_says hd
      refine ⟨hwf, ?_⟩
      simp only [encode, hsecond, hfirst, wordBytes_of_append, List.cons_append, List.nil_append]
    · next hd =>
      split at h
      · next hi2 lo2 rest2 =>
        cases h
        have hfirst : (hi ++ lo : Word) = 0xF000 := decodeFirst_says hd
        refine ⟨rfl, ?_⟩
        simp only [encode, Instr.secondWord, Instr.firstWord, ← hfirst, wordBytes_of_append, List.cons_append,
          List.nil_append]
      · cases h

/-- Settles O5: each word is decoded by computation. -/
theorem specWordsDecode : Obligations.SpecWordsDecode := by
  refine ⟨?_, ?_, ?_, ?_, ?_, ?_, ?_, ?_, ?_, ?_, ?_, ?_, ?_⟩ <;> rfl

/-! ### The illegal words (R104) -/

/-- The fields of a word are its digits. -/
theorem toNat_groupOf (w : Word) : (groupOf w).toNat = w.toNat / 4096 := by
  have hlt : w.toNat < 65536 := w.isLt
  rw [groupOf, BitVec.extractLsb'_toNat, Nat.shiftRight_eq_div_pow]
  omega

theorem toNat_xOf (w : Word) : (xOf w).toNat = w.toNat / 256 % 16 := by
  rw [xOf, BitVec.extractLsb'_toNat, Nat.shiftRight_eq_div_pow]

theorem toNat_yOf (w : Word) : (yOf w).toNat = w.toNat / 16 % 16 := by
  rw [yOf, BitVec.extractLsb'_toNat, Nat.shiftRight_eq_div_pow]

theorem toNat_nOf (w : Word) : (nOf w).toNat = w.toNat % 16 := by
  rw [nOf, BitVec.extractLsb'_toNat, Nat.shiftRight_zero]

theorem toNat_nnOf (w : Word) : (nnOf w).toNat = w.toNat % 256 := by
  rw [nnOf, BitVec.extractLsb'_toNat, Nat.shiftRight_zero]

theorem decodeGroup0_eq_none_iff (hg : op.toNat / 4096 = 0) :
    decodeGroup0 op = none ↔ ¬(op.toNat = 0xE0 ∨ op.toNat = 0xEE ∨ op.toNat = 0xFB ∨ op.toNat = 0xFC ∨ op.toNat = 0xFE ∨
      op.toNat = 0xFF ∨ (0xC0 ≤ op.toNat ∧ op.toNat ≤ 0xDF)) := by
  unfold decodeGroup0
  simp only [BitVec.toNat_eq, toNat_xOf, toNat_yOf, BitVec.reduceToNat]
  split_ifs <;> simp <;> omega

theorem decodeGroup8_eq_none_iff : decodeGroup8 op = none ↔
    op.toNat % 16 = 8 ∨ op.toNat % 16 = 9 ∨ op.toNat % 16 = 0xA ∨ op.toNat % 16 = 0xB ∨ op.toNat % 16 = 0xC ∨
      op.toNat % 16 = 0xD ∨ op.toNat % 16 = 0xF := by
  unfold decodeGroup8
  rw [toNat_nOf]
  split <;> grind

theorem decodeGroupE_eq_none_iff : decodeGroupE op = none ↔ op.toNat % 256 ≠ 0x9E ∧ op.toNat % 256 ≠ 0xA1 := by
  unfold decodeGroupE
  rw [toNat_nnOf]
  split <;> grind

theorem decodeGroupF_eq_none_iff : decodeGroupF op = none ↔
    ¬((op.toNat % 256 = 0x00 ∧ op.toNat / 256 % 16 = 0) ∨ (op.toNat % 256 = 0x01 ∧ op.toNat / 256 % 16 ≤ 3) ∨
      (op.toNat % 256 = 0x02 ∧ op.toNat / 256 % 16 = 0) ∨
      op.toNat % 256 ∈ [0x07, 0x0A, 0x15, 0x18, 0x1E, 0x29, 0x30, 0x33, 0x3A, 0x55, 0x65, 0x75, 0x85]) := by
  unfold decodeGroupF
  simp only [BitVec.toNat_eq, toNat_xOf, toNat_nnOf, BitVec.reduceToNat]
  split <;> simp_all 

/-- Settles O4: group by group. -/
theorem illegalWordsAreThese : Obligations.IllegalWordsAreThese := by
  intro op
  have hlt : op.toNat < 65536 := op.isLt
  have hn : nOf op = 0x0#4 ↔ op.toNat % 16 = 0 := by rw [BitVec.toNat_eq, toNat_nOf]; rfl
  unfold decodeFirst IllegalWord
  rw [toNat_groupOf]
  split
  case h_1 hg => simp [hg, decodeGroup0_eq_none_iff hg]
  case h_6 hg => simp [hg, hn]
  case h_9 hg => simp [hg, decodeGroup8_eq_none_iff]
  case h_10 hg => simp [hg, hn]
  case h_14 hg => split <;> simp [hg]
  case h_15 hg => simp [hg, decodeGroupE_eq_none_iff]
  case h_16 =>
    have hg : op.toNat / 4096 = 0xF := by grind
    simp only [hg, decodeGroupF_eq_none_iff]
    simp
  all_goals
    next hg => simp [hg]

/-! ### The generation class (R107) -/

/-- The words of class S, as the rule lists them. -/
def IsClassS (w : Word) : Prop :=
  w &&& 0xFFF0 = 0x00C0 ∨ w = 0x00FB ∨ w = 0x00FC ∨ w = 0x00FE ∨ w = 0x00FF ∨ w &&& 0xF00F = 0xD000 ∨
    w &&& 0xF0FF = 0xF030 ∨ w &&& 0xF0FF = 0xF075 ∨ w &&& 0xF0FF = 0xF085

/-- The words of class X, as the rule lists them. -/
def IsClassX (w : Word) : Prop :=
  w &&& 0xFFF0 = 0x00D0 ∨ w = 0xF000 ∨ w &&& 0xF0FF = 0xF001 ∨ w = 0xF002 ∨ w &&& 0xF0FF = 0xF03A

/-- Only the groups 0, D and F have words of class S or X. -/
theorem not_isClass_of_group {g : Nibble} (hg : groupOf op = g) (h : g ∉ [0x0#4, 0xD#4, 0xF#4]) :
    ¬IsClassS op ∧ ¬IsClassX op := by
  simp only [List.mem_cons, List.not_mem_nil, or_false, not_or] at h
  simp [IsClassS, IsClassX, word_eq_iff_xyn, hg, h]

/-- In group D the low nibble says the class. -/
theorem isClass_iff_of_groupD (hg : groupOf op = 0xD) : (IsClassS op ↔ nOf op = 0x0#4) ∧ ¬IsClassX op := by
  simp [IsClassS, IsClassX, word_eq_iff_xyn, hg]

/-- In group F the low byte says the class; two words of class X fix x besides. -/
theorem isClass_iff_of_groupF (hg : groupOf op = 0xF) :
    (IsClassS op ↔ nnOf op = 0x30#8 ∨ nnOf op = 0x75#8 ∨ nnOf op = 0x85#8) ∧
    (IsClassX op ↔ (xOf op = 0x0#4 ∧ nnOf op = 0x00#8) ∨ nnOf op = 0x01#8 ∨ (xOf op = 0x0#4 ∧ nnOf op = 0x02#8) ∨
      nnOf op = 0x3A#8) := by
  simp [IsClassS, IsClassX, word_eq_iff_xnn, hg]

/-- The first word says the class that the instruction has. -/
def Instr.ClassByWord (i : Instr) : Prop :=
  (i.gen = .superChip ↔ IsClassS i.firstWord) ∧ (i.gen = .xoChip ↔ IsClassX i.firstWord)

theorem classByWord_of_base {i : Instr} {g : Nibble} (hgen : i.gen = .base) (hg : groupOf i.firstWord = g)
    (h : g ∉ [0x0#4, 0xD#4, 0xF#4]) : Instr.ClassByWord i := by
  obtain ⟨hS, hX⟩ := not_isClass_of_group hg h
  simp [Instr.ClassByWord, hgen, hS, hX]

/-- An instruction of group D has the class that its low nibble says. -/
theorem classByWord_of_groupD {i : Instr} {x y n : Nibble} (hw : i.firstWord = 0xD#4 ++ x ++ y ++ n)
    (hS : i.gen = .superChip ↔ n = 0x0#4) (hX : i.gen ≠ .xoChip) : Instr.ClassByWord i := by
  obtain ⟨hS', hX'⟩ := isClass_iff_of_groupD (op := 0xD#4 ++ x ++ y ++ n) (groupOf_xyn _ _ _ _)
  rw [nOf_xyn] at hS'
  rw [Instr.ClassByWord, hw, hS']
  exact ⟨hS, iff_of_false hX hX'⟩

/-- An instruction of group F has the class that its low byte says. -/
theorem classByWord_of_groupF {i : Instr} {x : Nibble} {nn : Byte} (hw : i.firstWord = 0xF#4 ++ x ++ nn)
    (hS : i.gen = .superChip ↔ nn = 0x30#8 ∨ nn = 0x75#8 ∨ nn = 0x85#8)
    (hX : i.gen = .xoChip ↔ (x = 0x0#4 ∧ nn = 0x00#8) ∨ nn = 0x01#8 ∨ (x = 0x0#4 ∧ nn = 0x02#8) ∨ nn = 0x3A#8) :
    Instr.ClassByWord i := by
  obtain ⟨hS', hX'⟩ := isClass_iff_of_groupF (op := 0xF#4 ++ x ++ nn) (groupOf_xnn _ _ _)
  rw [nnOf_xnn] at hS' hX'
  rw [xOf_xnn] at hX'
  rw [Instr.ClassByWord, hw, hS', hX']
  exact ⟨hS, hX⟩

/-- Every well-formed instruction: by the group of its first word. -/
theorem classByWord {i : Instr} (hwf : i.wf = true) : Instr.ClassByWord i := by
  cases i
  case cls | ret | scr | scl | low | high => unfold Instr.ClassByWord IsClassS IsClassX; decide
  case scd n | scu n =>
    simp [Instr.ClassByWord, IsClassS, IsClassX, Instr.gen, Instr.firstWord, scrollWord_eq_append, word_eq_iff_xyn, groupOf_xyn,
      xOf_xyn, yOf_xyn, nOf_xyn]
  case jp | call | ldI | jpV0 => exact classByWord_of_base rfl (groupOf_nnn _ _) (by decide)
  case seImm | sneImm | ldImm | addImm | rnd | skp | sknp => exact classByWord_of_base rfl (groupOf_xnn _ _ _) (by decide)
  case seReg | sneReg | ldReg | orReg | andReg | xorReg | addReg | subReg | shr | subn | shl =>
    exact classByWord_of_base rfl (groupOf_xyn _ _ _ _) (by decide)
  case drwBig => exact classByWord_of_groupD rfl (by simp [Instr.gen]) (by simp [Instr.gen])
  case drw x y n =>
    have hn : n ≠ 0x0#4 := bne_iff_ne.1 hwf
    exact classByWord_of_groupD rfl (by simp [Instr.gen, hn]) (by simp [Instr.gen])
  case ldILong => exact classByWord_of_groupF (x := 0x0) (nn := 0x00) rfl (by simp [Instr.gen]) (by simp [Instr.gen])
  case audio => exact classByWord_of_groupF (x := 0x0) (nn := 0x02) rfl (by decide) (by decide)
  all_goals exact classByWord_of_groupF rfl (by simp [Instr.gen]) (by simp [Instr.gen])

/-- Settles O6: by the format of the instruction's first word. -/
theorem generationClassOfEachRow : Obligations.GenerationClassOfEachRow := by
  rintro i w hwf rfl
  exact classByWord hwf

end Sys2Proof.Machine
end

section
/-! SUPPORT. The scheduler: the run states, the sampling at the top of an iteration, the count of ticks, the quirk table and the
period, and the entry of a fault (spec R130, R281 to R286, R305 to R307). -/

namespace Sys2Proof.Machine

/-! ### Every step of a run that can move answers (R281) -/

theorem cpuTick_next (s : State) : ∃ t, cpuTick s = .next t := by
  unfold cpuTick
  split
  · exact ⟨_, rfl⟩
  · split
    · exact ⟨_, rfl⟩
    · exact exec_next _ s

theorem step_of_paused_cpu {s : State} (hrun : s.runState = .paused) (hturn : s.turn = .cpu) :
    step s = .next (s.setTurn s.turnAfterCpu) := by
  have hactive : s.active = false := by rw [State.active, hrun]; rfl
  simp only [step, hrun, hturn, cpuMove, hactive, Bool.false_eq_true, if_false]

theorem step_next {s : State} (hrun : s.runState = .active ∨ s.runState = .paused) : ∃ t, step s = .next t := by
  cases hturn : s.turn with
  | top => exact ⟨_, step_of_top hrun hturn⟩
  | timer => exact ⟨_, step_of_timer hrun hturn⟩
  | present => exact ⟨_, step_of_present hrun hturn⟩
  | cpu =>
    rcases hrun with hactive | hpaused
    · obtain ⟨t, ht⟩ := cpuTick_next s.clearAccCpu
      exact ⟨_, step_of_cpuTick hactive hturn ht⟩
    · exact ⟨_, step_of_paused_cpu hpaused hturn⟩

theorem step_of_faulted {s : State} (h : s.runState = .faulted) : step s = .fault (.faulted s.fault) := by
  simp only [step, h]

/-- The moves of a paused run (R285). -/
theorem step_cases_of_paused {s t : State} (hrun : s.runState = .paused) (h : step s = .next t) :
    (s.turn = .top ∧ t = s.topMove) ∨ t = s.timerMove ∨ t = s.presentMove ∨ t = s.setTurn s.turnAfterCpu := by
  have hne : s.runState ≠ .active := by simp [hrun]
  obtain ⟨-, hmove⟩ := step_cases h
  rcases hmove with hmove | ⟨-, hmove⟩ | ⟨-, hmove⟩ | ⟨-, -, hmove⟩ | ⟨-, hactive, -⟩ | ⟨hf, -⟩ | ⟨i, u, hrun', -⟩
  · exact .inl hmove
  · exact .inr (.inl hmove)
  · exact .inr (.inr (.inl hmove))
  · exact .inr (.inr (.inr hmove))
  · exact absurd hactive hne
  · exact absurd hf.1 hne
  · exact absurd hrun'.1.1 hne

/-- The top of an iteration ends the run on a cancellation, and else leaves the run state (R282, R286). -/
theorem State.runState_topMove (s : State) :
    s.topMove.runState = if s.takeInput.port.cancel = true then .exited else s.runState := by
  unfold State.topMove
  split <;> rfl

theorem State.runState_timerMove (s : State) : s.timerMove.runState = s.runState := by rw [State.timerMove_eq]

theorem State.runState_presentMove (s : State) : s.presentMove.runState = s.runState := by rw [State.presentMove_eq]

/-- Settles O51: by the run state; the moves of a paused run leave it, but for the exit at the top of an iteration. -/
theorem runStatesAndTheirEnds : Obligations.RunStatesAndTheirEnds := by
  refine fun s => ⟨step_of_faulted, step_of_exited, fun h => step_next (.inl h), fun hpaused => ?_⟩
  obtain ⟨t, ht⟩ := step_next (s := s) (.inr hpaused)
  refine ⟨t, ht, ?_⟩
  rcases step_cases_of_paused hpaused ht with ⟨hturn, rfl⟩ | rfl | rfl | rfl
  · rw [State.runState_topMove]
    split
    · next hcancel => exact .inr ⟨rfl, hturn, s.takeInput_cancel_iff.1 hcancel⟩
    · exact .inl hpaused
  · exact .inl (s.runState_timerMove.trans hpaused)
  · exact .inl (s.runState_presentMove.trans hpaused)
  · exact .inl hpaused

/-! ### A paused run (R285) -/

theorem State.timerMove_of_paused {s : State} (hrun : s.runState = .paused) : s.timerMove = s.setTurn s.turnAfterTimer := by
  have hactive : s.active = false := by rw [State.active, hrun]; rfl
  simp only [State.timerMove, hactive, Bool.false_eq_true, if_false]

theorem State.presentMove_of_paused {s : State} (hrun : s.runState = .paused) :
    s.presentMove = { s.showFrame with accPresent := .zero, turn := .top } := by
  rw [State.presentMove, State.presentTick_of_silent (.inl hrun)]

/-- Settles O52: none of the four moves of a paused run touches more than the clock, the keys, the accumulators, the inputs, the
turn, the run state and the frame. -/
theorem pausedFreezesTheCore : Obligations.PausedFreezesTheCore := by
  intro s t hpaused h
  rcases step_cases_of_paused hpaused h with ⟨-, rfl⟩ | rfl | rfl | rfl
  · rw [State.topMove_eq]
    exact ⟨rfl, rfl⟩
  · rw [State.timerMove_of_paused hpaused]
    exact ⟨rfl, rfl⟩
  · rw [State.presentMove_of_paused hpaused]
    exact ⟨rfl, rfl⟩
  · exact ⟨rfl, rfl⟩

/-! ### The entry of a fault (R305 to R307) -/

/-- Settles O45: the word is read, and the decoder finds no row for it. -/
theorem illegalWordFaults : Obligations.IllegalWordFaults := by
  intro s op hs hlow hhigh hop hillegal
  have hword : s.readWord s.pc.toNat = .ok op := by
    rw [hop]
    exact State.readWord_ok ((busAllows_iff _).2 (by omega)) ((busAllows_iff _).2 (by omega))
  have hfetch : s.fetch = .error (.unknownOpcode op) := by
    simp only [State.fetch, hword, (illegalWordsAreThese op).2 hillegal]
  exact step_of_fetch_error hs hfetch

/-- A step that turns a run `Faulted` took the fetch's fault, or ran an instruction that took one (R306). -/
theorem step_faulted_cases {s t : State} (hs : s.runState ≠ .faulted) (h : step s = .next t) (ht : t.runState = .faulted) :
    (∃ f, t = faultedBy s.clearAccCpu f) ∨ ∃ i, s.Runs i ∧ exec i s.clearAccCpu = .next t := by
  obtain ⟨-, hmove⟩ := step_cases h
  rcases hmove with ⟨-, rfl⟩ | ⟨-, rfl⟩ | ⟨-, rfl⟩ | ⟨-, -, rfl⟩ | ⟨-, -, r, k, -, rfl⟩ | ⟨-, f, -, rfl⟩ | ⟨i, u, hrun, hu, rfl⟩
  · rw [State.runState_topMove] at ht
    split at ht
    · cases ht
    · exact absurd ht hs
  · exact absurd (s.runState_timerMove.symm.trans ht) hs
  · exact absurd (s.runState_presentMove.symm.trans ht) hs
  · exact absurd ht hs
  · have hpoll : (s.clearAccCpu.keyWaitPoll r k).runState ≠ .faulted := by rwa [State.keyWaitPoll_eq]
    exact absurd ht (State.afterCpuTick_faulted hpoll)
  · exact .inl ⟨f, rfl⟩
  · have hfaulted : u.runState = .faulted := by_contra fun hne => State.afterCpuTick_faulted hne ht
    rw [State.afterCpuTick_of_faulted hfaulted]
    exact .inr ⟨i, hrun, hu⟩

/-- Settles O56: what a faulting instruction leaves is the frame of every instruction, and, for one that is no block instruction,
the state before it with the fault and the promotion. -/
theorem faultEntry : Obligations.FaultEntry := by
  intro s t hs h ht
  have hstop : ∀ f, t.fault = some f → step t = .fault (.faulted (some f)) := fun f hf => hf ▸ step_of_faulted ht
  rcases step_faulted_cases hs h ht with ⟨f, rfl⟩ | ⟨i, hrun, hexec⟩
  · exact ⟨rfl, ⟨f, rfl, hstop f rfl⟩, fun _ => rfl⟩
  · obtain ⟨-, hrecord, hpc⟩ := (exec_frame i _ t hexec).ended.resolve_left fun ⟨he, _⟩ => hs (he.symm.trans ht)
    obtain ⟨f, hf⟩ := Option.isSome_iff_exists.1 hrecord
    refine ⟨hpc, ⟨f, hf, hstop f hf⟩, fun hblock => ?_⟩
    rcases exec_faulted hexec hs ht with ⟨x, hi⟩ | ⟨m, f', rfl⟩
    · obtain ⟨hbcd, hstore, hload⟩ := hblock x
      rcases hi with rfl | rfl | rfl
      · exact absurd hrun hbcd
      · exact absurd hrun hstore
      · exact absurd hrun hload
    · rfl

/-! ### The turn and the count (R282, R285) -/

/-- After the engine's place the timer is next if the run is `Active` and its period has passed. -/
theorem State.turnAfterCpu_eq (s : State) [Decidable (s.runState = .active ∧ 1 / 60 ≤ s.accTimer.value)]
    [Decidable (1 / 60 ≤ s.accPresent.value)] :
    s.turnAfterCpu = if s.runState = .active ∧ 1 / 60 ≤ s.accTimer.value then .timer
      else if 1 / 60 ≤ s.accPresent.value then .present else .top :=
  if_congr s.timerDue_iff rfl s.turnAfterTimer_eq

/-- At the top of an iteration the engine is next if the run is `Active` and its period has passed. -/
theorem State.turnAfterTop_eq (s : State) [Decidable (s.runState = .active ∧ (s.cpuPeriod : ℝ) ≤ s.accCpu.value)]
    [Decidable (s.runState = .active ∧ 1 / 60 ≤ s.accTimer.value)] [Decidable (1 / 60 ≤ s.accPresent.value)] :
    s.turnAfterTop = if s.runState = .active ∧ (s.cpuPeriod : ℝ) ≤ s.accCpu.value then .cpu
      else if s.runState = .active ∧ 1 / 60 ≤ s.accTimer.value then .timer
      else if 1 / 60 ≤ s.accPresent.value then .present else .top :=
  if_congr s.cpuDue_iff rfl s.turnAfterCpu_eq

/-- A counted tick, and the run state that the tick limit gives (R285). -/
theorem State.countTick_of_active {s : State} (hrun : s.runState = .active) {r : RunState}
    (hr : r = (if s.cfg.tickLimit = some (s.cpuTicks + 1) then
      (match s.cfg.limitAction with | .pause => .paused | .exit => .exited) else .active)) :
    s.countTick = { s with cpuTicks := s.cpuTicks + 1, runState := r } := by
  subst hr
  unfold State.countTick
  dsimp only
  split
  · rfl
  · rw [← hrun]

/-- Settles O43: nothing follows a fault; else the tick is counted and the turn goes on. -/
theorem completedTicksAreCounted : Obligations.CompletedTicksAreCounted := by
  refine fun t => ⟨State.afterCpuTick_of_faulted, fun hrun r hr => ?_⟩
  have hne : t.runState ≠ .faulted := by simp [hrun]
  rw [State.afterCpuTick, if_neg hne, State.turnAfterCpu_eq, State.countTick_of_active hrun hr]
  rfl

/-! ### The samples (R282, R291, R292) -/

/-- Without a cancellation the top of an iteration takes the input, samples, and hands on the turn. -/
theorem State.topMove_of_not_cancel {s : State} (h : s.takeInput.port.cancel = false) :
    s.topMove = (s.takeInput.sample s.nextElapsed).setTurn (s.takeInput.sample s.nextElapsed).turnAfterTop :=
  if_neg (ne_true_of_eq_false h)

/-- Without a cancellation the ports carry what the host drives next. -/
theorem State.takeInput_of_not_cancel {s : State} (h : s.port.cancel = false) :
    s.takeInput = { s with port := s.nextInput, feed := s.feed.tail, inputsRead := s.inputsRead + 1 } := by
  simp only [State.takeInput, h, Bool.false_or]

/-- The time of a given input is the fraction it says (R292). -/
theorem State.nextElapsed_of_feed {s : State} {h : GivenInput} (hfeed : s.feed.head? = some h) :
    s.nextElapsed.value = h.elapsedNum / (h.elapsedDenPred + 1) := by
  obtain ⟨tail, htail⟩ := List.head?_eq_some_iff.1 hfeed
  rw [State.nextElapsed, htail, Seconds.value_ofRat, elapsedSeconds, Rat.mkRat_eq_div]
  push_cast
  rfl

/-- Where no input is given the time is the difference of two readings of the clock (R292). -/
theorem State.nextElapsed_of_no_feed {s : State} (hfeed : s.feed = []) :
    s.nextElapsed.value = clockReading (s.inputsRead + 1) - clockReading s.inputsRead := by
  rw [State.nextElapsed, hfeed, Seconds.value_toReading]

/-- Settles O47: the step is the top move, and the time it adds is `nextElapsed`. -/
theorem iterationSamplesTheInputs : Obligations.IterationSamplesTheInputs := by
  intro s hrun hturn hport hnext
  have hcancel : s.takeInput.port.cancel = false := by
    rw [State.takeInput_of_not_cancel hport]
    exact hnext
  have hstep := step_of_top hrun hturn
  rw [State.topMove_of_not_cancel hcancel, State.takeInput_of_not_cancel hport] at hstep
  refine ⟨_, s.nextElapsed.value, hstep, s.nextElapsed_nonneg, fun h => State.nextElapsed_of_feed,
    State.nextElapsed_of_no_feed, Seconds.value_add _ _, Seconds.value_add _ _, Seconds.value_add _ _, Seconds.value_add _ _,
    ?turn, rfl⟩
  case turn =>
    rw [State.setTurn_turn, State.turnAfterTop_eq]
    simp only [State.sample_accCpu, State.sample_accTimer, State.sample_accPresent, Seconds.value_add]
    rfl

/-! ### The quirk table (R130, R283) -/

theorem State.cpuPeriod_of_hz {s : State} {r : Rat} (h : s.quirk.cpuRate = .hz r) :
    s.cpuPeriod = 1 / (r * s.cfg.speedMultiplier) := by
  simp only [State.cpuPeriod, h]

theorem State.cpuPeriod_of_unbounded {s : State} (h : s.quirk.cpuRate = .unbounded) : s.cpuPeriod = 0 := by
  simp only [State.cpuPeriod, h]

/-- Settles O48: by the mode's row of the table of R130. -/
theorem quirksAndPeriodOfEachMode : Obligations.QuirksAndPeriodOfEachMode := by
  intro s hstd
  have hquirk := State.quirk_of_standardQuirks hstd
  refine ⟨fun hmode => ?classic, fun hmode => ?superChip, fun hmode => ?xoChip⟩
  case classic =>
    have hrow : s.quirk = classicQuirks := by rcases hmode with hm | hm <;> (rw [hquirk, hm]; rfl)
    exact ⟨hrow, State.cpuPeriod_of_hz (congrArg QuirkRow.cpuRate hrow)⟩
  case superChip =>
    have hrow : s.quirk = superChipQuirks := by rw [hquirk, hmode]; rfl
    exact ⟨hrow, State.cpuPeriod_of_hz (congrArg QuirkRow.cpuRate hrow)⟩
  case xoChip =>
    have hrow : s.quirk = xoChipQuirks := by rw [hquirk, hmode]; rfl
    exact ⟨hrow, State.cpuPeriod_of_unbounded (congrArg QuirkRow.cpuRate hrow)⟩

end Sys2Proof.Machine
end

section
/-! SUPPORT. The call, the random byte, the long load of `I`, the flag store, the scrolls, and the timer and key instructions
(spec R31, R153, R181, R201, R208, R209, R224 to R228, R250 to R253, R258, R260). -/

namespace Sys2Proof.Machine

/-! ### The call (R31, R153) -/

theorem exec_call_of_full {s : State} (h : s.sp.val = 16) (nnn : Imm12) :
    exec (.call nnn) s = .next (faultedBy s (.stackOverflow s.pc)) := by
  simp only [exec, execCall, State.push_of_full _ h, State.trap_eq]

/-- Settles O9: by whether the stack has a free entry. -/
theorem callPushes : Obligations.CallPushes := by
  refine fun nnn s => ⟨decodeFirst_firstWord (i := .call nnn) rfl rfl, fun hfree => ?_, fun hfull => exec_call_of_full hfull nnn⟩
  obtain ⟨k, hk⟩ : ∃ k : Fin 16, s.sp.val = k.val := ⟨⟨_, hfree⟩, rfl⟩
  refine ⟨_, exec_call_of_free hk nnn, BitVec.toNat_setWidth_of_le (by decide), ?sp, fun j => ?stack, rfl,
    State.byteAt_congr rfl rfl⟩
  case sp => rw [hk, Fin.val_succ]
  case stack =>
    have hiff : k.val = j.val ↔ j.val = s.sp.val := by
      rw [hk]
      exact eq_comm
    exact (Vector.getElem_set k.isLt j.isLt).trans (if_congr hiff rfl rfl)

/-! ### The random byte (R181) -/

/-- Settles O19: `V[x]` is the next free byte with the mask applied, and the draw is counted. -/
theorem randomIsMasked : Obligations.RandomIsMasked := by
  refine fun x nn s => ⟨decodeFirst_firstWord (i := .rnd x nn) rfl rfl, _, _, rfl, rfl, ?_, ?_, ?_, rfl, rfl, rfl,
    State.byteAt_congr rfl rfl⟩
  all_goals simp only [State.getV_advance, State.getV_setV, State.getV_countDraw, if_true]
  · exact fun b _ => BitVec.getLsbD_and
  · rintro rfl
    exact BitVec.and_zero
  · exact fun z hz => if_neg hz

/-! ### The long load of `I` (R201) -/

theorem exec_ldILong (nnnn : Word) (s : State) :
    exec (.ldILong nnnn) s = .next ((State.setI { s with mode := modeAfterX s } nnnn).setPc (s.pc + 4)) := by
  simp only [exec, execLdILong, State.promote_xoChip]

/-- Settles O21: the long form takes its second word whole, and `PC` passes over both. -/
theorem indexLoadLong : Obligations.IndexLoadLong := by
  refine fun nnnn s => ⟨?_, _, exec_ldILong nnnn s, rfl, rfl, rfl, rfl, State.byteAt_congr rfl rfl⟩
  rintro hi lo rfl
  rfl

/-! ### The flag store (R208, R209) -/

theorem exec_saveFlags (x : Nibble) (s : State) : exec (.saveFlags x) s =
    .next (State.setFlags { s with mode := modeAfterS s } (overlay x s.v s.flags)).flagSave.advance := by
  simp only [exec, execSaveFlags, State.promote_superChip]

theorem exec_loadFlags (x : Nibble) (s : State) : exec (.loadFlags x) s =
    .next (State.setAllV { s with mode := modeAfterS s } (overlay x s.flags s.v)).advance := by
  simp only [exec, execLoadFlags, State.promote_superChip]

/-- Settles O27: both forms write an overlay of the one sixteen bytes on the other. -/
theorem flagStoreSavesAndLoads : Obligations.FlagStoreSavesAndLoads := by
  intro x s
  have hsave := exec_saveFlags x s
  have hload := exec_loadFlags x s
  have hsaved : ∀ k : Fin 16, (overlay x s.v s.flags)[k] = if k.val ≤ x.toNat then s.v[k] else s.flags[k] :=
    fun k => overlay_getElem x s.v s.flags k.val k.isLt
  have hloaded : ∀ k : Fin 16, (overlay x s.flags s.v)[k] = if k.val ≤ x.toNat then s.flags[k] else s.v[k] :=
    fun k => overlay_getElem x s.flags s.v k.val k.isLt
  generalize overlay x s.v s.flags = f at hsave hsaved
  generalize overlay x s.flags s.v = w at hload hloaded
  exact ⟨decodeFirst_firstWord (i := .saveFlags x) rfl rfl,
    ⟨_, hsave, hsaved, rfl, rfl, rfl, rfl, State.byteAt_congr rfl rfl⟩,
    decodeFirst_firstWord (i := .loadFlags x) rfl rfl, _, hload, hloaded, rfl, rfl, rfl, State.byteAt_congr rfl rfl⟩

/-! ### The scrolls (R224 to R228) -/

theorem exec_scd (n : Nibble) (s : State) : exec (.scd n) s =
    .next (State.onSelected { s with mode := modeAfterS s } (Plane.scroll .down (n.toNat * s.scale))).advance := by
  simp only [exec, execScd, State.promote_superChip]
  rfl

theorem exec_scu (n : Nibble) (s : State) : exec (.scu n) s =
    .next (State.onSelected { s with mode := modeAfterX s } (Plane.scroll .up (n.toNat * s.scale))).advance := by
  simp only [exec, execScu, State.promote_xoChip]
  rfl

theorem exec_scr (s : State) : exec .scr s =
    .next (State.onSelected { s with mode := modeAfterS s } (Plane.scroll .right (4 * s.scale))).advance := by
  simp only [exec, execScr, State.promote_superChip]
  rfl

theorem exec_scl (s : State) : exec .scl s =
    .next (State.onSelected { s with mode := modeAfterS s } (Plane.scroll .left (4 * s.scale))).advance := by
  simp only [exec, execScl, State.promote_superChip]
  rfl

/-- Right of the grid no cell is lit (R220). -/
theorem Plane.lit_eq_false_of_column {p : Plane} {px : Nat} (py : Nat) (h : 128 ≤ px) : p.lit py px = false :=
  BitVec.getLsbD_of_ge _ px h

/-- A scroll to the left vacates the columns at the right edge (R224). -/
theorem Plane.lit_scroll_left_of_grid (p : Plane) (d : Nat) {py : Nat} (px : Nat) (h : py < 64) :
    (p.scroll .left d).lit py px = (decide (px + d ≤ 127) && p.lit py (px + d)) := by
  rw [Plane.lit_scroll_left p d px h]
  by_cases hd : px + d ≤ 127
  · rw [decide_eq_true hd, Bool.true_and]
  · rw [Plane.lit_eq_false_of_column py (by omega), Bool.and_false]

/-- Settles O29: each scroll is its direction's formula on every selected plane, by the distance times the scale. -/
theorem scrolls : Obligations.Scrolls := by
  intro n s k d e hk hd he
  have hscale : s.scale = k := hk.symm
  subst hd he
  rw [← hscale]
  refine ⟨decodeFirst_firstWord (i := .scd n) rfl rfl, redraws_of_onSelected (exec_scd n s) ?_,
    decodeFirst_firstWord (i := .scu n) rfl rfl, redraws_of_onSelected (exec_scu n s) ?_,
    by decide, redraws_of_onSelected (exec_scr s) ?_, by decide, redraws_of_onSelected (exec_scl s) ?_⟩
  · exact fun p py px hy _ => Plane.lit_scroll_down _ _ px hy
  · exact fun p py px hy _ => Plane.lit_scroll_up _ _ px hy
  · exact fun p py px hy hx => Plane.lit_scroll_right _ _ hy hx
  · exact fun p py px hy _ => Plane.lit_scroll_left_of_grid _ _ px hy

/-! ### The timers and the key wait (R250 to R253, R260) -/

/-- Settles O34: each form moves a byte between a counter and a register. -/
theorem timerInstructions : Obligations.TimerInstructions := by
  intro x s
  exact ⟨decodeFirst_firstWord (i := .ldVxDt x) rfl rfl, writesRegs_of_setV rfl,
    decodeFirst_firstWord (i := .ldDtVx x) rfl rfl, ⟨_, rfl, rfl, rfl, rfl, State.byteAt_congr rfl rfl⟩,
    decodeFirst_firstWord (i := .ldStVx x) rfl rfl, ⟨_, rfl, rfl, rfl, rfl, State.byteAt_congr rfl rfl⟩⟩

/-- Settles O35: the instruction writes the engine's state and nothing else. -/
theorem keyWaitIsEntered : Obligations.KeyWaitIsEntered := fun x _ =>
  ⟨decodeFirst_firstWord (i := .ldVxKey x) rfl rfl, _, rfl, rfl, rfl, rfl, State.byteAt_congr rfl rfl⟩

/-- Timer ticks take 1 off each counter until it is 0 (R258). -/
theorem State.timerTick_iterate (s : State) (k : Nat) :
    (State.timerTick^[k] s).delay.toNat = s.delay.toNat - k ∧ (State.timerTick^[k] s).sound.toNat = s.sound.toNat - k := by
  induction k with
  | zero => exact ⟨rfl, rfl⟩
  | succ k ih =>
    obtain ⟨hdelay, hsound⟩ := ih
    rw [Function.iterate_succ_apply']
    refine ⟨(countDown_toNat _).trans ?_, (countDown_toNat _).trans ?_⟩
    · rw [hdelay, Nat.sub_sub]
    · rw [hsound, Nat.sub_sub]

/-- Settles O38: both counters are set to `V[x]`, and the ticks count down from there. -/
theorem timersStopAtZero : Obligations.TimersStopAtZero := fun x k s =>
  ⟨_, _, rfl, rfl, (State.timerTick_iterate (s.setDelay (s.getV x)).advance k).1,
    (State.timerTick_iterate (s.setSound (s.getV x)).advance k).2⟩

end Sys2Proof.Machine
end

section
/-! SUPPORT. The state after reset: its registers, the reset contents of memory, the refusal of a ROM that is too long, and the
invariant (spec R8, R49, R331 to R337). -/

namespace Sys2Proof.Machine

/-! ### A valid configuration (R8) -/

theorem tickLimit_ne_zero_of_cfgValid {c : Cfg} (h : cfgValid c = true) : c.tickLimit ≠ some 0 := by
  simp only [cfgValid, Bool.and_eq_true, decide_eq_true_eq] at h
  tauto

/-- The two fonts of a valid configuration lie apart. -/
theorem fonts_disjoint_of_cfgValid {c : Cfg} (h : cfgValid c = true) :
    c.fontBase + 80 ≤ c.bigFontBase ∨ c.bigFontBase + 160 ≤ c.fontBase := by
  simp only [cfgValid, Bool.and_eq_true, Bool.or_eq_true, decide_eq_true_eq] at h
  tauto

/-- The low amplitude of the default configuration is not the high one: their distance is 1 to 255 (R275). -/
theorem amplitude_ne (high : Byte) (gap : Nat) : high ≠ high + 1 + BitVec.ofNat 8 (gap % 255) := by
  bv_omega

theorem cfgValid_defaultCfg : cfgValid defaultCfg = true := by
  have hrate : 0 < defaultCfg.sampleRate := by
    change 0 < mkRat _ _
    rw [Rat.mkRat_eq_div]
    positivity
  have hamp : defaultCfg.ampHigh ≠ defaultCfg.ampLow := amplitude_ne _ _
  simp only [cfgValid, decide_eq_true hrate, decide_eq_true hamp]
  decide

/-! ### The reset contents of memory (R26, R331, R335, R336) -/

/-- Right after reset nothing has been stored, so every byte is its reset contents. -/
theorem State.byteAt_init (c : Cfg) (a : Nat) : (State.init c).byteAt a = resetByte c a := rfl

section

variable {c : Cfg} {a : Nat}

theorem resetByte_of_reserved (ha : a < 0x200) : resetByte c a = reservedByte c a := if_pos ha

/-- A ROM that fits stands in program space from 0x200 on, and 0 after it. -/
theorem resetByte_of_rom (ha : 0x200 ≤ a) (hrom : c.rom.length ≤ romMax) : resetByte c a = c.rom.getD (a - 0x200) 0 :=
  (if_neg (by omega)).trans (if_pos hrom)

/-- No byte of a ROM that does not fit is copied (R334). -/
theorem resetByte_of_oversized (ha : 0x200 ≤ a) (hrom : romMax < c.rom.length) : resetByte c a = 0 :=
  (if_neg (by omega)).trans (if_neg (by omega))

theorem reservedByte_of_diag {b : Byte} (h : c.diagByte = some b) : reservedByte c 0x1FF = b := by
  simp only [reservedByte, h, if_true]

/-- Where there is no diagnostic byte the reserved region is the fonts' (R331). -/
theorem reservedByte_of_no_diag (h : a ≠ 0x1FF ∨ c.diagByte = none) : reservedByte c a = reservedByte.fontByte c a := by
  unfold reservedByte
  split
  · next b hb => exact if_neg (h.resolve_right (by simp [hb]))
  · rfl

theorem fontByte_of_bigFont (k : Fin 160) : reservedByte.fontByte c (c.bigFontBase + k.val) = c.bigFontData[k] := by
  simp [reservedByte.fontByte]

/-- The small font is not overwritten by the big one, which lies apart. -/
theorem fontByte_of_font (hc : cfgValid c = true) (k : Fin 80) :
    reservedByte.fontByte c (c.fontBase + k.val) = c.fontData[k] := by
  have hapart : ¬(c.bigFontBase ≤ c.fontBase + k.val ∧ c.fontBase + k.val < c.bigFontBase + 160) := by
    have := fonts_disjoint_of_cfgValid hc
    omega
  simp [reservedByte.fontByte, hapart]

theorem fontByte_outside (hfont : a < c.fontBase ∨ c.fontBase + 80 ≤ a) (hbig : a < c.bigFontBase ∨ c.bigFontBase + 160 ≤ a) :
    reservedByte.fontByte c a = 0 :=
  (if_neg (by omega)).trans (if_neg (by omega))

theorem resetByte_of_font (hc : cfgValid c = true) (k : Fin 80) (h : c.fontBase + k.val ≠ 0x1FF ∨ c.diagByte = none) :
    resetByte c (c.fontBase + k.val) = c.fontData[k] := by
  obtain ⟨hsmall, -⟩ := fonts_in_reserved_of_cfgValid hc
  rw [resetByte_of_reserved (by omega), reservedByte_of_no_diag h, fontByte_of_font hc]

theorem resetByte_of_bigFont (hc : cfgValid c = true) (k : Fin 160) (h : c.bigFontBase + k.val ≠ 0x1FF ∨ c.diagByte = none) :
    resetByte c (c.bigFontBase + k.val) = c.bigFontData[k] := by
  obtain ⟨-, hbig⟩ := fonts_in_reserved_of_cfgValid hc
  rw [resetByte_of_reserved (by omega), reservedByte_of_no_diag h, fontByte_of_bigFont]

/-- The bytes of a ROM that fits. -/
theorem resetByte_of_rom_byte (hrom : c.rom.length ≤ romMax) (k : Nat) (hk : k < c.rom.length) :
    resetByte c (0x200 + k) = c.rom[k] := by
  rw [resetByte_of_rom (by omega) hrom, Nat.add_sub_cancel_left, List.getD_eq_getElem _ _ hk]

theorem resetByte_after_rom (hrom : c.rom.length ≤ romMax) (ha : 0x200 + c.rom.length ≤ a) : resetByte c a = 0 := by
  rw [resetByte_of_rom (by omega) hrom, List.getD_eq_default _ _ (by omega)]

end

/-! ### The run state (R334) -/

theorem State.init_of_rom_fits {c : Cfg} (h : c.rom.length ≤ romMax) :
    (State.init c).fault = none ∧ (State.init c).runState = .active :=
  ⟨if_pos h, if_pos h⟩

theorem State.init_of_oversized {c : Cfg} (h : romMax < c.rom.length) :
    (State.init c).fault = some (.romTooLarge c.rom.length) ∧ (State.init c).runState = .faulted :=
  ⟨if_neg (by omega), if_neg (by omega)⟩

/-- Settles O60: by whether the ROM fits; 3583 bytes end at 0xFFE. -/
theorem oversizedRomIsRefused : Obligations.OversizedRomIsRefused := by
  rintro c s rfl
  refine ⟨fun hlong => ?_, fun hfull => ?_⟩
  · obtain ⟨hfault, hrun⟩ := State.init_of_oversized hlong
    exact ⟨hfault, hrun, step_of_faulted hrun, fun a ha => resetByte_of_oversized ha hlong⟩
  · have hfits : c.rom.length ≤ romMax := hfull.le
    obtain ⟨hfault, hrun⟩ := State.init_of_rom_fits hfits
    exact ⟨hfault, hrun, resetByte_after_rom (c := c) (a := 0xFFF) hfits (by omega), resetByte_of_rom_byte hfits⟩

/-! ### The registers (R49) -/

theorem State.lit_plane_init (c : Cfg) (p : Fin 2) (py px : Nat) : ((State.init c).plane p).lit py px = false := by
  match p with
  | 0 => exact lit_blankPlane py px
  | 1 => exact lit_blankPlane py px

/-- Settles O59: register by register, and memory region by region. -/
theorem resetValues : Obligations.ResetValues := by
  rintro c s rfl hc hrom
  obtain ⟨hfault, hrun⟩ := State.init_of_rom_fits hrom
  refine ⟨fun x => Vector.getElem_replicate x.isLt, rfl, rfl, fun k => Vector.getElem_replicate k.isLt, rfl,
    fun k => Vector.getElem_replicate k.isLt, rfl, rfl, ?mode, bne_iff_ne, State.lit_plane_init c, rfl, rfl, rfl, rfl,
    Surd.value_zero, rfl, fun k => ?flags, resetByte_of_font hc, resetByte_of_bigFont hc, fun b hb => ?diag,
    fun a ha hfont hbig hdiag => ?elsewhere, resetByte_of_rom_byte hrom, fun a => resetByte_after_rom hrom,
    Seconds.value_zero, Seconds.value_zero, Seconds.value_zero, Seconds.value_firstReading, rfl, hrun, hfault, rfl⟩
  case mode =>
    change resetMode c.forcedMode = _
    cases c.forcedMode <;> rfl
  case flags =>
    change (c.flagsInitial.getD (Vector.replicate 16 0))[k] = _
    cases c.flagsInitial with
    | none => exact Vector.getElem_replicate k.isLt
    | some f => rfl
  case diag => exact (resetByte_of_reserved (by decide)).trans (reservedByte_of_diag hb)
  case elsewhere =>
    rw [State.byteAt_init, resetByte_of_reserved ha, reservedByte_of_no_diag hdiag, fontByte_outside hfont hbig]

/-! ### The invariant (R331) -/

/-- The state after reset has the invariant: it is at the top of an iteration, with nothing stored and no time passed. -/
theorem State.inv_init {c : Cfg} (hc : cfgValid c = true) : (State.init c).Inv where
  configuration := hc
  canonical := Memory.nil_wf c
  programOnly := nofun
  phaseRange := by
    change 0 ≤ Surd.zero.value ∧ Surd.zero.value < 128
    norm_num
  accumulators := ⟨Seconds.value_zero.ge, Seconds.value_zero.ge, Seconds.value_zero.ge⟩
  forcedLatch := rfl
  forcedMode := fun _ => rfl
  autoMode := fun hauto => by
    have hmode : c.forcedMode = .auto := bne_eq_false_iff_eq.1 hauto
    change resetMode c.forcedMode ≠ .chip8
    rw [hmode]
    decide
  faultRecord := by
    rcases le_or_gt c.rom.length romMax with hfits | hlong
    · obtain ⟨hfault, hrun⟩ := State.init_of_rom_fits hfits
      simp [hfault, hrun]
    · obtain ⟨hfault, hrun⟩ := State.init_of_oversized hlong
      simp [hfault, hrun]
  belowLimit := fun _ n hn => Nat.pos_of_ne_zero fun hzero => tickLimit_ne_zero_of_cfgValid hc (hzero ▸ hn)
  cpuTurn := nofun
  timerTurn := nofun
  presentTurn := nofun
  waitingAt := nofun

/-- Settles O58: the invariant holds after reset with every valid configuration, and the default one is valid. -/
theorem resetMeetsTheInvariant : Obligations.ResetMeetsTheInvariant :=
  ⟨fun _ => State.inv_init, State.inv_init cfgValid_defaultCfg⟩

end Sys2Proof.Machine
end
